-- ==== Sys2Proof/Word.lean ====
section
/-! DEFINITION. The widths of UARTSEQ's values (`00_scope.md` R8, R11): every value is an unsigned bit vector. -/

namespace Sys2Proof

/-- One word of a command (`30_encoding.md` R80). -/
abbrev Word := BitVec 32

/-- A u8: a character, a baud index, a pin mask, a GPIO register, a memory byte (R8: `CHAR_W`, `BIX_W`, `PIN_W`). -/
abbrev Byte := BitVec 8

/-- A u16: the contents of a UART register (R8: `REG_W`). -/
abbrev Half := BitVec 16

/-- A u32 address: a GPIO `port_address` or a data-memory pointer (R8: `ADDR_W`). -/
abbrev Addr := BitVec 32

/-- A u2 instance identifier (R8: `INST_W`). -/
abbrev Inst := BitVec 2

end Sys2Proof
end

