-- ==== Sys2Proof/Config.lean ====
section
/-! DEFINITION. The implementation parameters and policies of `00_scope.md` R8-R10, and the one free value of the model.
The spec says that the model takes each parameter as an argument: they stand in `Params`, a plain-data record that `State`
carries and no step changes (assumption 6), so that a statement about every state is a statement about every parameter. -/

namespace Sys2Proof

/-- R10 `SETTER_INSTANCE_MODE`: which instance the setters, APPLY_BAUD and CLEAR_FLAGS act on. -/
inductive SetterMode where
  | fixedPrimary
  | operand
  deriving DecidableEq, Repr

/-- R10 `ACTIVE_CONFIG_POLICY`: what a configuration write to an instance whose reset bit is 0 does. -/
inductive ActivePolicy where
  | fault
  | allow
  deriving DecidableEq, Repr

/-- R10 `CLEAR_FLAGS_MODE_TARGET`: what CLEAR_FLAGS forces to mode 0 (R196). -/
inductive ClearTarget where
  | modeField
  | syncBit
  deriving DecidableEq, Repr

/-- The addresses from `lo` to `hi`, both included. -/
structure AddrRange where
  lo : Addr
  hi : Addr
  deriving DecidableEq, Repr

/-- The parameters of R8, R9 and R10 that the model takes as an argument.
`VALID_PORT` and `MEM_ADMIT` are predicates on u32 addresses, held as a list of ranges (every set of addresses is one). -/
structure Params where
  /-- R8 `N_INST`: how many peripheral instances exist. -/
  nInst : Nat
  /-- R10 `SETTER_INSTANCE_MODE`. -/
  setterMode : SetterMode
  /-- R10 `ACTIVE_CONFIG_POLICY`. -/
  activePolicy : ActivePolicy
  /-- R10 `CLEAR_FLAGS_MODE_TARGET`. -/
  clearTarget : ClearTarget
  /-- R10 `TXIFG_FAIR`. -/
  txifgFair : Bool
  /-- R9 `DEFAULT_PORT` (OPEN). -/
  defaultPort : Addr
  /-- R9 `DEFAULT_PIN_MASK` (OPEN). -/
  defaultPinMask : Byte
  /-- R9 `REF_CLK` in hertz (OPEN). The block never checks it (R43, R245). -/
  refClkHz : Nat
  /-- R9 `VALID_PORT` (OPEN). -/
  validPorts : List AddrRange
  /-- R9 `MEM_ADMIT` (OPEN). -/
  memAdmit : List AddrRange
  /-- R9 `UART_BASE(i)` (OPEN), by instance. The model names registers and never computes an address (R61). -/
  uartBase : List Addr
  deriving DecidableEq, Repr

/-- The defaults of R8-R10. `validPorts` and `memAdmit` have no default in the spec: the values here are the model's
(DESIGN CHOICE, assumption 7); the other OPEN ones are the spec's own general-knowledge defaults. -/
def Params.default : Params where
  nInst := 4
  setterMode := .fixedPrimary
  activePolicy := .fault
  clearTarget := .modeField
  txifgFair := false
  defaultPort := 0x40004C00
  defaultPinMask := 0x0C
  refClkHz := 12000000
  validPorts := [⟨0x40004C00, 0x40004C00⟩]
  memAdmit := [⟨0x00000000, 0xFFFFFFFF⟩]
  uartBase := [0x40001000, 0x40001400, 0x40001800, 0x40001C00]

namespace Config

/-- R8 `PRIMARY`: the primary peripheral instance. -/
def primary : Inst := 0

/-- R8 `BAUD_N`: the entries of the baud table. -/
def baudN : Nat := 5

/-- FREE VALUE (assumption 11): the byte the launch memory holds at an address (`10_state.md` R44: "Contents are given by
the launch state"). It has no body: no proof can see a value of it. -/
opaque launchMem : Addr → Byte

end Config

end Sys2Proof
end

