-- ==== Sys2Proof/Syntax.lean ====
section
/-! DEFINITION. The commands of `spec/opcode_table.json`, one constructor of `Instr` per row (`30_encoding.md` R85), with the
names of registers and the lines of a program (R93). -/

namespace Sys2Proof

/-- The thirteen fields of a configuration descriptor, with the codes of `10_state.md` R20 (R21: thirteen). -/
structure Descriptor where
  inst : Inst
  portAddress : Addr
  pinMask : Byte
  /-- 0 internal-low-speed, 1 auxiliary, 2 sub-main, 3 unrecognised. -/
  clockSource : BitVec 2
  /-- false LSB first, true MSB first. -/
  bitOrder : Bool
  /-- false one, true two. -/
  stopBits : Bool
  /-- false disabled, true enabled-even. -/
  parityMode : Bool
  baudIndex : Byte
  /-- false asynchronous, true synchronous. -/
  syncMode : Bool
  /-- false 8-bit, true 7-bit. -/
  characterLength : Bool
  /-- true enabled (16x), false disabled. -/
  oversample : Bool
  rxErrorInterrupt : Bool
  breakInterrupt : Bool
  deriving DecidableEq, Repr

/-- One command. `inst` is the operand INST of `w0[9:8]`; for the setters, APPLY_BAUD and CLEAR_FLAGS it is an operand only
under `SETTER_INSTANCE_MODE = OPERAND` and is 0 otherwise (R87). A one-bit setter's value is `V[0]` (R84). -/
inductive Instr where
  /-- 0x01 CONSTRUCT (R100). -/
  | construct (d : Descriptor)
  /-- 0x02 CONSTRUCT_DEFAULT (R101). -/
  | constructDefault
  /-- 0x03 INITIALIZE (R120). -/
  | initializeCmd
  /-- 0x04 CONFIGURE_PINS (R125). -/
  | configurePins (port : Addr) (mask : Byte)
  /-- 0x05 APPLY_BAUD (R130). -/
  | applyBaud (inst : Inst) (index : Byte)
  /-- 0x06 SET_CLOCK (R150). -/
  | setClock (inst : Inst) (code : Byte)
  /-- 0x07 SET_BIT_ORDER (R151). -/
  | setBitOrder (inst : Inst) (v : Bool)
  /-- 0x08 SET_STOP_BITS (R152). -/
  | setStopBits (inst : Inst) (v : Bool)
  /-- 0x09 SET_PARITY (R153). -/
  | setParity (inst : Inst) (v : Bool)
  /-- 0x0A SET_CHAR_LEN (R154). -/
  | setCharLen (inst : Inst) (v : Bool)
  /-- 0x0B SET_SYNC (R155). -/
  | setSync (inst : Inst) (v : Bool)
  /-- 0x0C SET_OVERSAMPLE (R156). -/
  | setOversample (inst : Inst) (v : Bool)
  /-- 0x0D SET_RXEIE (R157). -/
  | setRxeie (inst : Inst) (v : Bool)
  /-- 0x0E SET_BRKIE (R158). -/
  | setBrkie (inst : Inst) (v : Bool)
  /-- 0x0F ENABLE (R190). -/
  | enable (inst : Inst)
  /-- 0x10 DISABLE (R191). -/
  | disable (inst : Inst)
  /-- 0x11 SEND_BYTE (R180). -/
  | sendByte (inst : Inst) (byte : Byte)
  /-- 0x12 SEND_STRING (R185). -/
  | sendString (inst : Inst) (ptr : Addr)
  /-- 0x13 CLEAR_FLAGS (R195). -/
  | clearFlags (inst : Inst)
  deriving DecidableEq, Repr

/-- The UART registers the block accesses (`10_state.md` R30). STATW holds only BUSY, which is a bit of its own (R37). -/
inductive UReg where
  | ctlw0
  | brw
  | mctlw
  | txbuf
  | ie
  | ifg
  deriving DecidableEq, Repr

/-- The registers of a GPIO port block (R40). -/
inductive GReg where
  | dir
  | sel0
  | sel1
  deriving DecidableEq, Repr

/-- The UART registers the host may write (`60_exceptions.md` R226): neither BUSY nor IFG.TXIFG.
DESIGN CHOICE (assumption 30): `10_state.md` R39 says of TXBUF that no write by others is modelled, R226 lists TXBUF among the
registers the host writes between commands; the model follows R226. -/
inductive HostReg where
  | ctlw0
  | brw
  | mctlw
  | ie
  | txbuf
  deriving DecidableEq, Repr

/-- One line of a program (`30_encoding.md` R93, `70_reset_and_hazards.md` R254): a command, presented as its 1 to 3 words, an
environment event, or a host write. A host write gives "a value for any bit": the bits set in `mask`. -/
inductive Line where
  | command (ws : List Word)
  | txReady (i : Inst)
  | txDone (i : Inst)
  | hostUart (i : Inst) (r : HostReg) (mask v : Half)
  | hostGpio (a : Addr) (r : GReg) (mask v : Byte)
  | hostMem (a : Addr) (b : Byte)
  deriving DecidableEq, Repr

/-- Who moves at the next step boundary (`20_memory.md` R76, `60_exceptions.md` R224, R226): the environment, the reset
input, or (`run`) the block itself, which in IDLE takes the program's next line. -/
inductive EnvMove where
  | txReady (i : Inst)
  | txDone (i : Inst)
  | blockReset
  | run
  deriving DecidableEq, Repr

end Sys2Proof
end

