-- ==== Sys2Proof/WellFormed.lean ====
section
/-! DEFINITION. Which commands have an encoding (`30_encoding.md` R86, R87). Everything else that could be ill-formed is ruled
out by the types of the operands (R84). -/

namespace Sys2Proof

/-- The INST operand of a command that takes one only under OPERAND (R87). -/
def Instr.setterInst : Instr → Option Inst
  | .applyBaud inst _ => some inst
  | .setClock inst _ => some inst
  | .setBitOrder inst _ => some inst
  | .setStopBits inst _ => some inst
  | .setParity inst _ => some inst
  | .setCharLen inst _ => some inst
  | .setSync inst _ => some inst
  | .setOversample inst _ => some inst
  | .setRxeie inst _ => some inst
  | .setBrkie inst _ => some inst
  | .clearFlags inst => some inst
  | .construct _ => none
  | .constructDefault => none
  | .initializeCmd => none
  | .configurePins _ _ => none
  | .enable _ => none
  | .disable _ => none
  | .sendByte _ _ => none
  | .sendString _ _ => none

/-- A command is well formed in a setter mode if its INST is 0 where the mode requires 0 (R87, R88). -/
def Instr.wf (m : SetterMode) (i : Instr) : Bool :=
  match m with
  | .operand => true
  | .fixedPrimary => i.setterInst.all (· == 0)

end Sys2Proof
end

