-- ==== Sys2Proof/Decode.lean ====
section
/-! DEFINITION. The command decoder and encoder (`30_encoding.md` R80-R90). A command is a list of 32-bit words, transferred as
values (R80); the opcode alone fixes the length (R90); a word is legal if it agrees with its row's match and mask (R86, R88). -/

namespace Sys2Proof

/-- Why a list of words is no command. -/
inductive DecodeError where
  /-- The list is not the words of exactly one command: the host must not present it (`60_exceptions.md` R226). -/
  | notOneCommand
  /-- The opcode is 0x00 or 0x14 to 0xFF (R88). -/
  | illegalOpcode (op : Byte)
  /-- A bit of w0 that the row requires to be 0 is 1 (R86, R88). -/
  | reservedBits (op : Byte)
  /-- `w2[31:8]` is not 0 (R83). -/
  | reservedMaskBits (op : Byte)
  deriving DecidableEq, Repr

/-- `w0[7:0]` (R80). -/
def opcodeOf (w0 : Word) : Byte := w0.extractLsb' 0 8

/-- The word count of a command, from its opcode alone (R90). -/
def commandLength (w0 : Word) : Nat :=
  match (opcodeOf w0).toNat with
  | 0x01 => 3
  | 0x04 => 3
  | 0x12 => 2
  | _ => 1

/-- A mask that differs between the two setter modes (R87). -/
def byMode (m : SetterMode) (fixed operand : Word) : Word :=
  match m with
  | .fixedPrimary => fixed
  | .operand => operand

/-- The w0 mask of each opcode's row (R86, and R87 under OPERAND); `none` for an opcode that is no row's. -/
def w0Mask (m : SetterMode) (op : Byte) : Option Word :=
  match op.toNat with
  | 0x01 => some 0x00F000FF
  | 0x02 => some 0xFFFFFFFF
  | 0x03 => some 0xFFFFFFFF
  | 0x04 => some 0xFFFFFFFF
  | 0x05 => some (byMode m 0x00FFFFFF 0x00FFFCFF)
  | 0x06 => some (byMode m 0x00FFFFFF 0x00FFFCFF)
  | 0x07 => some (byMode m 0xFEFFFFFF 0xFEFFFCFF)
  | 0x08 => some (byMode m 0xFEFFFFFF 0xFEFFFCFF)
  | 0x09 => some (byMode m 0xFEFFFFFF 0xFEFFFCFF)
  | 0x0A => some (byMode m 0xFEFFFFFF 0xFEFFFCFF)
  | 0x0B => some (byMode m 0xFEFFFFFF 0xFEFFFCFF)
  | 0x0C => some (byMode m 0xFEFFFFFF 0xFEFFFCFF)
  | 0x0D => some (byMode m 0xFEFFFFFF 0xFEFFFCFF)
  | 0x0E => some (byMode m 0xFEFFFFFF 0xFEFFFCFF)
  | 0x0F => some 0xFFFFFCFF
  | 0x10 => some 0xFFFFFCFF
  | 0x11 => some 0x00FFFCFF
  | 0x12 => some 0xFFFFFCFF
  | 0x13 => some (byMode m 0xFFFFFFFF 0xFFFFFCFF)
  | _ => none

/-- `w0.INST` of format F0 (R81). -/
def instField (w0 : Word) : Inst := w0.extractLsb' 8 2

/-- `w0.V` of format F0 (R81). -/
def valueField (w0 : Word) : Byte := w0.extractLsb' 24 8

/-- `V[0]`, the value of a one-bit setter (R84). -/
def valueBit (w0 : Word) : Bool := w0.getLsbD 24

/-- The descriptor of a CONSTRUCT command: format FC, W1 and W2 (R82, R83). -/
def descriptorOf (w0 w1 w2 : Word) : Descriptor where
  inst := w0.extractLsb' 8 2
  portAddress := w1
  pinMask := w2.extractLsb' 0 8
  clockSource := w0.extractLsb' 10 2
  bitOrder := w0.getLsbD 12
  stopBits := w0.getLsbD 13
  parityMode := w0.getLsbD 14
  baudIndex := w0.extractLsb' 24 8
  syncMode := w0.getLsbD 15
  characterLength := w0.getLsbD 16
  oversample := w0.getLsbD 17
  rxErrorInterrupt := w0.getLsbD 18
  breakInterrupt := w0.getLsbD 19

/-- The command of an opcode with its operands pulled out (R81-R85); `none` for an opcode that is no row's. -/
def readOperands (w0 w1 w2 : Word) : Option Instr :=
  match (opcodeOf w0).toNat with
  | 0x01 => some (.construct (descriptorOf w0 w1 w2))
  | 0x02 => some .constructDefault
  | 0x03 => some .initializeCmd
  | 0x04 => some (.configurePins w1 (w2.extractLsb' 0 8))
  | 0x05 => some (.applyBaud (instField w0) (valueField w0))
  | 0x06 => some (.setClock (instField w0) (valueField w0))
  | 0x07 => some (.setBitOrder (instField w0) (valueBit w0))
  | 0x08 => some (.setStopBits (instField w0) (valueBit w0))
  | 0x09 => some (.setParity (instField w0) (valueBit w0))
  | 0x0A => some (.setCharLen (instField w0) (valueBit w0))
  | 0x0B => some (.setSync (instField w0) (valueBit w0))
  | 0x0C => some (.setOversample (instField w0) (valueBit w0))
  | 0x0D => some (.setRxeie (instField w0) (valueBit w0))
  | 0x0E => some (.setBrkie (instField w0) (valueBit w0))
  | 0x0F => some (.enable (instField w0))
  | 0x10 => some (.disable (instField w0))
  | 0x11 => some (.sendByte (instField w0) (valueField w0))
  | 0x12 => some (.sendString (instField w0) w1)
  | 0x13 => some (.clearFlags (instField w0))
  | _ => none

/-- Whether `ws` is the words of exactly one command, legal or not: the host presents a whole command as one unit (R80). -/
def isOneCommand (ws : List Word) : Bool :=
  match ws with
  | [] => false
  | w0 :: ext => decide (ext.length + 1 = commandLength w0)

/-- The decoder, total on every list of words (R90). A missing extension word is read as 0, which its command never uses. -/
def decode (m : SetterMode) (ws : List Word) : Except DecodeError Instr :=
  match ws with
  | [] => .error .notOneCommand
  | w0 :: ext =>
    if isOneCommand (w0 :: ext) then
      match w0Mask m (opcodeOf w0) with
      | none => .error (.illegalOpcode (opcodeOf w0))
      | some mask =>
        if w0 &&& mask = (opcodeOf w0).setWidth 32 then
          if ext.getD 1 0 >>> 8 = 0 then
            match readOperands w0 (ext.getD 0 0) (ext.getD 1 0) with
            | some i => .ok i
            | none => .error (.illegalOpcode (opcodeOf w0))
          else .error (.reservedMaskBits (opcodeOf w0))
        else .error (.reservedBits (opcodeOf w0))
    else .error .notOneCommand

/-- Format F0 (R81): V, fourteen reserved zeros, INST, OP. -/
def formatF0 (op : Byte) (inst : Inst) (v : Byte) : Word := v ++ 0#14 ++ inst ++ op

/-- A one-bit value as a u8 with `V[7:1] = 0` (R84). -/
def bitValue (v : Bool) : Byte := 0#7 ++ BitVec.ofBool v

/-- Format FC (R82), the word w0 of CONSTRUCT. -/
def formatFC (d : Descriptor) : Word :=
  d.baudIndex ++ 0#4 ++ BitVec.ofBool d.breakInterrupt ++ BitVec.ofBool d.rxErrorInterrupt ++ BitVec.ofBool d.oversample ++
    BitVec.ofBool d.characterLength ++ BitVec.ofBool d.syncMode ++ BitVec.ofBool d.parityMode ++ BitVec.ofBool d.stopBits ++
    BitVec.ofBool d.bitOrder ++ d.clockSource ++ d.inst ++ 0x01#8

/-- The extension word W2 (R83): MASK in bits 7:0, the rest 0. -/
def maskWord (m : Byte) : Word := 0#24 ++ m

/-- The words of a command (R81-R86). -/
def encode : Instr → List Word
  | .construct d => [formatFC d, d.portAddress, maskWord d.pinMask]
  | .constructDefault => [formatF0 0x02 0 0]
  | .initializeCmd => [formatF0 0x03 0 0]
  | .configurePins port mask => [formatF0 0x04 0 0, port, maskWord mask]
  | .applyBaud inst index => [formatF0 0x05 inst index]
  | .setClock inst code => [formatF0 0x06 inst code]
  | .setBitOrder inst v => [formatF0 0x07 inst (bitValue v)]
  | .setStopBits inst v => [formatF0 0x08 inst (bitValue v)]
  | .setParity inst v => [formatF0 0x09 inst (bitValue v)]
  | .setCharLen inst v => [formatF0 0x0A inst (bitValue v)]
  | .setSync inst v => [formatF0 0x0B inst (bitValue v)]
  | .setOversample inst v => [formatF0 0x0C inst (bitValue v)]
  | .setRxeie inst v => [formatF0 0x0D inst (bitValue v)]
  | .setBrkie inst v => [formatF0 0x0E inst (bitValue v)]
  | .enable inst => [formatF0 0x0F inst 0]
  | .disable inst => [formatF0 0x10 inst 0]
  | .sendByte inst byte => [formatF0 0x11 inst byte]
  | .sendString inst ptr => [formatF0 0x12 inst 0, ptr]
  | .clearFlags inst => [formatF0 0x13 inst 0]

/-- The words of the command whose bits are `w`, numbered from bit 0 of the first word; bits from `nbits` on are 0, and the
opcode says how many words there are (R90). -/
def wordsOfBits (nbits w : Nat) : List Word :=
  let v := w % 2 ^ nbits
  let w0 : Word := BitVec.ofNat 32 v
  [w0, BitVec.ofNat 32 (v / 2 ^ 32), BitVec.ofNat 32 (v / 2 ^ 64)].take (commandLength w0)

/-- The command the decoder reads from bits numbered as `opcode_table.json` numbers them, in the table's default mode
`FIXED_PRIMARY` (R86, R95). -/
def decodeTableWord (nbits w : Nat) : Option Instr :=
  match decode .fixedPrimary (wordsOfBits nbits w) with
  | .ok i => some i
  | .error _ => none

end Sys2Proof
end

