-- ==== Sys2Proof/Machine/State.lean ====
section
/-! DEFINITION. The state of UARTSEQ as plain data (`10_state.md`), the reasons a step can stop, and the launch states
(`70_reset_and_hazards.md` R240, R241). -/

namespace Sys2Proof.Machine

/-- A register some of whose bits hold no value (`10_state.md` R46, "⊥"): bit `b` holds a value exactly when bit `b` of
`known` is 1, and then the value is bit `b` of `val`. A bit that holds no value is 0 in `val` (`Reg.wf`, in Canonical). -/
structure Reg (w : Nat) where
  val : BitVec w
  known : BitVec w
  deriving DecidableEq, Repr

/-- Every bit ⊥. -/
def Reg.unwritten (w : Nat) : Reg w := ⟨0, 0⟩

/-- The register file of one UART instance (R30-R38). Bits the spec does not model (IE and IFG other than bit 1, TXBUF 15:8)
hold no value and nothing writes them (assumption 24). -/
structure UartRegs where
  ctlw0 : Reg 16
  brw : Reg 16
  mctlw : Reg 16
  txbuf : Reg 16
  ie : Reg 16
  ifg : Reg 16
  /-- STATW.BUSY (R37), never ⊥. -/
  busy : Bool
  deriving DecidableEq, Repr

/-- The register files of instances 0 to 3 (`INST_W` = 2); those `>= N_INST` do not exist and no step reaches them. -/
structure UartBank where
  u0 : UartRegs
  u1 : UartRegs
  u2 : UartRegs
  u3 : UartRegs
  deriving DecidableEq, Repr

/-- The registers of one GPIO port block (R40). -/
structure GpioPort where
  dir : Reg 8
  sel0 : Reg 8
  sel1 : Reg 8
  deriving DecidableEq, Repr

/-- What an unlisted port holds: every bit ⊥ (R46, under both presets). -/
def GpioPort.unwritten : GpioPort := ⟨.unwritten 8, .unwritten 8, .unwritten 8⟩

/-- An entry of the transmit log (R45); `none` is ⊥. -/
structure TxEntry where
  inst : Inst
  byte : Byte
  txifgBefore : Option Bool
  swrstBefore : Option Bool
  deriving DecidableEq, Repr

/-- An entry of the bus trace (R46), one constructor per kind, each with its target and its value. A written-back register
value may hold ⊥ bits, so `fw`, `gc` and `gs` record a `Reg` (assumption 17). -/
inductive TraceEntry where
  | bw (i : Inst) (r : UReg) (b : Fin 16) (v : Bool)
  | fw (i : Inst) (r : UReg) (mask : Half) (new : Reg 16)
  | rw (i : Inst) (r : UReg) (v : Half)
  | tb (i : Inst) (r : UReg) (b : Fin 16) (v : Bool)
  | tx (i : Inst) (byte : Byte)
  | gc (a : Addr) (r : GReg) (new : Reg 8)
  | gs (a : Addr) (r : GReg) (new : Reg 8)
  | mr (a : Addr) (byte : Byte)
  deriving DecidableEq, Repr

/-- The micro-operations of a fixed list (`00_scope.md` R13, `40_descriptor.md`). `TestBit`, `TxWrite` and `MemRead` occur only
in the SB and SS states and are operations of their own. -/
inductive MicroOp where
  /-- The internal micro-operation of the constructors: no bus access, no guard, no trace entry. -/
  | latchDesc (d : Descriptor)
  | bitWrite (i : Inst) (r : UReg) (b : Fin 16) (v : Bool)
  | fieldWrite (i : Inst) (r : UReg) (mask v : Half)
  | regWrite (i : Inst) (r : UReg) (v : Half)
  | gpioClr (a : Addr) (r : GReg) (m : Byte)
  | gpioSet (a : Addr) (r : GReg) (m : Byte)
  deriving DecidableEq, Repr

/-- The continuation of a byte (R24): DONE or NEXT(p). -/
inductive Cont where
  | done
  | next (p : Addr)
  deriving DecidableEq, Repr

/-- The sequencer state (R24), the program-counter analogue. -/
inductive Seq where
  | idle
  | exec (ops : List MicroOp) (j : Nat)
  | sbCheck (i : Inst) (b : Byte) (k : Cont)
  | sbPoll (i : Inst) (b : Byte) (k : Cont)
  | sbWrite (i : Inst) (b : Byte) (k : Cont)
  | ssFetch (i : Inst) (p : Addr)
  | faulted
  deriving DecidableEq, Repr

/-- The spec's six fault codes (`60_exceptions.md` R212). -/
inductive FaultCode where
  | illegalCmd
  | noDescriptor
  | badInstance
  | configWhileActive
  | setterDuringTx
  | unwrittenRead
  deriving DecidableEq, Repr

/-- Where a fault was raised (R221): at acceptance, at a micro-operation index, or in an SB or SS state. -/
inductive FaultPoint where
  | acceptance
  | microOp (j : Nat)
  | sbCheck
  | sbPoll
  | sbWrite
  deriving DecidableEq, Repr

/-- The instance or register a fault names (R212, R221). -/
inductive FaultSubject where
  | none
  | inst (i : Inst)
  | bit (i : Inst) (r : UReg) (b : Fin 16)
  deriving DecidableEq, Repr

/-- `flt.info` (R221). -/
structure FaultInfo where
  command : List Word
  point : FaultPoint
  code : FaultCode
  subject : FaultSubject
  deriving DecidableEq, Repr

/-- The fault record (R27): six sticky bits and `flt.info`, which holds no value until a fault is raised. -/
structure FaultRecord where
  illegalCmd : Bool
  noDescriptor : Bool
  badInstance : Bool
  configWhileActive : Bool
  setterDuringTx : Bool
  unwrittenRead : Bool
  info : Option FaultInfo
  deriving DecidableEq, Repr

/-- Every bit 0 and no info: the record after block reset (R240). -/
def FaultRecord.clear : FaultRecord := ⟨false, false, false, false, false, false, .none⟩

end Sys2Proof.Machine

namespace Sys2Proof.Machine

/-- The machine's state (`10_state.md`). -/
structure State where
  /-- The implementation parameters (`00_scope.md` R8-R10); no step changes them. -/
  params : Params
  /-- The sequencer state (R24). -/
  seq : Seq
  /-- The words of the command being performed, which `flt.info` records (`60_exceptions.md` R211); empty in IDLE and FAULTED. -/
  cmd : List Word
  /-- The descriptor register: `none` is `desc.valid = 0`, when the fields hold no value (R22). -/
  desc : Option Descriptor
  /-- The fault record (R27). -/
  flt : FaultRecord
  /-- The UART register files (R30). -/
  uart : UartBank
  /-- The GPIO port blocks (R40), sorted by address; an unlisted one holds `GpioPort.unwritten`. -/
  gpio : List (Nat × GpioPort)
  /-- The data memory (R44), sorted by address; an unlisted byte is the launch memory's. -/
  mem : List Host.Cell
  /-- The transmit log (R45), oldest first. -/
  txlog : List TxEntry
  /-- The bus trace (R46), oldest first. -/
  trace : List TraceEntry
  /-- The MODEL's: the lines of the host's program not yet taken (`70_reset_and_hazards.md` R254). -/
  program : List Line
  /-- The MODEL's: who moves at the next step boundaries (`20_memory.md` R76); when empty, the block. -/
  env : List EnvMove
  deriving DecidableEq, Repr

/-- Why the model's machine has no next state. The spec's own six faults are no such reasons: they are taken, as the spec
describes their entry (`60_exceptions.md` R211), and lead to a next state in FAULTED. -/
inductive Fault where
  /-- Raised by a GPIO micro-operation on an address with VALID_PORT false: "stuck" (R219), no step is enabled. Safe: the
  model stops where the spec gives no step. -/
  | stuckPort
  /-- Raised by a MemRead of an address with MEM_ADMIT false: "stuck" (R219). Safe. -/
  | stuckMemory
  /-- Raised by a step in FAULTED when the schedule gives the step to the block: "`FAULTED` has no step of UARTSEQ" (R211).
  Safe. -/
  | halted
  deriving DecidableEq, Repr

/-- Why an input is refused. No command of the opcode table is refused for what it does. -/
inductive Refusal where
  /-- Raised by an arm of exec that has no meaning yet. Safe. No arm is left in this state. -/
  | notModelled (mnemonic : String)
  /-- Raised by a meaning asked to run while `seq` is not IDLE: "no command is accepted" (`30_encoding.md` R91). The step
  function never asks. Safe. -/
  | portNotReady
  /-- Raised by a step whose next program line is not the words of exactly one command: the host "must not present a partial
  command" (R226). Safe. -/
  | notOneCommand
  /-- Raised by a step whose next program line is an event of an instance that does not exist, or a host write to an instance
  or a port that does not exist: no such move (R224, R226, R41). Safe. -/
  | notAMove
  deriving DecidableEq, Repr

/-- The same register file for every instance. -/
def UartBank.all (u : UartRegs) : UartBank := ⟨u, u, u, u⟩

/-- The launch preset `UNWRITTEN` (R46), with `LAUNCH_BUSY` 0 (R9). -/
def UartRegs.unwritten : UartRegs :=
  ⟨.unwritten 16, .unwritten 16, .unwritten 16, .unwritten 16, .unwritten 16, .unwritten 16, false⟩

/-- The launch preset `POR_DEFAULTS` (R46), with `LAUNCH_BUSY` 0: the modelled bits at the eUSCI_A power-on values. -/
def UartRegs.porDefaults : UartRegs where
  ctlw0 := ⟨0x0001, 0xFFFF⟩
  brw := ⟨0x0000, 0xFFFF⟩
  mctlw := ⟨0x0000, 0xFFFF⟩
  txbuf := ⟨0x0000, 0x00FF⟩
  ie := ⟨0x0000, 0x0002⟩
  ifg := ⟨0x0002, 0x0002⟩
  busy := false

/-- The state at first launch (R241): the block's own state after block reset, with the contents `LAUNCH_REGS` and
`LAUNCH_BUSY` (in `uart`, `gpio`) and the listed part of the launch memory. -/
def State.launch (p : Params) (uart : UartBank) (gpio : List (Nat × GpioPort)) (mem : List Host.Cell) : State where
  params := p
  seq := .idle
  cmd := []
  desc := none
  flt := .clear
  uart := uart
  gpio := gpio
  mem := mem
  txlog := []
  trace := []
  program := []
  env := []

/-- The machine right after reset at first launch, every parameter at its default: `LAUNCH_REGS = UNWRITTEN`,
`LAUNCH_BUSY = 0` (R9, R241; assumption 8). -/
def State.reset : State := .launch .default (.all .unwritten) [] []

/-- The launch state of the spec's other named preset, `LAUNCH_REGS = POR_DEFAULTS` (R46). -/
def State.resetPor : State := .launch .default (.all .porDefaults) [] []

end Sys2Proof.Machine
end

