-- ==== Sys2Proof/Machine/Operands.lean ====
section
/-! DEFINITION. What commands' operands name: the setter target (`30_encoding.md` R87), the baud table and its packing
(`10_state.md` R42, `41_sequencer.md` R131), the default descriptor (`40_descriptor.md` R102), the CLEAR_FLAGS mask
(`43_transmit_and_helpers.md` R195), and the predicates VALID_PORT and MEM_ADMIT (`00_scope.md` R9). -/

namespace Sys2Proof

/-- The bits of a UART register that the spec models (R31-R38, RS3, RS4). -/
def UReg.modelled : UReg → Half
  | .ctlw0 => 0xFFFF
  | .brw => 0xFFFF
  | .mctlw => 0xFFFF
  | .txbuf => 0x00FF
  | .ie => 0x0002
  | .ifg => 0x0002

/-- The register's place in an instance's block (R30). -/
def UReg.offset : UReg → Addr
  | .ctlw0 => 0x00
  | .brw => 0x06
  | .mctlw => 0x08
  | .txbuf => 0x0E
  | .ie => 0x1A
  | .ifg => 0x1C

/-- The register a host write names (`60_exceptions.md` R226). -/
def HostReg.toUReg : HostReg → UReg
  | .ctlw0 => .ctlw0
  | .brw => .brw
  | .mctlw => .mctlw
  | .ie => .ie
  | .txbuf => .txbuf

end Sys2Proof

namespace Sys2Proof.Machine

/-- Whether an address lies in a set of ranges. -/
def addrIn (set : List AddrRange) (a : Addr) : Bool :=
  set.any fun r => decide (r.lo ≤ a) && decide (a ≤ r.hi)

/-- `VALID_PORT(a)` (R9): a GPIO port register block exists at `a`. -/
def validPort (p : Params) (a : Addr) : Bool := addrIn p.validPorts a

/-- `MEM_ADMIT(a)` (R9): the data memory byte at `a` may be read by SEND_STRING. -/
def memAdmit (p : Params) (a : Addr) : Bool := addrIn p.memAdmit a

/-- The setter target `t` (R87): PRIMARY under FIXED_PRIMARY, the given instance under OPERAND. -/
def setterTarget (p : Params) (inst : Inst) : Inst :=
  match p.setterMode with
  | .fixedPrimary => Config.primary
  | .operand => inst

/-- The baud ROM `BR[k]`, the divisor's integer part (R42). An index of 5 or more is never presented to it (R133). -/
def baudBR (k : Nat) : Half :=
  match k with
  | 0 => 78
  | 1 => 39
  | 2 => 19
  | 3 => 13
  | 4 => 6
  | _ => 0

/-- The baud ROM `BRF[k]`, the first-stage modulation value (R42). -/
def baudBRF (k : Nat) : BitVec 4 :=
  match k with
  | 0 => 2
  | 1 => 1
  | 2 => 8
  | 3 => 0
  | 4 => 8
  | _ => 0

/-- The baud ROM `BRS[k]`, the second-stage modulation value (R42). -/
def baudBRS (k : Nat) : Byte :=
  match k with
  | 0 => 0x00
  | 1 => 0x00
  | 2 => 0x65
  | 3 => 0x25
  | 4 => 0x20
  | _ => 0x00

/-- `MODVAL(k)` (R131): BRS from bit 8, BRF from bit 4, and the OS16 bit. -/
def modval (k : Nat) : Half :=
  ((baudBRS k).setWidth 16 <<< 8) ||| ((baudBRF k).setWidth 16 <<< 4) ||| 0x0001

/-- `DEFAULT_DESC` (R102). -/
def defaultDesc (p : Params) : Descriptor where
  inst := Config.primary
  portAddress := p.defaultPort
  pinMask := p.defaultPinMask
  clockSource := 2
  bitOrder := false
  stopBits := false
  parityMode := false
  baudIndex := 4
  syncMode := false
  characterLength := false
  oversample := true
  rxErrorInterrupt := false
  breakInterrupt := false

/-- `CF_MASK` (R195): RXEIE, BRKIE, DORM, TXADDR, TXBRK, and the part `CLEAR_FLAGS_MODE_TARGET` names (R196). -/
def clearFlagsMask (p : Params) : Half :=
  match p.clearTarget with
  | .modeField => 0x003E ||| 0x0600
  | .syncBit => 0x003E ||| 0x0100

/-- The platform address of register `(i, R)` (`20_memory.md` R61). No rule of the model uses it; `none` where the
parameter `UART_BASE` names no base. -/
def platformAddress (p : Params) (i : Inst) (r : UReg) : Option Addr :=
  (p.uartBase[i.toNat]?).map (· + r.offset)

end Sys2Proof.Machine
end

