-- ==== Sys2Proof/Machine/Flags.lean ====
section
/-! DEFINITION. Registers with bits that may hold no value, and every flag the block reads (`10_state.md` R46, R47): SWRST, TXIE,
TXIFG, BUSY, `desc.valid` and the fault bits. -/

namespace Sys2Proof.Machine

/-- The value of bit `b`, `none` if it holds no value (R46). -/
def Reg.bit? {w : Nat} (r : Reg w) (b : Nat) : Option Bool :=
  if r.known.getLsbD b then some (r.val.getLsbD b) else none

/-- Write the bits in `mask` from `v`: they become defined, every other bit is kept, a ⊥ bit included (R46). -/
def Reg.write {w : Nat} (r : Reg w) (mask v : BitVec w) : Reg w :=
  ⟨(r.val &&& ~~~mask) ||| (v &&& mask), r.known ||| mask⟩

/-- The register with every bit defined. -/
def Reg.ofBits {w : Nat} (v : BitVec w) : Reg w := ⟨v, BitVec.allOnes w⟩

/-- Register `r` of a register file (R30). -/
def UartRegs.get (u : UartRegs) : UReg → Reg 16
  | .ctlw0 => u.ctlw0
  | .brw => u.brw
  | .mctlw => u.mctlw
  | .txbuf => u.txbuf
  | .ie => u.ie
  | .ifg => u.ifg

/-- Replace register `r`. -/
def UartRegs.put (u : UartRegs) (r : UReg) (x : Reg 16) : UartRegs :=
  match r with
  | .ctlw0 => { u with ctlw0 := x }
  | .brw => { u with brw := x }
  | .mctlw => { u with mctlw := x }
  | .txbuf => { u with txbuf := x }
  | .ie => { u with ie := x }
  | .ifg => { u with ifg := x }

/-- Write the modelled bits of `mask` in register `r` from `v`; every other bit is kept. -/
def UartRegs.write (u : UartRegs) (r : UReg) (mask v : Half) : UartRegs :=
  u.put r ((u.get r).write (mask &&& r.modelled) v)

/-- The register file of instance `i`. -/
def UartBank.get (k : UartBank) (i : Inst) : UartRegs :=
  match i.toNat with
  | 0 => k.u0
  | 1 => k.u1
  | 2 => k.u2
  | _ => k.u3

/-- Replace the register file of instance `i`. -/
def UartBank.put (k : UartBank) (i : Inst) (u : UartRegs) : UartBank :=
  match i.toNat with
  | 0 => { k with u0 := u }
  | 1 => { k with u1 := u }
  | 2 => { k with u2 := u }
  | _ => { k with u3 := u }

/-- Register `r` of a port block (R40). -/
def GpioPort.get (g : GpioPort) : GReg → Reg 8
  | .dir => g.dir
  | .sel0 => g.sel0
  | .sel1 => g.sel1

/-- Replace register `r` of a port block. -/
def GpioPort.put (g : GpioPort) (r : GReg) (x : Reg 8) : GpioPort :=
  match r with
  | .dir => { g with dir := x }
  | .sel0 => { g with sel0 := x }
  | .sel1 => { g with sel1 := x }

/-- `U[i].CTLW0.SWRST` (R31: bit 0), `none` for ⊥. -/
def UartRegs.swrst (u : UartRegs) : Option Bool := u.ctlw0.bit? 0

/-- `U[i].IE.TXIE` (R35: bit 1), `none` for ⊥. -/
def UartRegs.txie (u : UartRegs) : Option Bool := u.ie.bit? 1

/-- `U[i].IFG.TXIFG` (R36: bit 1), `none` for ⊥. -/
def UartRegs.txifg (u : UartRegs) : Option Bool := u.ifg.bit? 1

/-- The register file of instance `i` in a state. -/
def State.u (s : State) (i : Inst) : UartRegs := s.uart.get i

/-- The state with the register file of instance `i` replaced. -/
def State.putU (s : State) (i : Inst) (u : UartRegs) : State := { s with uart := s.uart.put i u }

/-- `desc.valid` (R22). -/
def State.descValid (s : State) : Bool := s.desc.isSome

/-- Instance `i` exists (`60_exceptions.md` R215). -/
def State.hasInst (s : State) (i : Inst) : Bool := decide (i.toNat < s.params.nInst)

/-- The fault bit a code sets (R27, R212). -/
def FaultRecord.bit (f : FaultRecord) : FaultCode → Bool
  | .illegalCmd => f.illegalCmd
  | .noDescriptor => f.noDescriptor
  | .badInstance => f.badInstance
  | .configWhileActive => f.configWhileActive
  | .setterDuringTx => f.setterDuringTx
  | .unwrittenRead => f.unwrittenRead

/-- `flt.code <- 1` and `flt.info <- info` (R211); the other bits are kept, for `flt` is sticky. -/
def FaultRecord.record (f : FaultRecord) (info : FaultInfo) : FaultRecord :=
  match info.code with
  | .illegalCmd => { f with illegalCmd := true, info := some info }
  | .noDescriptor => { f with noDescriptor := true, info := some info }
  | .badInstance => { f with badInstance := true, info := some info }
  | .configWhileActive => { f with configWhileActive := true, info := some info }
  | .setterDuringTx => { f with setterDuringTx := true, info := some info }
  | .unwrittenRead => { f with unwrittenRead := true, info := some info }

/-- The number R212 gives a fault code. -/
def FaultCode.number : FaultCode → Nat
  | .illegalCmd => 1
  | .noDescriptor => 2
  | .badInstance => 3
  | .configWhileActive => 4
  | .setterDuringTx => 5
  | .unwrittenRead => 6

/-- No fault bit is set. -/
def FaultRecord.none? (f : FaultRecord) : Bool :=
  !f.illegalCmd && !f.noDescriptor && !f.badInstance && !f.configWhileActive && !f.setterDuringTx && !f.unwrittenRead

end Sys2Proof.Machine
end

