-- ==== Sys2Proof/Machine/Ops.lean ====
section
/-! DEFINITION. The named operations every command is made of: the sparse lists behind GPIO and data memory, the guards
(`20_memory.md` R70, `60_exceptions.md` R218), raising a fault (R211), the micro-operation primitives (R63-R69), and the
acceptance of a command (`30_encoding.md` R91). -/

namespace Sys2Proof.Machine

/-- What a step answers. -/
abbrev Out := Host.Outcome State Fault Refusal

/-- The value listed at key `k`. -/
def sparseGet {α : Type} (k : Nat) : List (Nat × α) → Option α
  | [] => none
  | (k', v) :: rest => if k = k' then some v else sparseGet k rest

/-- List `v` at key `k`, in order of keys. -/
def sparsePut {α : Type} (k : Nat) (v : α) : List (Nat × α) → List (Nat × α)
  | [] => [(k, v)]
  | (k', v') :: rest =>
    if k < k' then (k, v) :: (k', v') :: rest
    else if k = k' then (k, v) :: rest
    else (k', v') :: sparsePut k v rest

/-- Take key `k` out of the list. -/
def sparseErase {α : Type} (k : Nat) : List (Nat × α) → List (Nat × α)
  | [] => []
  | (k', v') :: rest => if k = k' then sparseErase k rest else (k', v') :: sparseErase k rest

/-- The keys rise strictly. -/
def sparseSorted {α : Type} : List (Nat × α) → Bool
  | [] => true
  | [_] => true
  | (k, _) :: (k', v') :: rest => decide (k < k') && sparseSorted ((k', v') :: rest)

/-- The port block at `a` (R40); an unlisted one holds no values. -/
def State.port (s : State) (a : Addr) : GpioPort := (sparseGet a.toNat s.gpio).getD .unwritten

/-- Replace the port block at `a`, keeping the list canonical: no entry equals what an unlisted address holds. -/
def State.putPort (s : State) (a : Addr) (g : GpioPort) : State :=
  if g = .unwritten then { s with gpio := sparseErase a.toNat s.gpio }
  else { s with gpio := sparsePut a.toNat g s.gpio }

/-- `M[a]` (R44): the byte listed there, or the launch memory's. -/
def State.readByte (s : State) (a : Addr) : Byte := (sparseGet a.toNat s.mem).getD (Config.launchMem a)

/-- A host write of the byte at `a` (`60_exceptions.md` R226); the block never writes data memory (R13). -/
def State.writeByte (s : State) (a : Addr) (b : Byte) : State := { s with mem := sparsePut a.toNat b s.mem }

/-- Append an entry to `trace` (R46). -/
def State.log (s : State) (e : TraceEntry) : State := { s with trace := s.trace ++ [e] }

/-- A fault that a guard raises: its code and what `flt.info` names. -/
structure Raised where
  code : FaultCode
  subject : FaultSubject
  deriving DecidableEq, Repr

/-- RAISING A FAULT, the one exception entry of this machine (R211): the fault bit is set, `flt.info` records the command, the
point, the code and the subject, and `seq <- FAULTED`. Nothing else is written; no command is being performed any more. -/
def State.raise (s : State) (point : FaultPoint) (r : Raised) : State :=
  { s with
    flt := s.flt.record { command := s.cmd, point := point, code := r.code, subject := r.subject }
    seq := .faulted
    cmd := [] }

/-- `seq <- IDLE`: the command is complete (R25). -/
def State.toIdle (s : State) : State := { s with seq := .idle, cmd := [] }

/-- CTLW0, BRW or MCTLW: the registers a configuration write writes (R70). -/
def isConfigReg : UReg → Bool
  | .ctlw0 => true
  | .brw => true
  | .mctlw => true
  | .txbuf => false
  | .ie => false
  | .ifg => false

/-- A `BitWrite` of `CTLW0.SWRST` (R70). -/
def MicroOp.isSwrstWrite : MicroOp → Bool
  | .bitWrite _ r b _ => decide (r = .ctlw0) && decide (b = 0)
  | .latchDesc _ => false
  | .fieldWrite _ _ _ _ => false
  | .regWrite _ _ _ => false
  | .gpioClr _ _ _ => false
  | .gpioSet _ _ _ => false

/-- A configuration write (R70). -/
def MicroOp.isConfigWrite : MicroOp → Bool
  | .bitWrite i r b v => isConfigReg r && !(MicroOp.bitWrite i r b v).isSwrstWrite
  | .fieldWrite _ r _ _ => isConfigReg r
  | .regWrite _ r _ => isConfigReg r
  | .latchDesc _ => false
  | .gpioClr _ _ _ => false
  | .gpioSet _ _ _ => false

/-- A setter write: a configuration write or a `BitWrite` of SWRST (R70). -/
def MicroOp.isSetterWrite (op : MicroOp) : Bool := op.isConfigWrite || op.isSwrstWrite

/-- The BAD_INSTANCE guard of every UART primitive (R215). -/
def instGuard (s : State) (i : Inst) : Option Raised :=
  if s.hasInst i then none else some ⟨.badInstance, .inst i⟩

/-- The CONFIG_WHILE_ACTIVE guard (R216) with the UNWRITTEN_READ it raises on a ⊥ SWRST (R232); under ALLOW it reads
nothing (R70). -/
def activeGuard (s : State) (i : Inst) : Option Raised :=
  match s.params.activePolicy with
  | .allow => none
  | .fault =>
    match (s.u i).swrst with
    | none => some ⟨.unwrittenRead, .bit i .ctlw0 0⟩
    | some true => none
    | some false => some ⟨.configWhileActive, .inst i⟩

/-- The guards of a UART write micro-operation on instance `i`, in the order of R218. -/
def writeGuard (s : State) (i : Inst) (op : MicroOp) : Option Raised :=
  match instGuard s i with
  | some r => some r
  | none =>
    if op.isSetterWrite && (s.u i).busy then some ⟨.setterDuringTx, .inst i⟩
    else if op.isConfigWrite then activeGuard s i
    else none

/-- What a micro-operation does: it is performed, a guard raises a fault, or no step is enabled. -/
inductive Performed where
  | ok (s : State)
  | raised (r : Raised)
  | stuck (f : Fault)
  deriving DecidableEq, Repr

/-- Apply the guards, and perform `act` if none fires: a guard that fires writes nothing (`20_memory.md` section 2). -/
def guarded (s : State) (i : Inst) (op : MicroOp) (act : State) : Performed :=
  match writeGuard s i op with
  | some r => .raised r
  | none => .ok act

/-- The 16-bit mask of one bit. -/
def bitMask (b : Fin 16) : Half := 1#16 <<< b.val

/-- The u16 with one bit at place `b`. -/
def bitAt (b : Fin 16) (v : Bool) : Half := if v then bitMask b else 0

/-- Write `mask` of `U[i].R` from `v`. -/
def State.writeU (s : State) (i : Inst) (r : UReg) (mask v : Half) : State := s.putU i ((s.u i).write r mask v)

/-- `BitWrite` (R63). -/
def bitWriteOp (i : Inst) (r : UReg) (b : Fin 16) (v : Bool) (s : State) : Performed :=
  guarded s i (.bitWrite i r b v) ((s.writeU i r (bitMask b) (bitAt b v)).log (.bw i r b v))

/-- `FieldWrite` (R64); the trace entry holds the stored contents, ⊥ bits included. -/
def fieldWriteOp (i : Inst) (r : UReg) (mask v : Half) (s : State) : Performed :=
  let s' := s.writeU i r mask v
  guarded s i (.fieldWrite i r mask v) (s'.log (.fw i r mask ((s'.u i).get r)))

/-- `RegWrite` (R65). -/
def regWriteOp (i : Inst) (r : UReg) (v : Half) (s : State) : Performed :=
  guarded s i (.regWrite i r v) ((s.writeU i r 0xFFFF v).log (.rw i r v))

/-- A read-modify-write of a GPIO register (R68): the bits of `m` are written from `v`, the others kept. No UART guard. -/
def gpioRmw (a : Addr) (r : GReg) (m v : Byte) (entry : Reg 8 → TraceEntry) (s : State) : Performed :=
  if validPort s.params a then
    let new := ((s.port a).get r).write m v
    .ok ((s.putPort a ((s.port a).put r new)).log (entry new))
  else .stuck .stuckPort

/-- `GpioClr` (R68). -/
def gpioClrOp (a : Addr) (r : GReg) (m : Byte) (s : State) : Performed := gpioRmw a r m 0 (.gc a r) s

/-- `GpioSet` (R68). -/
def gpioSetOp (a : Addr) (r : GReg) (m : Byte) (s : State) : Performed := gpioRmw a r m m (.gs a r) s

/-- `LatchDesc` (`40_descriptor.md`): `desc <- d; desc.valid <- 1`; no guard, no trace entry. -/
def latchDescOp (d : Descriptor) (s : State) : Performed := .ok { s with desc := some d }

/-- Perform one micro-operation of a fixed list (R13). -/
def perform (op : MicroOp) (s : State) : Performed :=
  match op with
  | .latchDesc d => latchDescOp d s
  | .bitWrite i r b v => bitWriteOp i r b v s
  | .fieldWrite i r mask v => fieldWriteOp i r mask v s
  | .regWrite i r v => regWriteOp i r v s
  | .gpioClr a r m => gpioClrOp a r m s
  | .gpioSet a r m => gpioSetOp a r m s

/-- `TestBit` (R66): the bit's value, and the state with its trace entry; BAD_INSTANCE, then UNWRITTEN_READ of a ⊥ bit. -/
def testBitOp (i : Inst) (r : UReg) (b : Fin 16) (s : State) : Except Raised (Bool × State) :=
  match instGuard s i with
  | some g => .error g
  | none =>
    match ((s.u i).get r).bit? b.val with
    | none => .error ⟨.unwrittenRead, .bit i r b⟩
    | some v => .ok (v, s.log (.tb i r b v))

/-- The register file after `TxWrite` (R67): TXBUF[7:0] holds the byte, TXIFG is 0, BUSY is 1. -/
def UartRegs.transmit (u : UartRegs) (byte : Byte) : UartRegs :=
  { (u.write .txbuf 0x00FF (byte.setWidth 16)).write .ifg 0x0002 0 with busy := true }

/-- `TxWrite` (R67): the `txlog` entry records TXIFG and SWRST as they were just before. Only BAD_INSTANCE guards it. -/
def txWriteOp (i : Inst) (byte : Byte) (s : State) : Except Raised State :=
  match instGuard s i with
  | some g => .error g
  | none =>
    let entry : TxEntry := ⟨i, byte, (s.u i).txifg, (s.u i).swrst⟩
    .ok (({ s with txlog := s.txlog ++ [entry] }.putU i ((s.u i).transmit byte)).log (.tx i byte))

/-- Acceptance of a command (`30_encoding.md` R91): in IDLE, `seq <- entry(c)` with no bus access; otherwise no command is
accepted. -/
def State.accept (s : State) (i : Instr) (entry : Seq) : Out :=
  if s.seq = .idle then .next { s with seq := entry, cmd := encode i } else .refused .portNotReady

/-- A fault raised at acceptance by a command whose words are `c` (R91): no micro-operation is performed. -/
def State.rejectCommand (s : State) (c : List Word) (code : FaultCode) : State :=
  { s with cmd := c }.raise .acceptance ⟨code, .none⟩

end Sys2Proof.Machine
end

