-- ==== Sys2Proof/Machine/Agents.lean ====
section
/-! DEFINITION. The other agents: the peripheral's events (`60_exceptions.md` R224, R225), the host's writes (R226) and block
reset (`70_reset_and_hazards.md` R240). None of them appends to `trace` or `txlog`. -/

namespace Sys2Proof.Machine

/-- `TxReady(i)` is enabled for every existing instance, always (R224). -/
def txReadyEnabled (s : State) (i : Inst) : Bool := s.hasInst i

/-- `TxReady(i)`: `U[i].IFG.TXIFG <- 1` (R224). -/
def txReady (i : Inst) (s : State) : State := s.writeU i .ifg 0x0002 0x0002

/-- `TxDone(i)` is enabled when `U[i].BUSY = 1` and `U[i].IFG.TXIFG = 1` (R224). -/
def txDoneEnabled (s : State) (i : Inst) : Bool :=
  s.hasInst i && (s.u i).busy && decide ((s.u i).txifg = some true)

/-- `TxDone(i)`: `U[i].BUSY <- 0` (R224). -/
def txDone (i : Inst) (s : State) : State := s.putU i { s.u i with busy := false }

/-- A host write of the bits of `mask` in a UART register (R226). -/
def hostUart (i : Inst) (r : HostReg) (mask v : Half) (s : State) : State := s.writeU i r.toUReg mask v

/-- A host write of the bits of `mask` in a GPIO register (R226). -/
def hostGpio (a : Addr) (r : GReg) (mask v : Byte) (s : State) : State :=
  s.putPort a ((s.port a).put r (((s.port a).get r).write mask v))

/-- Block reset (R240): `seq`, `desc.valid`, `flt`, `trace` and `txlog` are reset; the UART registers with BUSY, the GPIO
registers and data memory keep what they held. The host's program and the schedule are no state of the block (assumption 25). -/
def blockReset (s : State) : State :=
  { s with seq := .idle, cmd := [], desc := none, flt := .clear, trace := [], txlog := [] }

/-- Whether a line other than a command is a move of its agent at all: the instance or the port exists (R224, R41). -/
def lineIsMove (p : Params) : Line → Bool
  | .command _ => true
  | .txReady i => decide (i.toNat < p.nInst)
  | .txDone i => decide (i.toNat < p.nInst)
  | .hostUart i _ _ _ => decide (i.toNat < p.nInst)
  | .hostGpio a _ _ _ => validPort p a
  | .hostMem _ _ => true

/-- Weak fairness of TxReady (R225) when the schedule says nothing more: under `TXIFG_FAIR = true`, a poll loop that would go
on for ever gets its `TxReady(i)` (assumption 15). -/
def fairTxReady (s : State) : Option Inst :=
  match s.seq with
  | .sbPoll i _ _ => if s.params.txifgFair && s.hasInst i && decide ((s.u i).txifg = some false) then some i else none
  | .idle => none
  | .exec _ _ => none
  | .sbCheck _ _ _ => none
  | .sbWrite _ _ _ => none
  | .ssFetch _ _ => none
  | .faulted => none

end Sys2Proof.Machine
end

