-- ==== Sys2Proof/Machine/Descriptor.lean ====
section
/-! DEFINITION. The descriptor construction commands (`40_descriptor.md`). -/

namespace Sys2Proof.Machine

/-- CONSTRUCT (R100): one `LatchDesc` of the thirteen fields, stored verbatim (R103). -/
def execConstruct (d : Descriptor) (s : State) : Out :=
  s.accept (.construct d) (.exec [.latchDesc d] 0)

/-- CONSTRUCT_DEFAULT (R101): one `LatchDesc` of `DEFAULT_DESC` (R102). -/
def execConstructDefault (s : State) : Out :=
  s.accept .constructDefault (.exec [.latchDesc (defaultDesc s.params)] 0)

end Sys2Proof.Machine
end

