-- ==== Sys2Proof/Machine/Setters.lean ====
section
/-! DEFINITION. The nine field setters (`42_field_setters.md`): each one's micro-operation list, which INITIALIZE shares
(`41_sequencer.md` R121), and each one's command. -/

namespace Sys2Proof.Machine

/-- `ClockOps(t, c)` (R150): SSEL is replaced for a code below 3; no write for any other. -/
def clockOps (t : Inst) (c : Byte) : List MicroOp :=
  if c < 3 then [.fieldWrite t .ctlw0 0x00C0 (c.setWidth 16 <<< 6)] else []

/-- Bit 13 MSB (R151). -/
def bitOrderOps (t : Inst) (v : Bool) : List MicroOp := [.bitWrite t .ctlw0 13 v]

/-- Bit 11 SPB (R152). -/
def stopBitsOps (t : Inst) (v : Bool) : List MicroOp := [.bitWrite t .ctlw0 11 v]

/-- `ParityOps(t, p)` (R153): PEN then PAR when enabling, PEN only when disabling. -/
def parityOps (t : Inst) (p : Bool) : List MicroOp :=
  if p then [.bitWrite t .ctlw0 15 true, .bitWrite t .ctlw0 14 false] else [.bitWrite t .ctlw0 15 false]

/-- Bit 12 C7BIT (R154). -/
def charLenOps (t : Inst) (v : Bool) : List MicroOp := [.bitWrite t .ctlw0 12 v]

/-- Bit 8 SYNC (R155). -/
def syncOps (t : Inst) (v : Bool) : List MicroOp := [.bitWrite t .ctlw0 8 v]

/-- MCTLW bit 0 OS16 (R156). -/
def oversampleOps (t : Inst) (v : Bool) : List MicroOp := [.bitWrite t .mctlw 0 v]

/-- Bit 5 RXEIE (R157). -/
def rxeieOps (t : Inst) (v : Bool) : List MicroOp := [.bitWrite t .ctlw0 5 v]

/-- Bit 4 BRKIE (R158). -/
def brkieOps (t : Inst) (v : Bool) : List MicroOp := [.bitWrite t .ctlw0 4 v]

/-- SET_CLOCK (R150). -/
def execSetClock (inst : Inst) (code : Byte) (s : State) : Out :=
  s.accept (.setClock inst code) (.exec (clockOps (setterTarget s.params inst) code) 0)

/-- SET_BIT_ORDER (R151). -/
def execSetBitOrder (inst : Inst) (v : Bool) (s : State) : Out :=
  s.accept (.setBitOrder inst v) (.exec (bitOrderOps (setterTarget s.params inst) v) 0)

/-- SET_STOP_BITS (R152). -/
def execSetStopBits (inst : Inst) (v : Bool) (s : State) : Out :=
  s.accept (.setStopBits inst v) (.exec (stopBitsOps (setterTarget s.params inst) v) 0)

/-- SET_PARITY (R153). -/
def execSetParity (inst : Inst) (v : Bool) (s : State) : Out :=
  s.accept (.setParity inst v) (.exec (parityOps (setterTarget s.params inst) v) 0)

/-- SET_CHAR_LEN (R154). -/
def execSetCharLen (inst : Inst) (v : Bool) (s : State) : Out :=
  s.accept (.setCharLen inst v) (.exec (charLenOps (setterTarget s.params inst) v) 0)

/-- SET_SYNC (R155). -/
def execSetSync (inst : Inst) (v : Bool) (s : State) : Out :=
  s.accept (.setSync inst v) (.exec (syncOps (setterTarget s.params inst) v) 0)

/-- SET_OVERSAMPLE (R156). -/
def execSetOversample (inst : Inst) (v : Bool) (s : State) : Out :=
  s.accept (.setOversample inst v) (.exec (oversampleOps (setterTarget s.params inst) v) 0)

/-- SET_RXEIE (R157). -/
def execSetRxeie (inst : Inst) (v : Bool) (s : State) : Out :=
  s.accept (.setRxeie inst v) (.exec (rxeieOps (setterTarget s.params inst) v) 0)

/-- SET_BRKIE (R158). -/
def execSetBrkie (inst : Inst) (v : Bool) (s : State) : Out :=
  s.accept (.setBrkie inst v) (.exec (brkieOps (setterTarget s.params inst) v) 0)

end Sys2Proof.Machine
end

