-- ==== Sys2Proof/Machine/Sequencer.lean ====
section
/-! DEFINITION. The initialisation sequencer, pin routing and baud-rate application (`41_sequencer.md`), and the performance of
a fixed micro-operation list (`10_state.md` R25). -/

namespace Sys2Proof.Machine

/-- `PinOps(a, m)` (R126). -/
def pinOps (a : Addr) (m : Byte) : List MicroOp := [.gpioClr a .dir m, .gpioClr a .sel1 m, .gpioSet a .sel0 m]

/-- `BaudOps(t, k)` (R130): divisor, then modulation; no write for an index of 5 or more. -/
def baudOps (t : Inst) (k : Byte) : List MicroOp :=
  if k.toNat < Config.baudN then [.regWrite t .brw (baudBR k.toNat), .regWrite t .mctlw (modval k.toNat)] else []

/-- `InitOps(d)` (R121): DOC's thirteen steps. Steps 1 and 13 act on `desc.instance`, the others on the setter target. -/
def initOps (p : Params) (d : Descriptor) : List MicroOp :=
  let t := setterTarget p d.inst
  [.bitWrite d.inst .ctlw0 0 true]
    ++ pinOps d.portAddress d.pinMask
    ++ clockOps t (d.clockSource.setWidth 8)
    ++ bitOrderOps t d.bitOrder
    ++ stopBitsOps t d.stopBits
    ++ parityOps t d.parityMode
    ++ baudOps t d.baudIndex
    ++ charLenOps t d.characterLength
    ++ syncOps t d.syncMode
    ++ oversampleOps t d.oversample
    ++ rxeieOps t d.rxErrorInterrupt
    ++ brkieOps t d.breakInterrupt
    ++ [.bitWrite d.inst .ctlw0 0 false]

/-- INITIALIZE (R120): NO_DESCRIPTOR at acceptance if there is no descriptor (R214), else `EXEC(InitOps(desc), 0)`. -/
def execInitialize (s : State) : Out :=
  match s.desc with
  | some d => s.accept .initializeCmd (.exec (initOps s.params d) 0)
  | none =>
    if s.seq = .idle then .next (s.rejectCommand (encode .initializeCmd) .noDescriptor) else .refused .portNotReady

/-- CONFIGURE_PINS (R125). -/
def execConfigurePins (port : Addr) (mask : Byte) (s : State) : Out :=
  s.accept (.configurePins port mask) (.exec (pinOps port mask) 0)

/-- APPLY_BAUD (R130). -/
def execApplyBaud (inst : Inst) (index : Byte) (s : State) : Out :=
  s.accept (.applyBaud inst index) (.exec (baudOps (setterTarget s.params inst) index) 0)

/-- One step in `EXEC(ops, j)` (R25): perform `ops[j]` and advance `j`; at the end of the list, `seq <- IDLE`. -/
def execStep (ops : List MicroOp) (j : Nat) (s : State) : Out :=
  match ops[j]? with
  | none => .next s.toIdle
  | some op =>
    match perform op s with
    | .ok s' => .next { s' with seq := .exec ops (j + 1) }
    | .raised r => .next (s.raise (.microOp j) r)
    | .stuck f => .fault f

end Sys2Proof.Machine
end

