-- ==== Sys2Proof/Machine/Transmit.lean ====
section
/-! DEFINITION. Transmission flow control, enable, disable and flag clearing (`43_transmit_and_helpers.md`). -/

namespace Sys2Proof.Machine

/-- SEND_BYTE (R180): `seq <- SB_CHECK(i, b, DONE)`. -/
def execSendByte (inst : Inst) (byte : Byte) (s : State) : Out :=
  s.accept (.sendByte inst byte) (.sbCheck inst byte .done)

/-- SEND_STRING (R185): `seq <- SS_FETCH(i, p)`. -/
def execSendString (inst : Inst) (ptr : Addr) (s : State) : Out :=
  s.accept (.sendString inst ptr) (.ssFetch inst ptr)

/-- ENABLE (R190). -/
def execEnable (inst : Inst) (s : State) : Out :=
  s.accept (.enable inst) (.exec [.bitWrite inst .ctlw0 0 false] 0)

/-- DISABLE (R191). -/
def execDisable (inst : Inst) (s : State) : Out :=
  s.accept (.disable inst) (.exec [.bitWrite inst .ctlw0 0 true] 0)

/-- CLEAR_FLAGS (R195): one `FieldWrite` of zeros under `CF_MASK`. -/
def execClearFlags (inst : Inst) (s : State) : Out :=
  s.accept (.clearFlags inst) (.exec [.fieldWrite (setterTarget s.params inst) .ctlw0 (clearFlagsMask s.params) 0] 0)

/-- SB_CHECK (R180, R181): TXIE is sampled once; 1 goes to SB_WRITE, 0 to SB_POLL. -/
def sbCheckStep (i : Inst) (b : Byte) (k : Cont) (s : State) : Out :=
  match testBitOp i .ie 1 s with
  | .error r => .next (s.raise .sbCheck r)
  | .ok (e, s') => .next { s' with seq := if e then .sbWrite i b k else .sbPoll i b k }

/-- SB_POLL (R182): one read of TXIFG; the state stays until a read returns 1. -/
def sbPollStep (i : Inst) (b : Byte) (k : Cont) (s : State) : Out :=
  match testBitOp i .ifg 1 s with
  | .error r => .next (s.raise .sbPoll r)
  | .ok (f, s') => .next { s' with seq := if f then .sbWrite i b k else .sbPoll i b k }

/-- SB_WRITE (R180, R183): the transmit-buffer write, then IDLE or the next SS_FETCH. -/
def sbWriteStep (i : Inst) (b : Byte) (k : Cont) (s : State) : Out :=
  match txWriteOp i b s with
  | .error r => .next (s.raise .sbWrite r)
  | .ok s' =>
    match k with
    | .done => .next s'.toIdle
    | .next p => .next { s' with seq := .ssFetch i p }

/-- SS_FETCH (R185): read the byte at `p` (`MemRead`, R69); a zero ends the command, any other byte is sent and the pointer
advances modulo 2^32. Stuck where the byte may not be read. -/
def ssFetchStep (i : Inst) (p : Addr) (s : State) : Out :=
  if memAdmit s.params p then
    let c := s.readByte p
    let s' := s.log (.mr p c)
    if c = 0 then .next s'.toIdle else .next { s' with seq := .sbCheck i c (.next (p + 1)) }
  else .fault .stuckMemory

end Sys2Proof.Machine
end

