-- ==== Sys2Proof/Machine/Dispatch.lean ====
section
/-! DEFINITION. The acceptance of a command, one arm per row of the opcode table (`30_encoding.md` R91, R92). -/

namespace Sys2Proof.Machine

/-- What a command does when the block accepts it: `entry(c)` of R92, or the fault it raises at acceptance. -/
def exec (i : Instr) (s : State) : Host.Outcome State Fault Refusal :=
  match i with
  | .construct d => Sys2Proof.Machine.execConstruct d s
  | .constructDefault => Sys2Proof.Machine.execConstructDefault s
  | .initializeCmd => Sys2Proof.Machine.execInitialize s
  | .configurePins port mask => Sys2Proof.Machine.execConfigurePins port mask s
  | .applyBaud inst index => Sys2Proof.Machine.execApplyBaud inst index s
  | .setClock inst code => Sys2Proof.Machine.execSetClock inst code s
  | .setBitOrder inst v => Sys2Proof.Machine.execSetBitOrder inst v s
  | .setStopBits inst v => Sys2Proof.Machine.execSetStopBits inst v s
  | .setParity inst v => Sys2Proof.Machine.execSetParity inst v s
  | .setCharLen inst v => Sys2Proof.Machine.execSetCharLen inst v s
  | .setSync inst v => Sys2Proof.Machine.execSetSync inst v s
  | .setOversample inst v => Sys2Proof.Machine.execSetOversample inst v s
  | .setRxeie inst v => Sys2Proof.Machine.execSetRxeie inst v s
  | .setBrkie inst v => Sys2Proof.Machine.execSetBrkie inst v s
  | .enable inst => Sys2Proof.Machine.execEnable inst s
  | .disable inst => Sys2Proof.Machine.execDisable inst s
  | .sendByte inst byte => Sys2Proof.Machine.execSendByte inst byte s
  | .sendString inst ptr => Sys2Proof.Machine.execSendString inst ptr s
  | .clearFlags inst => Sys2Proof.Machine.execClearFlags inst s

end Sys2Proof.Machine
end

