-- ==== Sys2Proof/Machine/Port.lean ====
section
/-! DEFINITION. The command port and the interleaving of the agents: the program's next line in IDLE (`30_encoding.md` R91,
`70_reset_and_hazards.md` R254), the block's step in each sequencer state (`10_state.md` R24), and who moves next
(`20_memory.md` R76). -/

namespace Sys2Proof.Machine

/-- The presentation of a command in IDLE (R91): a legal one is executed, an illegal one raises ILLEGAL_CMD (R213). Words that
are not one whole command are no move of the host (R226). -/
def present (ws : List Word) (s : State) : Out :=
  match decode s.params.setterMode ws with
  | .ok i => exec i s
  | .error .notOneCommand => .refused .notOneCommand
  | .error (.illegalOpcode _) => .next (s.rejectCommand ws .illegalCmd)
  | .error (.reservedBits _) => .next (s.rejectCommand ws .illegalCmd)
  | .error (.reservedMaskBits _) => .next (s.rejectCommand ws .illegalCmd)

/-- One step in IDLE: the program's next line is taken. An event line that is not enabled waits, and with no line left the
block waits for a command (assumptions 4 and 5). -/
def idleStep (s : State) : Out :=
  match s.program with
  | [] => .next s
  | line :: rest =>
    if lineIsMove s.params line then
      match line with
      | .command ws => present ws { s with program := rest }
      | .txReady i => .next (txReady i { s with program := rest })
      | .txDone i => if txDoneEnabled s i then .next (txDone i { s with program := rest }) else .next s
      | .hostUart i r mask v => .next (hostUart i r mask v { s with program := rest })
      | .hostGpio a r mask v => .next (hostGpio a r mask v { s with program := rest })
      | .hostMem a b => .next (({ s with program := rest }).writeByte a b)
    else .refused .notAMove

/-- The block's step in each sequencer state (R24, R25). FAULTED has none (R211). -/
def blockStep (s : State) : Out :=
  match s.seq with
  | .idle => idleStep s
  | .exec ops j => execStep ops j s
  | .sbCheck i b k => sbCheckStep i b k s
  | .sbPoll i b k => sbPollStep i b k s
  | .sbWrite i b k => sbWriteStep i b k s
  | .ssFetch i p => ssFetchStep i p s
  | .faulted => .fault .halted

/-- The next step of whichever agent the schedule names; when the schedule is empty, the block's, or the environment's where
fairness gives it one. An event that is not enabled does not occur (assumption 5). -/
def turn (s : State) : Out :=
  match s.env with
  | .txReady i :: rest =>
    let s' := { s with env := rest }
    .next (if txReadyEnabled s' i then txReady i s' else s')
  | .txDone i :: rest =>
    let s' := { s with env := rest }
    .next (if txDoneEnabled s' i then txDone i s' else s')
  | .blockReset :: rest => .next (blockReset { s with env := rest })
  | .run :: rest => blockStep { s with env := rest }
  | [] =>
    match fairTxReady s with
    | some i => .next (txReady i s)
    | none => blockStep s

/-- Present the command whose bits are `w` as the program's next line, with the block ready and the next step its own. -/
def placeCommand (s : State) (nbits w : Nat) : State :=
  { s with seq := .idle, env := [], program := .command (wordsOfBits nbits w) :: s.program }

end Sys2Proof.Machine
end

