-- ==== Sys2Proof/Machine/Asm.lean ====
section
/-! DEFINITION. The assembler lines and pseudo-commands of `30_encoding.md` R93 and R94: what each command is written as. The
block never sees them; a line's text is its sequence of tokens. -/

namespace Sys2Proof.Machine

/-- A token of a line: a word of the syntax, or a number (R93 fixes no base). -/
inductive Token where
  | word (w : String)
  | num (n : Nat)
  deriving DecidableEq, Repr

/-- `<clk>` (R93). -/
def clockToken (c : Nat) : Token :=
  match c with
  | 0 => .word "int_low"
  | 1 => .word "aux"
  | 2 => .word "sub_main"
  | n => .num n

/-- A two-valued operand's symbol: the first for 0, the second for 1 (R93). -/
def flagToken (v : Bool) (zero one : String) : Token := .word (if v then one else zero)

/-- The trailing `, <inst>` of a setter, APPLY_BAUD and CLEAR_FLAGS under OPERAND (R93). -/
def trailingInst (m : SetterMode) (inst : Inst) : List Token :=
  match m with
  | .fixedPrimary => []
  | .operand => [.num inst.toNat]

/-- The line a command is written as (R93). -/
def asmLine (m : SetterMode) : Instr → List Token
  | .construct d =>
    [.word "construct", .num d.inst.toNat, .num d.portAddress.toNat, .num d.pinMask.toNat, clockToken d.clockSource.toNat,
      flagToken d.bitOrder "lsb" "msb", flagToken d.stopBits "one" "two", flagToken d.parityMode "none" "even",
      .num d.baudIndex.toNat, flagToken d.syncMode "async" "sync", flagToken d.characterLength "len8" "len7",
      flagToken d.oversample "nos" "os16", flagToken d.rxErrorInterrupt "off" "on", flagToken d.breakInterrupt "off" "on"]
  | .constructDefault => [.word "construct.default"]
  | .initializeCmd => [.word "initialize"]
  | .configurePins port mask => [.word "configure_pins", .num port.toNat, .num mask.toNat]
  | .applyBaud inst index => [.word "apply_baud", .num index.toNat] ++ trailingInst m inst
  | .setClock inst code => [.word "set_clock", clockToken code.toNat] ++ trailingInst m inst
  | .setBitOrder inst v => [.word "set_bit_order", flagToken v "lsb" "msb"] ++ trailingInst m inst
  | .setStopBits inst v => [.word "set_stop_bits", flagToken v "one" "two"] ++ trailingInst m inst
  | .setParity inst v => [.word "set_parity", flagToken v "none" "even"] ++ trailingInst m inst
  | .setCharLen inst v => [.word "set_char_len", flagToken v "len8" "len7"] ++ trailingInst m inst
  | .setSync inst v => [.word "set_sync", flagToken v "async" "sync"] ++ trailingInst m inst
  | .setOversample inst v => [.word "set_oversample", flagToken v "nos" "os16"] ++ trailingInst m inst
  | .setRxeie inst v => [.word "set_rxeie", flagToken v "off" "on"] ++ trailingInst m inst
  | .setBrkie inst v => [.word "set_brkie", flagToken v "off" "on"] ++ trailingInst m inst
  | .enable inst => [.word "enable", .num inst.toNat]
  | .disable inst => [.word "disable", .num inst.toNat]
  | .sendByte inst byte => [.word "send_byte", .num inst.toNat, .num byte.toNat]
  | .sendString inst ptr => [.word "send_string", .num inst.toNat, .num ptr.toNat]
  | .clearFlags inst => [.word "clear_flags"] ++ trailingInst m inst

/-- The pseudo-command `init.default` (R94). -/
def initDefault : List Instr := [.constructDefault, .initializeCmd]

/-- The pseudo-command `reconfigure <inst>, <setter line>` (R94, `42_field_setters.md` R160): under FIXED_PRIMARY legal use
requires `<inst>` to be PRIMARY.
DESIGN CHOICE (assumption 31): the spec does not list which lines are a setter line. The model takes the nine field setters and
the two other commands with a setter target, APPLY_BAUD and CLEAR_FLAGS; and under OPERAND it does not ask that the line's own
instance be `<inst>`. -/
def reconfigure (m : SetterMode) (inst : Inst) (setter : Instr) : Option (List Instr) :=
  if setter.setterInst.isSome && (decide (m = .operand) || decide (inst = Config.primary)) then
    some [.disable inst, setter, .enable inst]
  else none

/-- The program lines of a list of commands: each presented whole, as its words (R80). -/
def commandLines (is : List Instr) : List Line := is.map fun i => .command (encode i)

end Sys2Proof.Machine
end

