-- ==== Sys2Proof/Machine/Canonical.lean ====
section
/-! DEFINITION. The canonical form of the plain data in `State`: equal contents are equal data. -/

namespace Sys2Proof.Machine

/-- A bit that holds no value is 0 in `val` (`10_state.md` R46). -/
def Reg.wf {w : Nat} (r : Reg w) : Bool := decide (r.val &&& ~~~r.known = 0)

/-- Every register is canonical, and the bits the spec does not model hold no value (R35, R36, R38). -/
def UartRegs.wf (u : UartRegs) : Bool :=
  u.ctlw0.wf && u.brw.wf && u.mctlw.wf && u.txbuf.wf && u.ie.wf && u.ifg.wf &&
    decide (u.txbuf.known &&& ~~~UReg.txbuf.modelled = 0) && decide (u.ie.known &&& ~~~UReg.ie.modelled = 0) &&
    decide (u.ifg.known &&& ~~~UReg.ifg.modelled = 0)

/-- Every register of a port block is canonical. -/
def GpioPort.wf (g : GpioPort) : Bool := g.dir.wf && g.sel0.wf && g.sel1.wf

/-- The register files of all instances are canonical. -/
def UartBank.wf (k : UartBank) : Bool := k.u0.wf && k.u1.wf && k.u2.wf && k.u3.wf

/-- The canonical form of data memory: addresses strictly rising, each a u32. An unlisted address has no listed byte at all
(it reads as the launch memory, a free value), so no entry can equal what an unlisted address lists. -/
def Memory.wf (m : List Host.Cell) : Bool := sparseSorted m && m.all fun c => decide (c.1 < 2 ^ 32)

/-- The canonical form of the port blocks: addresses strictly rising, each a u32, no entry equal to what an unlisted port
holds, every register canonical. -/
def Gpio.wf (g : List (Nat × GpioPort)) : Bool :=
  sparseSorted g && g.all fun c => decide (c.1 < 2 ^ 32) && decide (c.2 ≠ GpioPort.unwritten) && c.2.wf

end Sys2Proof.Machine
end

