-- ==== Sys2Proof/Safety.lean ====
section
/-! DEFINITION. What claims are stated in: when a run has ended (`70_reset_and_hazards.md` R254), when a command's guards pass
(`20_memory.md` R70), and the invariants of the machine. -/

namespace Sys2Proof.Safety

open Sys2Proof.Machine

/-- The four conditions of R254 hold in a state: every command, environment and host line of the program has been taken,
`seq = IDLE`, no fault bit is set. Later states of the run can meet them too: the END is the first that does (`EndsAt`). -/
def Ended (s : State) : Prop := s.program = [] ∧ s.seq = .idle ∧ s.flt.none? = true

/-- The run from `s` ends after `n` steps, in `t` (R254): `t` is the FIRST state of the run in which the four conditions hold. -/
def EndsAt (s : State) (n : Nat) (t : State) : Prop :=
  Sys2Proof.core.run n s = .next t ∧ Ended t ∧ ∀ m v, m < n → Sys2Proof.core.run m s = .next v → ¬ Ended v

/-- The run from `s` ends (R254). -/
def Ends (s : State) : Prop := ∃ n t, EndsAt s n t

/-- No instance that exists is transmitting. -/
def NothingInFlight (s : State) : Prop := ∀ i : Inst, s.hasInst i = true → (s.u i).busy = false

/-- The run from `s` ends drained after `n` steps, in `t` (R254): it ends there, and in that very state no instance is
transmitting. A TxDone after the end does not make it so. -/
def EndsDrainedAt (s : State) (n : Nat) (t : State) : Prop := EndsAt s n t ∧ NothingInFlight t

/-- UARTSEQ is stuck (`60_exceptions.md` R219): it is not in IDLE and has no enabled step, though it has raised no fault. -/
def Stuck (s : State) : Prop := s.seq ≠ .idle ∧ s.seq ≠ .faulted ∧ ∃ f, blockStep s = .fault f

/-- No schedule interferes: the block itself takes each of the following steps. -/
def Undisturbed (s : State) : Prop := s.env = []

/-- A `BitWrite` of SWRST on instance `i` passes its guards (R215, R217). -/
def SetterOk (s : State) (i : Inst) : Prop := s.hasInst i = true ∧ (s.u i).busy = false

/-- A configuration write to instance `i` passes its guards (R215 to R217, R232). -/
def ConfigOk (s : State) (i : Inst) : Prop :=
  SetterOk s i ∧ (s.params.activePolicy = .allow ∨ (s.u i).swrst = some true)

/-- Every register, port and memory list is in its canonical form. -/
def Canonical (s : State) : Prop := s.uart.wf = true ∧ Gpio.wf s.gpio = true ∧ Memory.wf s.mem = true

/-- The fault record agrees with the sequencer state (`10_state.md` R27, `60_exceptions.md` R211): in FAULTED exactly the bit of
the recorded code is set, and outside it the record is clear. -/
def FaultRecordOk (s : State) : Prop :=
  (s.seq = .faulted ∧ ∃ info, s.flt = FaultRecord.clear.record info) ∨ (s.seq ≠ .faulted ∧ s.flt = .clear)

/-- A micro-operation as the lists of the spec hold them: a UART write of CTLW0, BRW or MCTLW (`20_memory.md` R70), a GPIO write
or a `LatchDesc`; never a write of TXBUF, IE or IFG. -/
def listOp : MicroOp → Bool
  | .latchDesc _ => true
  | .bitWrite _ r _ _ => isConfigReg r
  | .fieldWrite _ r _ _ => isConfigReg r
  | .regWrite _ r _ => isConfigReg r
  | .gpioClr _ _ _ => true
  | .gpioSet _ _ _ => true

/-- The index of a fixed list never passes its end (R24), a list holds no other micro-operation than the spec's lists do, and no
command is held in IDLE or FAULTED. -/
def SequencerOk (s : State) : Prop :=
  match s.seq with
  | .idle => s.cmd = []
  | .exec ops j => j ≤ ops.length ∧ ∀ op ∈ ops, listOp op = true
  | .sbCheck _ _ _ => True
  | .sbPoll _ _ _ => True
  | .sbWrite _ _ _ => True
  | .ssFetch _ _ => True
  | .faulted => s.cmd = []

/-- THE INVARIANT of the machine. -/
def MachineInv (s : State) : Prop := Canonical s ∧ FaultRecordOk s ∧ SequencerOk s

/-- A byte about to be written in polling mode finds the transmit buffer empty (`43_transmit_and_helpers.md` R183). -/
def PollOk (s : State) : Prop :=
  match s.seq with
  | .idle => True
  | .exec _ _ => True
  | .sbCheck _ _ _ => True
  | .sbPoll _ _ _ => True
  | .sbWrite i _ _ => (s.u i).txie = some false → (s.u i).txifg = some true
  | .ssFetch _ _ => True
  | .faulted => True

/-- No byte was written over one not yet taken (`70_reset_and_hazards.md` R250). -/
def NoOverrun (s : State) : Prop := ∀ e ∈ s.txlog, e.txifgBefore = some true

/-- The characters transmitted so far, in order: the instance and byte of each `txlog` entry (`10_state.md` R45). -/
def sent (s : State) : List (Inst × Byte) := s.txlog.map fun e => (e.inst, e.byte)

/-- The data memory holds `bytes` from `p` on (the address wraps), and each may be read. -/
def HoldsString (s : State) (p : Addr) : List Byte → Prop
  | [] => True
  | c :: rest => memAdmit s.params p = true ∧ s.readByte p = c ∧ HoldsString s (p + 1) rest

/-- The trace entries of a SEND_STRING of `bytes` from `p` in interrupt mode (`43_transmit_and_helpers.md` R185, R180): of each
character the `MemRead`, the `TestBit` of TXIE and the `TxWrite`, and at the end the `MemRead` of the terminator. -/
def stringTrace (i : Inst) (p : Addr) : List Byte → List TraceEntry
  | [] => [.mr p 0]
  | c :: rest => .mr p c :: .tb i .ie 1 true :: .tx i c :: stringTrace i (p + 1) rest

/-- The `txlog` entries of a string sent in interrupt mode with no event meanwhile (`20_memory.md` R67): `f` and `w` are TXIFG
and SWRST before the first character, and each write leaves TXIFG 0. -/
def stringLog (i : Inst) (f w : Option Bool) : List Byte → List TxEntry
  | [] => []
  | c :: rest => ⟨i, c, f, w⟩ :: stringLog i (some false) w rest

/-- Bit `b` of `U[i].R` (R46): a value, or `none` for ⊥. -/
def uartBit (s : State) (i : Inst) (r : UReg) (b : Nat) : Option Bool := ((s.u i).get r).bit? b

/-- Bit `b` of `G[a].R` (R46): a value, or `none` for ⊥. -/
def gpioBit (s : State) (a : Addr) (r : GReg) (b : Nat) : Option Bool := ((s.port a).get r).bit? b

/-- Which words `w0`, `w2` of a whole command are legal, said by fields (`30_encoding.md` R81 to R83, R86 to R88): the opcode is
a row's, and every field its row requires to be 0 is 0. -/
def legalByFields (m : SetterMode) (w0 w2 : Word) : Prop :=
  let rsv := w0.extractLsb' 10 14 = 0
  let v := w0.extractLsb' 24 8 = 0
  let inst := w0.extractLsb' 8 2 = 0
  let setterInst := m = .operand ∨ inst
  let maskOk := w2.extractLsb' 8 24 = 0
  match (w0.extractLsb' 0 8).toNat with
  | 0x01 => w0.extractLsb' 20 4 = 0 ∧ maskOk
  | 0x02 => rsv ∧ v ∧ inst
  | 0x03 => rsv ∧ v ∧ inst
  | 0x04 => rsv ∧ v ∧ inst ∧ maskOk
  | 0x05 => rsv ∧ setterInst
  | 0x06 => rsv ∧ setterInst
  | 0x07 => rsv ∧ w0.extractLsb' 25 7 = 0 ∧ setterInst
  | 0x08 => rsv ∧ w0.extractLsb' 25 7 = 0 ∧ setterInst
  | 0x09 => rsv ∧ w0.extractLsb' 25 7 = 0 ∧ setterInst
  | 0x0A => rsv ∧ w0.extractLsb' 25 7 = 0 ∧ setterInst
  | 0x0B => rsv ∧ w0.extractLsb' 25 7 = 0 ∧ setterInst
  | 0x0C => rsv ∧ w0.extractLsb' 25 7 = 0 ∧ setterInst
  | 0x0D => rsv ∧ w0.extractLsb' 25 7 = 0 ∧ setterInst
  | 0x0E => rsv ∧ w0.extractLsb' 25 7 = 0 ∧ setterInst
  | 0x0F => rsv ∧ v
  | 0x10 => rsv ∧ v
  | 0x11 => rsv
  | 0x12 => rsv ∧ v
  | 0x13 => rsv ∧ v ∧ setterInst
  | _ => False

/-- The instance a UART micro-operation addresses. -/
def uartTarget : MicroOp → Option Inst
  | .latchDesc _ => none
  | .bitWrite i _ _ _ => some i
  | .fieldWrite i _ _ _ => some i
  | .regWrite i _ _ => some i
  | .gpioClr _ _ _ => none
  | .gpioSet _ _ _ => none

/-- The micro-operation writes 1 to `CTLW0.PAR` (bit 14), which is odd parity (`10_state.md` R31). -/
def writesOddParity : MicroOp → Bool
  | .bitWrite _ r b v => decide (r = .ctlw0) && decide (b = 14) && v
  | .fieldWrite _ r mask v => decide (r = .ctlw0) && mask.getLsbD 14 && v.getLsbD 14
  | .regWrite _ r v => decide (r = .ctlw0) && v.getLsbD 14
  | .latchDesc _ => false
  | .gpioClr _ _ _ => false
  | .gpioSet _ _ _ => false

/-- No micro-operation of the list being performed writes odd parity (`42_field_setters.md` R153). -/
def NoOddParityPending (s : State) : Prop := ∀ ops j, s.seq = .exec ops j → ∀ op ∈ ops, writesOddParity op = false

/-- Between step 1 and step 13 of INITIALIZE the reset bit of the descriptor's instance reads 1 (`41_sequencer.md` R123). -/
def InitHoldsReset (s : State) : Prop :=
  ∀ d j, s.seq = .exec (initOps s.params d) j → 1 ≤ j → j < (initOps s.params d).length →
    uartBit s d.inst .ctlw0 0 = some true

/-- The state a fault leaves (`60_exceptions.md` R211): the bit of the code set, `flt.info` recorded, `seq` FAULTED, and
nothing else changed. -/
def faultedState (s : State) (point : FaultPoint) (code : FaultCode) (subject : FaultSubject) : State :=
  { s with
    seq := .faulted
    cmd := []
    flt := s.flt.record { command := s.cmd, point := point, code := code, subject := subject } }

end Sys2Proof.Safety
end

