-- ==== Sys2Proof/Certificates/Slice0/Obligations.lean ====
section
/-! DEFINITION. The statements about UARTSEQ for the provers, one `def Obligations.<Name> : Prop` each. A statement that runs a
command to its end starts from IDLE with an empty schedule (no environment event falls inside the run) and counts the block's
own steps; statements about one step or about invariants hold under every schedule. -/

open Sys2Proof Sys2Proof.Machine Sys2Proof.Safety

/-! ## Reset and launch -/

/-- `70_reset_and_hazards.md` R241: what the machine holds after block reset at first launch under the default parameters. The
launch memory is a free value (assumption 11); no bit of a UART or GPIO register holds a value. -/
def Obligations.ResetLeavesTheLaunchState : Prop :=
  State.reset.seq = .idle ∧ State.reset.descValid = false ∧ (∀ c, State.reset.flt.bit c = false) ∧
    State.reset.flt.info = none ∧ State.reset.trace = [] ∧ State.reset.txlog = [] ∧
    (∀ i r b, uartBit State.reset i r b = none) ∧ (∀ i, (State.reset.u i).busy = false) ∧
    (∀ a r b, gpioBit State.reset a r b = none) ∧ (∀ a, State.reset.readByte a = Config.launchMem a)

/-- `10_state.md` R46, preset POR_DEFAULTS: every modelled bit of each instance holds its power-on value; the ports hold none. -/
def Obligations.PorLaunchHoldsThePowerOnValues : Prop :=
  ∀ i,
    (∀ b, b < 16 → uartBit State.resetPor i .ctlw0 b = some (decide (b = 0)) ∧
      uartBit State.resetPor i .brw b = some false ∧ uartBit State.resetPor i .mctlw b = some false) ∧
    (∀ b, b < 8 → uartBit State.resetPor i .txbuf b = some false) ∧
    uartBit State.resetPor i .ie 1 = some false ∧ uartBit State.resetPor i .ifg 1 = some true ∧
    (State.resetPor.u i).busy = false ∧ ∀ a r b, gpioBit State.resetPor a r b = none

/-- `70_reset_and_hazards.md` R240: block reset resets the block's own state, touches neither the UART registers with BUSY, nor
the GPIO registers, nor data memory, and is the only way out of FAULTED; the contents at first launch are the launch's. -/
def Obligations.BlockResetResetsOnlyTheBlock : Prop :=
  (∀ s rest, s.env = .blockReset :: rest → ∃ t, step s = .next t ∧ t.seq = .idle ∧ t.descValid = false ∧
    (∀ c, t.flt.bit c = false) ∧ t.flt.info = none ∧ t.trace = [] ∧ t.txlog = [] ∧ t.uart = s.uart ∧ t.gpio = s.gpio ∧
    t.mem = s.mem ∧ t.params = s.params) ∧
  (∀ s t, step s = .next t → s.seq = .faulted → t.seq ≠ .faulted → s.env.head? = some .blockReset) ∧
  (∀ p k g m, (State.launch p k g m).uart = k ∧ (State.launch p k g m).gpio = g ∧ (State.launch p k g m).mem = m)

/-! ## Encoding, decode and acceptance -/

/-- `30_encoding.md` R81 to R87: no bit of an encoding is dropped, in either setter mode. -/
def Obligations.DecodeOfEncodeIsTheCommand : Prop :=
  ∀ (m : SetterMode) (i : Instr), i.wf m = true → decode m (encode i) = .ok i

/-- `30_encoding.md` R86 to R90: legal words are the encoding of the command they decode to, so each word has one meaning. -/
def Obligations.EncodeOfDecodeIsTheWords : Prop :=
  ∀ (m : SetterMode) (ws : List Word) (i : Instr), decode m ws = .ok i → encode i = ws ∧ i.wf m = true

/-- `95_test_vectors.md` section 2.1, and L1.1 (`41_sequencer.md` R130) for the APPLY_BAUD word: words of each family decode to the
command they stand for. -/
def Obligations.SampleWordsDecode : Prop :=
  decode .fixedPrimary [0x04020801, 0x40004C00, 0x0000000C] =
      .ok (.construct ⟨0, 0x40004C00, 0x0C, 2, false, false, false, 4, false, false, true, false, false⟩) ∧
    decode .fixedPrimary [0x00000004, 0x40004C00, 0x0000000C] = .ok (.configurePins 0x40004C00 0x0C) ∧
    decode .fixedPrimary [0x02000005] = .ok (.applyBaud 0 2) ∧
    decode .fixedPrimary [0x01000007] = .ok (.setBitOrder 0 true) ∧
    decode .operand [0x00000107] = .ok (.setBitOrder 1 false) ∧
    decode .fixedPrimary [0xFF000211] = .ok (.sendByte 2 0xFF) ∧
    decode .fixedPrimary [0x00000112, 0x00002000] = .ok (.sendString 1 0x2000) ∧
    decode .fixedPrimary [0x00000113] = .error (.reservedBits 0x13)

/-- `30_encoding.md` R81 to R88: a whole command decodes exactly when its opcode is a row's and every field that row requires to
be 0 is 0. -/
def Obligations.DecodesExactlyWhenFieldsAreLegal : Prop :=
  ∀ (m : SetterMode) (w0 : Word) (ext : List Word), isOneCommand (w0 :: ext) = true →
    ((∃ i, decode m (w0 :: ext) = .ok i) ↔ legalByFields m w0 (ext.getD 1 0))

/-- `60_exceptions.md` R213: an illegal command presented in IDLE raises ILLEGAL_CMD in its acceptance step, whether or not there
is a descriptor, and performs no micro-operation: nothing but `seq`, `flt` and the program changes. -/
def Obligations.IllegalCommandFaultsAtAcceptance : Prop :=
  ∀ s w0 ext rest, s.seq = .idle → s.env = [] → s.program = .command (w0 :: ext) :: rest →
    isOneCommand (w0 :: ext) = true → ¬ legalByFields s.params.setterMode w0 (ext.getD 1 0) →
    step s = .next { s with
      program := rest
      seq := .faulted
      cmd := []
      flt := { s.flt with illegalCmd := true, info := some ⟨w0 :: ext, .acceptance, .illegalCmd, .none⟩ } }

/-- A STEP RUNS THE DECODED COMMAND (`30_encoding.md` R91): in IDLE, when the block moves and the program's next line is the
words of a legal command, the step takes the line and is the command's acceptance. -/
def Obligations.StepRunsTheDecodedCommand : Prop :=
  ∀ s ws rest i, s.seq = .idle → s.program = .command ws :: rest → decode s.params.setterMode ws = .ok i →
    (s.env = [] → step s = exec i { s with program := rest }) ∧
    (∀ es, s.env = .run :: es → step s = exec i { s with program := rest, env := es })

/-- `10_state.md` R26: a command is accepted only in IDLE; in any other state no line of the program is taken. That a program is
a list of lines, and that block reset keeps them, is the model's (assumptions 3 and 25). -/
def Obligations.CommandsAreAcceptedOnlyInIdle : Prop :=
  (∀ i s, s.seq ≠ .idle → ∀ t, exec i s ≠ .next t) ∧
  (∀ s t, step s = .next t → s.seq ≠ .idle → t.program = s.program)

/-- FRAME of every acceptance (`30_encoding.md` R91: "This step performs no bus access"), for all 19 commands: nothing changes but
`seq` and the command noted, and, for INITIALIZE with no descriptor, the fault record. -/
def Obligations.AcceptanceChangesOnlyTheSequencer : Prop :=
  ∀ i s t, exec i s = .next t →
    t = { s with seq := t.seq, cmd := t.cmd, flt := t.flt } ∧
      (t.flt = s.flt ∨ (i = .initializeCmd ∧ s.desc = none ∧ t.seq = .faulted))

/-! ## Descriptor construction -/

/-- `40_descriptor.md` R100, R101: the constructors store the descriptor and change nothing else; they may run whatever BUSY and
SWRST are. CONSTRUCT stores its thirteen fields verbatim; CONSTRUCT_DEFAULT stores the preset of R102. -/
def Obligations.ConstructorsStoreTheDescriptor : Prop :=
  ∀ s d, s.seq = .idle → s.env = [] →
    (∃ t, exec (.construct d) s = .next t ∧ t.seq = .exec [.latchDesc d] 0 ∧
      Sys2Proof.core.run 2 t = .next { s with desc := some d, cmd := [] }) ∧
    (∃ t, exec .constructDefault s = .next t ∧
      Sys2Proof.core.run 2 t = .next { s with
        desc := some ⟨0, s.params.defaultPort, s.params.defaultPinMask, 2, false, false, false, 4, false, false, true,
          false, false⟩
        cmd := [] })

/-- `10_state.md` R23: only CONSTRUCT and CONSTRUCT_DEFAULT write `desc`: a step that changes it is block reset or performs a
`LatchDesc`, which no other command's list holds. -/
def Obligations.OnlyConstructorsWriteTheDescriptor : Prop :=
  (∀ s t, step s = .next t → t.desc ≠ s.desc →
    s.env.head? = some .blockReset ∨
      ∃ ops j d, s.seq = .exec ops j ∧ ops[j]? = some (.latchDesc d) ∧ t.desc = some d) ∧
  (∀ i s t ops j d, exec i s = .next t → t.seq = .exec ops j → MicroOp.latchDesc d ∈ ops →
    i = .construct d ∨ i = .constructDefault)

/-! ## Pin routing and baud rate -/

/-- `41_sequencer.md` R126: the three writes of CONFIGURE_PINS in DOC's order, and their end state for every bit of every port:
DIR and SEL1 bits of the mask 0, SEL0 bits of the mask 1, every other bit of every register unchanged. -/
def Obligations.ConfigurePinsRoutesTheMaskedPins : Prop :=
  ∀ s a m, s.seq = .idle → s.env = [] → validPort s.params a = true →
    ∃ t u, exec (.configurePins a m) s = .next t ∧
      t.seq = .exec [.gpioClr a .dir m, .gpioClr a .sel1 m, .gpioSet a .sel0 m] 0 ∧
      Sys2Proof.core.run 4 t = .next u ∧ u = { s with gpio := u.gpio, trace := u.trace, cmd := [] } ∧
      (∀ k, gpioBit u a .dir k = if m.getLsbD k then some false else gpioBit s a .dir k) ∧
      (∀ k, gpioBit u a .sel1 k = if m.getLsbD k then some false else gpioBit s a .sel1 k) ∧
      (∀ k, gpioBit u a .sel0 k = if m.getLsbD k then some true else gpioBit s a .sel0 k) ∧
      (∀ b, b ≠ a → u.port b = s.port b) ∧
      u.trace = s.trace ++
        [.gc a .dir ((u.port a).dir), .gc a .sel1 ((u.port a).sel1), .gs a .sel0 ((u.port a).sel0)]

/-- `10_state.md` R42, `41_sequencer.md` R131: the baud table's divisors and packed modulation words, as numbers. -/
def Obligations.BaudTableHoldsTheFiveEntries : Prop :=
  (List.range 5).map (fun k => (baudBR k, modval k)) =
    [(0x004E, 0x0021), (0x0027, 0x0011), (0x0013, 0x6581), (0x000D, 0x2501), (0x0006, 0x2081)] ∧
  ∀ k, k < 5 → modval k = ((baudBRS k).setWidth 16 <<< 8) + ((baudBRF k).setWidth 16 <<< 4) + 1

/-- `41_sequencer.md` R130: APPLY_BAUD of an index below 5 writes the divisor and then the whole modulation register of the target,
OS16 forced to 1 and bits 3:1 to 0 (R132), and nothing else. -/
def Obligations.ApplyBaudWritesTheTableEntry : Prop :=
  ∀ s inst (k : Byte), s.seq = .idle → s.env = [] → k.toNat < 5 → ConfigOk s (setterTarget s.params inst) →
    ∃ t u, exec (.applyBaud inst k) s = .next t ∧ Sys2Proof.core.run 3 t = .next u ∧
      u = { s with uart := u.uart, trace := u.trace, cmd := [] } ∧
      u.trace = s.trace ++
        [.rw (setterTarget s.params inst) .brw (baudBR k.toNat), .rw (setterTarget s.params inst) .mctlw (modval k.toNat)] ∧
      (∀ j r b, b < 16 → uartBit u j r b =
        if j = setterTarget s.params inst ∧ r = .brw then some ((baudBR k.toNat).getLsbD b)
        else if j = setterTarget s.params inst ∧ r = .mctlw then
          some (if b = 0 then true else if b < 4 then false else if b < 8 then (baudBRF k.toNat).getLsbD (b - 4)
            else (baudBRS k.toNat).getLsbD (b - 8))
        else uartBit s j r b) ∧
      ∀ j, (u.u j).busy = (s.u j).busy

/-- `41_sequencer.md` R130 and `42_field_setters.md` R150: an index of 5 or more, and a clock code of 3 or more, are silent no-ops:
no write, no trace entry and no fault, whatever BUSY and SWRST are. -/
def Obligations.OutOfRangeOperandsAreSilentNoOps : Prop :=
  ∀ s inst (v : Byte), s.seq = .idle → s.env = [] →
    (5 ≤ v.toNat → ∃ t, exec (.applyBaud inst v) s = .next t ∧ t.seq = .exec [] 0 ∧
      Sys2Proof.core.run 1 t = .next { s with cmd := [] }) ∧
    (3 ≤ v.toNat → ∃ t, exec (.setClock inst v) s = .next t ∧ t.seq = .exec [] 0 ∧
      Sys2Proof.core.run 1 t = .next { s with cmd := [] })

/-! ## Field setters, enable, disable, clear flags -/

/-- `42_field_setters.md` R150: SET_CLOCK of a code below 3 replaces SSEL (bits 7:6) of the target's CTLW0, and changes nothing
else. -/
def Obligations.SetClockReplacesTheClockField : Prop :=
  ∀ s inst (c : Byte), s.seq = .idle → s.env = [] → c.toNat < 3 → ConfigOk s (setterTarget s.params inst) →
    ∃ t u, exec (.setClock inst c) s = .next t ∧ Sys2Proof.core.run 2 t = .next u ∧
      u = { s with uart := u.uart, trace := u.trace, cmd := [] } ∧
      u.trace = s.trace ++
        [.fw (setterTarget s.params inst) .ctlw0 0x00C0 ((u.u (setterTarget s.params inst)).get .ctlw0)] ∧
      (∀ j r b, uartBit u j r b =
        if j = setterTarget s.params inst ∧ r = .ctlw0 ∧ b = 6 then some (c.getLsbD 0)
        else if j = setterTarget s.params inst ∧ r = .ctlw0 ∧ b = 7 then some (c.getLsbD 1)
        else uartBit s j r b) ∧
      ∀ j, (u.u j).busy = (s.u j).busy

/-- `42_field_setters.md` R151, R152, R154 to R158: each one-bit setter writes its one bit of the target and changes no other bit
of any register, and nothing else but the trace. -/
def Obligations.OneBitSettersWriteTheirBit : Prop :=
  ∀ s inst v, s.seq = .idle → s.env = [] → ConfigOk s (setterTarget s.params inst) →
    ∀ p ∈ ([(.setBitOrder inst v, .ctlw0, 13), (.setStopBits inst v, .ctlw0, 11), (.setCharLen inst v, .ctlw0, 12),
        (.setSync inst v, .ctlw0, 8), (.setOversample inst v, .mctlw, 0), (.setRxeie inst v, .ctlw0, 5),
        (.setBrkie inst v, .ctlw0, 4)] : List (Instr × UReg × Fin 16)),
      ∃ t u, exec p.1 s = .next t ∧ Sys2Proof.core.run 2 t = .next u ∧
        u = { s with uart := u.uart, trace := u.trace, cmd := [] } ∧
        u.trace = s.trace ++ [.bw (setterTarget s.params inst) p.2.1 p.2.2 v] ∧
        (∀ j r b, uartBit u j r b =
          if j = setterTarget s.params inst ∧ r = p.2.1 ∧ b = p.2.2.val then some v else uartBit s j r b) ∧
        ∀ j, (u.u j).busy = (s.u j).busy

/-- `42_field_setters.md` R153: enabling parity gives PEN = 1 and PAR = 0 whatever PAR was; disabling gives PEN = 0 and leaves PAR
untouched; nothing else changes but the trace. -/
def Obligations.SetParityHasTwoStepSemantics : Prop :=
  ∀ s inst v, s.seq = .idle → s.env = [] → ConfigOk s (setterTarget s.params inst) →
    ∃ t u, exec (.setParity inst v) s = .next t ∧ Sys2Proof.core.run (if v then 3 else 2) t = .next u ∧
      u = { s with uart := u.uart, trace := u.trace, cmd := [] } ∧
      u.trace = s.trace ++
        (if v then [.bw (setterTarget s.params inst) .ctlw0 15 true, .bw (setterTarget s.params inst) .ctlw0 14 false]
          else [.bw (setterTarget s.params inst) .ctlw0 15 false]) ∧
      (∀ j r b, uartBit u j r b =
        if j = setterTarget s.params inst ∧ r = .ctlw0 ∧ b = 15 then some v
        else if j = setterTarget s.params inst ∧ r = .ctlw0 ∧ b = 14 ∧ v = true then some false
        else uartBit s j r b) ∧
      ∀ j, (u.u j).busy = (s.u j).busy

/-- `43_transmit_and_helpers.md` R190, R191: ENABLE clears and DISABLE sets the reset bit of the instance they name, whatever that
bit was (⊥ too) and in either setter mode, and change nothing else but the trace. -/
def Obligations.EnableAndDisableWriteTheResetBit : Prop :=
  ∀ s i, s.seq = .idle → s.env = [] → SetterOk s i →
    ∀ p ∈ ([(.enable i, false), (.disable i, true)] : List (Instr × Bool)),
      ∃ t u, exec p.1 s = .next t ∧ Sys2Proof.core.run 2 t = .next u ∧
        u = { s with uart := u.uart, trace := u.trace, cmd := [] } ∧
        u.trace = s.trace ++ [.bw i .ctlw0 0 p.2] ∧
        (∀ j r b, uartBit u j r b = if j = i ∧ r = .ctlw0 ∧ b = 0 then some p.2 else uartBit s j r b) ∧
        ∀ j, (u.u j).busy = (s.u j).busy

/-- `43_transmit_and_helpers.md` R195: CLEAR_FLAGS zeroes RXEIE, BRKIE, DORM, TXADDR and TXBRK, with MODE (bits 10:9) or SYNC
(bit 8) as `CLEAR_FLAGS_MODE_TARGET` says, in one write, and changes no other bit and nothing else. -/
def Obligations.ClearFlagsZeroesItsBits : Prop :=
  ∀ s inst, s.seq = .idle → s.env = [] → ConfigOk s (setterTarget s.params inst) →
    ∃ t u, exec (.clearFlags inst) s = .next t ∧ Sys2Proof.core.run 2 t = .next u ∧
      u = { s with uart := u.uart, trace := u.trace, cmd := [] } ∧
      u.trace = s.trace ++ [.fw (setterTarget s.params inst) .ctlw0
        (if s.params.clearTarget = .modeField then 0x063E else 0x013E) ((u.u (setterTarget s.params inst)).get .ctlw0)] ∧
      (∀ j r b, uartBit u j r b =
        if j = setterTarget s.params inst ∧ r = .ctlw0 ∧
            (b ∈ [1, 2, 3, 4, 5] ∨ (s.params.clearTarget = .modeField ∧ b ∈ [9, 10]) ∨
              (s.params.clearTarget = .syncBit ∧ b = 8))
        then some false else uartBit s j r b) ∧
      ∀ j, (u.u j).busy = (s.u j).busy

/-- `42_field_setters.md` R159: performing a setter twice with the same operand and target leaves every register as one
performance does. -/
def Obligations.SettersAreIdempotent : Prop :=
  ∀ s inst (c : Byte) v, s.seq = .idle → s.env = [] → ConfigOk s (setterTarget s.params inst) →
    ∀ i ∈ [Instr.setClock inst c, .setBitOrder inst v, .setStopBits inst v, .setParity inst v, .setCharLen inst v,
        .setSync inst v, .setOversample inst v, .setRxeie inst v, .setBrkie inst v],
      ∃ n t u t' u', exec i s = .next t ∧ Sys2Proof.core.run n t = .next u ∧ u.seq = .idle ∧
        exec i u = .next t' ∧ Sys2Proof.core.run n t' = .next u' ∧ u'.seq = .idle ∧
        ∀ j r b, uartBit u' j r b = uartBit u j r b

/-- "odd parity is unreachable through this interface" (`42_field_setters.md` R153): no list a command enters writes 1 to PAR, and
while none is pending a step sets PAR only as a host write between commands. -/
def Obligations.OddParityIsUnreachable : Prop :=
  ∀ s t, NoOddParityPending s → step s = .next t →
    NoOddParityPending t ∧
      ∀ i, uartBit t i .ctlw0 14 = some true → uartBit s i .ctlw0 14 = some true ∨
        (s.seq = .idle ∧ ∃ mask v, s.program.head? = some (.hostUart i .ctlw0 mask v))

/-! ## The initialisation sequencer -/

/-- `60_exceptions.md` R214: INITIALIZE with no descriptor raises NO_DESCRIPTOR in its acceptance step and performs nothing. -/
def Obligations.InitializeWithoutDescriptorFaults : Prop :=
  ∀ s, s.seq = .idle → s.desc = none →
    exec .initializeCmd s = .next { s with
      seq := .faulted
      cmd := []
      flt := { s.flt with noDescriptor := true, info := some ⟨[0x00000003], .acceptance, .noDescriptor, .none⟩ } }

/-- `41_sequencer.md` R121, `30_encoding.md` R87: the micro-operation list INITIALIZE enters, DOC's thirteen steps "in this exact
order, irrevocably", written out: steps 1 and 13 on `desc.instance`, steps 3 to 12 on the target `T`, which is PRIMARY (0) under
FIXED_PRIMARY and `desc.instance` under OPERAND. It is 13 to 17 long, and no write between its first and its last is of SWRST. -/
def Obligations.InitializeEntersTheThirteenSteps : Prop :=
  ∀ s d T, s.seq = .idle → s.desc = some d →
    (s.params.setterMode = .fixedPrimary ∧ T = 0 ∨ s.params.setterMode = .operand ∧ T = d.inst) →
    ∃ ops, exec .initializeCmd s = .next { s with seq := .exec ops 0, cmd := [0x00000003] } ∧
      ops =
        [.bitWrite d.inst .ctlw0 0 true] ++
        [.gpioClr d.portAddress .dir d.pinMask, .gpioClr d.portAddress .sel1 d.pinMask,
          .gpioSet d.portAddress .sel0 d.pinMask] ++
        (if d.clockSource.toNat < 3 then [.fieldWrite T .ctlw0 0x00C0 (d.clockSource.setWidth 16 <<< 6)] else []) ++
        [.bitWrite T .ctlw0 13 d.bitOrder] ++
        [.bitWrite T .ctlw0 11 d.stopBits] ++
        (if d.parityMode then [.bitWrite T .ctlw0 15 true, .bitWrite T .ctlw0 14 false]
          else [.bitWrite T .ctlw0 15 false]) ++
        (if d.baudIndex.toNat < 5 then
          [.regWrite T .brw (baudBR d.baudIndex.toNat), .regWrite T .mctlw (modval d.baudIndex.toNat)] else []) ++
        [.bitWrite T .ctlw0 12 d.characterLength] ++
        [.bitWrite T .ctlw0 8 d.syncMode] ++
        [.bitWrite T .mctlw 0 d.oversample] ++
        [.bitWrite T .ctlw0 5 d.rxErrorInterrupt] ++
        [.bitWrite T .ctlw0 4 d.breakInterrupt] ++
        [.bitWrite d.inst .ctlw0 0 false] ∧
      ops.length = 13 + (if d.clockSource.toNat < 3 then 1 else 0) + (if d.parityMode then 1 else 0) +
        (if d.baudIndex.toNat < 5 then 2 else 0) ∧
      13 ≤ ops.length ∧ ops.length ≤ 17 ∧
      ops.head? = some (.bitWrite d.inst .ctlw0 0 true) ∧ ops.getLast? = some (.bitWrite d.inst .ctlw0 0 false) ∧
      ∀ op ∈ ops.tail.dropLast, op.isSwrstWrite = false

/-- `41_sequencer.md` R123: under every schedule, at every step boundary from after step 1 of INITIALIZE to before step 13, the
reset bit of `desc.instance` reads 1: every step keeps `InitHoldsReset`. -/
def Obligations.ResetBitIsHeldThroughInitialize : Prop :=
  ∀ s t, InitHoldsReset s → step s = .next t → InitHoldsReset t

/-- `41_sequencer.md` R120 to R124, R132: what a fault-free INITIALIZE leaves, bit by bit, for every descriptor and both setter
modes: with `I` the descriptor's instance and `T` the setter target, SWRST of `I` is 0; the fields of `T` hold the descriptor's
codes (SSEL only for a recognised clock, BRW and MCTLW 15:1 only for a baud index below 5, PAR only when parity is enabled); the
masked pins are routed; every other bit, every other instance and everything else but the trace is unchanged. -/
def Obligations.InitializeConfiguresTheTarget : Prop :=
  ∀ s d, s.seq = .idle → s.env = [] → s.desc = some d → validPort s.params d.portAddress = true →
    SetterOk s d.inst → SetterOk s (setterTarget s.params d.inst) →
    (setterTarget s.params d.inst = d.inst ∨ ConfigOk s (setterTarget s.params d.inst)) →
    ∃ t u ops, exec .initializeCmd s = .next t ∧ t.seq = .exec ops 0 ∧
      Sys2Proof.core.run (ops.length + 1) t = .next u ∧
      u = { s with uart := u.uart, gpio := u.gpio, trace := u.trace, cmd := [] } ∧
      u.trace.length = s.trace.length + ops.length ∧
      (∀ j r b, b < 16 → uartBit u j r b =
        if j = d.inst ∧ r = .ctlw0 ∧ b = 0 then some false
        else if j ≠ setterTarget s.params d.inst then uartBit s j r b
        else match r with
          | .ctlw0 =>
            if b = 13 then some d.bitOrder else if b = 11 then some d.stopBits else if b = 15 then some d.parityMode
            else if b = 14 ∧ d.parityMode = true then some false else if b = 12 then some d.characterLength
            else if b = 8 then some d.syncMode else if b = 5 then some d.rxErrorInterrupt
            else if b = 4 then some d.breakInterrupt
            else if b = 6 ∧ d.clockSource.toNat < 3 then some (d.clockSource.getLsbD 0)
            else if b = 7 ∧ d.clockSource.toNat < 3 then some (d.clockSource.getLsbD 1)
            else uartBit s j r b
          | .brw => if d.baudIndex.toNat < 5 then some ((baudBR d.baudIndex.toNat).getLsbD b) else uartBit s j r b
          | .mctlw =>
            if b = 0 then some d.oversample
            else if d.baudIndex.toNat < 5 then some ((modval d.baudIndex.toNat).getLsbD b) else uartBit s j r b
          | .txbuf => uartBit s j r b
          | .ie => uartBit s j r b
          | .ifg => uartBit s j r b) ∧
      (∀ j, (u.u j).busy = (s.u j).busy) ∧
      (∀ a k, gpioBit u a .dir k =
        if a = d.portAddress ∧ d.pinMask.getLsbD k = true then some false else gpioBit s a .dir k) ∧
      (∀ a k, gpioBit u a .sel1 k =
        if a = d.portAddress ∧ d.pinMask.getLsbD k = true then some false else gpioBit s a .sel1 k) ∧
      (∀ a k, gpioBit u a .sel0 k =
        if a = d.portAddress ∧ d.pinMask.getLsbD k = true then some true else gpioBit s a .sel0 k)

/-- `70_reset_and_hazards.md` R249: with a descriptor whose instance is not the setter target, INITIALIZE on an enabled target
faults CONFIG_WHILE_ACTIVE at the first configuration write, after it has put `desc.instance` in reset and routed the pins (DIR,
SEL1 and SEL0, `41_sequencer.md` R126); every other bit of every register, every other port and everything else is unchanged. -/
def Obligations.InitializeOnAnEnabledPrimaryFaults : Prop :=
  ∀ s d, s.seq = .idle → s.env = [] → s.desc = some d → validPort s.params d.portAddress = true →
    s.params.setterMode = .fixedPrimary → d.inst ≠ 0 → SetterOk s d.inst → SetterOk s 0 →
    s.params.activePolicy = .fault → (s.u 0).swrst = some false →
    ∃ t u, exec .initializeCmd s = .next t ∧ Sys2Proof.core.run 5 t = .next u ∧ u.seq = .faulted ∧
      u.flt = { s.flt with
        configWhileActive := true
        info := some ⟨[0x00000003], .microOp 4, .configWhileActive, .inst 0⟩ } ∧
      u = { s with seq := .faulted, cmd := [], flt := u.flt, uart := u.uart, gpio := u.gpio, trace := u.trace } ∧
      u.trace.length = s.trace.length + 4 ∧
      (∀ j r b, uartBit u j r b = if j = d.inst ∧ r = .ctlw0 ∧ b = 0 then some true else uartBit s j r b) ∧
      (∀ j, (u.u j).busy = (s.u j).busy) ∧
      (∀ a k, gpioBit u a .dir k =
        if a = d.portAddress ∧ d.pinMask.getLsbD k = true then some false else gpioBit s a .dir k) ∧
      (∀ a k, gpioBit u a .sel1 k =
        if a = d.portAddress ∧ d.pinMask.getLsbD k = true then some false else gpioBit s a .sel1 k) ∧
      (∀ a k, gpioBit u a .sel0 k =
        if a = d.portAddress ∧ d.pinMask.getLsbD k = true then some true else gpioBit s a .sel0 k)

/-! ## Transmission -/

/-- `43_transmit_and_helpers.md` R180, R183: with TXIE = 1, SEND_BYTE writes the byte at once, whatever TXIFG, SWRST and BUSY are:
TXBUF[7:0] holds it, TXIFG is 0, BUSY is 1, `txlog` records TXIFG and SWRST as they were (R67), nothing else changes. -/
def Obligations.SendByteWritesAtOnceInInterruptMode : Prop :=
  ∀ s i b, s.seq = .idle → s.env = [] → s.hasInst i = true → (s.u i).txie = some true →
    ∃ t u, exec (.sendByte i b) s = .next t ∧ t.seq = .sbCheck i b .done ∧ Sys2Proof.core.run 2 t = .next u ∧
      u = { s with uart := u.uart, trace := u.trace, txlog := u.txlog, cmd := [] } ∧
      u.txlog = s.txlog ++ [⟨i, b, uartBit s i .ifg 1, uartBit s i .ctlw0 0⟩] ∧
      u.trace = s.trace ++ [.tb i .ie 1 true, .tx i b] ∧
      (∀ j r k, uartBit u j r k =
        if j = i ∧ r = .txbuf ∧ k < 8 then some (b.getLsbD k)
        else if j = i ∧ r = .ifg ∧ k = 1 then some false else uartBit s j r k) ∧
      ∀ j, (u.u j).busy = if j = i then true else (s.u j).busy

/-- `43_transmit_and_helpers.md` R180: with TXIE = 0 and TXIFG = 1, SEND_BYTE polls once, then writes. -/
def Obligations.SendBytePollsThenWrites : Prop :=
  ∀ s i b, s.seq = .idle → s.env = [] → s.hasInst i = true → (s.u i).txie = some false → (s.u i).txifg = some true →
    ∃ t u, exec (.sendByte i b) s = .next t ∧ Sys2Proof.core.run 3 t = .next u ∧
      u = { s with uart := u.uart, trace := u.trace, txlog := u.txlog, cmd := [] } ∧
      u.txlog = s.txlog ++ [⟨i, b, some true, uartBit s i .ctlw0 0⟩] ∧
      u.trace = s.trace ++ [.tb i .ie 1 false, .tb i .ifg 1 true, .tx i b] ∧
      (∀ j r k, uartBit u j r k =
        if j = i ∧ r = .txbuf ∧ k < 8 then some (b.getLsbD k)
        else if j = i ∧ r = .ifg ∧ k = 1 then some false else uartBit s j r k) ∧
      ∀ j, (u.u j).busy = if j = i then true else (s.u j).busy

/-- `43_transmit_and_helpers.md` R182, `60_exceptions.md` R220: with no fairness and no TxReady, a poll of a clear flag goes on for
ever: after any number of steps the state differs only by its trace. -/
def Obligations.PollingAClearFlagHangs : Prop :=
  ∀ s i b k n, s.seq = .sbPoll i b k → s.env = [] → s.hasInst i = true → (s.u i).txifg = some false →
    s.params.txifgFair = false →
    Sys2Proof.core.run n s = .next { s with trace := s.trace ++ List.replicate n (.tb i .ifg 1 false) }

/-- `60_exceptions.md` R225: under `TXIFG_FAIR = true` the poll loop terminates: under every finite schedule without block reset, a
byte being polled for on a defined flag is written within a number of steps that the schedule's length bounds, and SEND_BYTE
completes. The bound is the model's (assumption 15). -/
def Obligations.FairPollingCompletes : Prop :=
  ∀ s i b, s.seq = .sbPoll i b .done → s.params.txifgFair = true → s.hasInst i = true → (s.u i).txifg ≠ none →
    EnvMove.blockReset ∉ s.env →
    ∃ n u, n ≤ s.env.length + 3 ∧ Sys2Proof.core.run n s = .next u ∧ u.seq = .idle ∧ sent u = sent s ++ [(i, b)]

/-- `43_transmit_and_helpers.md` R185: in interrupt mode SEND_STRING completes. It sends the characters up to the terminator in
order, and its trace is, of each character, one read of its byte, the read of TXIE and the write, and at the end one read of the
terminator. Of the instance, TXBUF[7:0] holds the last character, TXIFG is 0 and BUSY is 1 if there was a character, and every
other bit (CTLW0, BRW, MCTLW, IE) is kept; memory and everything else is unchanged. -/
def Obligations.SendStringCompletesInInterruptMode : Prop :=
  ∀ s i p (bytes : List Byte), s.seq = .idle → s.env = [] → s.hasInst i = true → (s.u i).txie = some true →
    HoldsString s p (bytes ++ [0]) → (∀ c ∈ bytes, c ≠ 0) →
    ∃ t u, exec (.sendString i p) s = .next t ∧ t.seq = .ssFetch i p ∧
      Sys2Proof.core.run (3 * bytes.length + 1) t = .next u ∧
      u = { s with uart := u.uart, trace := u.trace, txlog := u.txlog, cmd := [] } ∧
      sent u = sent s ++ bytes.map (fun c => (i, c)) ∧
      u.txlog = s.txlog ++ stringLog i (uartBit s i .ifg 1) (uartBit s i .ctlw0 0) bytes ∧
      u.trace = s.trace ++ stringTrace i p bytes ∧
      (∀ j r k, uartBit u j r k =
        match bytes.getLast? with
        | none => uartBit s j r k
        | some c =>
          if j = i ∧ r = .txbuf ∧ k < 8 then some (c.getLsbD k)
          else if j = i ∧ r = .ifg ∧ k = 1 then some false else uartBit s j r k) ∧
      (∀ j, (u.u j).busy = if j = i ∧ bytes ≠ [] then true else (s.u j).busy) ∧
      ∀ j, j ≠ i → u.u j = s.u j

/-- `43_transmit_and_helpers.md` R186: a run of SEND_STRING that reaches IDLE, under any schedule without block reset, in either
mode, appends exactly one `txlog` entry per character before the terminator, in order, and none for the terminator. -/
def Obligations.SendStringTransmitsInOrder : Prop :=
  ∀ s u i p (bytes : List Byte) n, s.seq = .ssFetch i p → HoldsString s p (bytes ++ [0]) → (∀ c ∈ bytes, c ≠ 0) →
    EnvMove.blockReset ∉ s.env → Sys2Proof.core.run n s = .next u → u.seq = .idle →
    (∀ m v, m < n → Sys2Proof.core.run m s = .next v → v.seq ≠ .idle) →
    sent u = sent s ++ bytes.map (fun c => (i, c))

/-- `43_transmit_and_helpers.md` R183: every step keeps the fact that a byte about to be written in polling mode finds TXIFG = 1,
and an entry that a step appends to `txlog` in polling mode has `txifg_before = 1` (`70_reset_and_hazards.md` R250). -/
def Obligations.PollingNeverOverruns : Prop :=
  ∀ s t, PollOk s → step s = .next t →
    PollOk t ∧ ∀ e, t.txlog = s.txlog ++ [e] → (s.u e.inst).txie = some false → e.txifgBefore = some true

/-! ## Faults, guards and stuck states -/

/-- `60_exceptions.md` R218: the order in which guards apply to a UART write (BAD_INSTANCE, SETTER_DURING_TX, UNWRITTEN_READ of
SWRST, CONFIG_WHILE_ACTIVE) to a TestBit (BAD_INSTANCE, UNWRITTEN_READ of the bit) and to a TxWrite (BAD_INSTANCE only), with what the
first that fires leaves: exactly the fault, nothing written. At acceptance ILLEGAL_CMD comes before NO_DESCRIPTOR. If none fires the block goes on. -/
def Obligations.GuardsApplyInOrder : Prop :=
  (∀ s w0 ext rest, s.seq = .idle → s.env = [] → s.program = .command (w0 :: ext) :: rest → s.desc = none →
    isOneCommand (w0 :: ext) = true → ¬ legalByFields s.params.setterMode w0 (ext.getD 1 0) →
    ∃ t, step s = .next t ∧ t.seq = .faulted ∧ t.flt.bit .illegalCmd = true ∧
      t.flt.bit .noDescriptor = s.flt.bit .noDescriptor) ∧
  (∀ s ops j op i, s.seq = .exec ops j → s.env = [] → ops[j]? = some op → uartTarget op = some i →
    if s.hasInst i = false then step s = .next (faultedState s (.microOp j) .badInstance (.inst i))
    else if op.isSetterWrite = true ∧ (s.u i).busy = true then
      step s = .next (faultedState s (.microOp j) .setterDuringTx (.inst i))
    else if op.isConfigWrite = true ∧ s.params.activePolicy = .fault ∧ (s.u i).swrst = none then
      step s = .next (faultedState s (.microOp j) .unwrittenRead (.bit i .ctlw0 0))
    else if op.isConfigWrite = true ∧ s.params.activePolicy = .fault ∧ (s.u i).swrst = some false then
      step s = .next (faultedState s (.microOp j) .configWhileActive (.inst i))
    else ∃ t, step s = .next t ∧ t.seq = .exec ops (j + 1) ∧ t.flt = s.flt) ∧
  (∀ s i b k, s.seq = .sbCheck i b k → s.env = [] →
    if s.hasInst i = false then step s = .next (faultedState s .sbCheck .badInstance (.inst i))
    else match (s.u i).txie with
      | none => step s = .next (faultedState s .sbCheck .unwrittenRead (.bit i .ie 1))
      | some true => step s = .next { s with trace := s.trace ++ [.tb i .ie 1 true], seq := .sbWrite i b k }
      | some false => step s = .next { s with trace := s.trace ++ [.tb i .ie 1 false], seq := .sbPoll i b k }) ∧
  (∀ s i b k, s.seq = .sbPoll i b k → s.env = [.run] →
    if s.hasInst i = false then step s = .next (faultedState { s with env := [] } .sbPoll .badInstance (.inst i))
    else match (s.u i).txifg with
      | none => step s = .next (faultedState { s with env := [] } .sbPoll .unwrittenRead (.bit i .ifg 1))
      | some true => step s = .next { s with env := [], trace := s.trace ++ [.tb i .ifg 1 true], seq := .sbWrite i b k }
      | some false => step s = .next { s with env := [], trace := s.trace ++ [.tb i .ifg 1 false], seq := .sbPoll i b k }) ∧
  (∀ s i b k, s.seq = .sbWrite i b k → s.env = [] →
    if s.hasInst i = false then step s = .next (faultedState s .sbWrite .badInstance (.inst i))
    else ∃ t, step s = .next t ∧ t.flt = s.flt)

/-- `20_memory.md` R70: a `BitWrite` of SWRST is a setter write but no configuration write; every other write of CTLW0, BRW or
MCTLW is both; a GPIO write and `LatchDesc` are neither. -/
def Obligations.WriteClasses : Prop :=
  ∀ (i : Inst) (r : UReg) (b : Fin 16) (v : Bool) (mask x : Half) (d : Descriptor) (a : Addr) (g : GReg) (m : Byte),
    (MicroOp.bitWrite i .ctlw0 0 v).isSetterWrite = true ∧ (MicroOp.bitWrite i .ctlw0 0 v).isConfigWrite = false ∧
    ((r = .ctlw0 ∧ b ≠ 0 ∨ r = .brw ∨ r = .mctlw) →
      (MicroOp.bitWrite i r b v).isConfigWrite = true ∧ (MicroOp.bitWrite i r b v).isSetterWrite = true) ∧
    (r ∈ [UReg.ctlw0, .brw, .mctlw] →
      (MicroOp.fieldWrite i r mask x).isConfigWrite = true ∧ (MicroOp.fieldWrite i r mask x).isSetterWrite = true ∧
      (MicroOp.regWrite i r x).isConfigWrite = true ∧ (MicroOp.regWrite i r x).isSetterWrite = true) ∧
    (∀ op ∈ [MicroOp.latchDesc d, .gpioClr a g m, .gpioSet a g m],
      op.isConfigWrite = false ∧ op.isSetterWrite = false)

/-- `60_exceptions.md` R211: a step that enters FAULTED sets the bit of the code it records and changes nothing but `seq`, `flt`,
the command in progress, and the program line and schedule entry taken: earlier writes stay, the faulting one writes nothing. -/
def Obligations.FaultsArePrecise : Prop :=
  ∀ s t, step s = .next t → s.seq ≠ .faulted → t.seq = .faulted →
    t = { s with seq := .faulted, cmd := [], flt := t.flt, program := t.program, env := s.env.tail } ∧
      ∃ info, t.flt = s.flt.record info ∧ t.flt.bit info.code = true ∧ t.flt.info = some info

/-- `60_exceptions.md` R211: FAULTED has no step of the block and accepts no command; environment events stay enabled, and the
fault record is kept by every step but block reset. -/
def Obligations.FaultedHasNoStepOfTheBlock : Prop :=
  (∀ s, s.seq = .faulted → s.env = [] → step s = .fault .halted) ∧
  (∀ s es, s.seq = .faulted → s.env = .run :: es → step s = .fault .halted) ∧
  (∀ s i es, s.seq = .faulted → s.env = .txReady i :: es → s.hasInst i = true →
    ∃ t, step s = .next t ∧ t.seq = .faulted ∧ (t.u i).txifg = some true) ∧
  (∀ s t, step s = .next t → s.seq = .faulted → s.env.head? ≠ some .blockReset →
    t.seq = .faulted ∧ t.flt = s.flt ∧ t.program = s.program)

/-- `60_exceptions.md` R219: the two stuck cases: no step, no fault raised, and not the end of a run. -/
def Obligations.StuckStatesHaveNoStep : Prop :=
  (∀ s ops j a r m, s.seq = .exec ops j → s.env = [] → validPort s.params a = false →
    (ops[j]? = some (.gpioClr a r m) ∨ ops[j]? = some (.gpioSet a r m)) →
    step s = .fault .stuckPort ∧ Stuck s ∧ ¬ Ended s) ∧
  (∀ s i p, s.seq = .ssFetch i p → s.env = [] → memAdmit s.params p = false →
    step s = .fault .stuckMemory ∧ Stuck s ∧ ¬ Ended s)

/-! ## Environment and host -/

/-- `60_exceptions.md` R224: TxReady is enabled for every existing instance in every `seq` state and sets TXIFG; TxDone is enabled
when BUSY = 1 and TXIFG = 1 and clears BUSY; neither appends to the trace or changes anything else, whatever SWRST is. An event
that is not enabled does not occur (assumption 5). -/
def Obligations.EnvironmentEvents : Prop :=
  (∀ s i es, s.env = .txReady i :: es → s.hasInst i = true →
    ∃ t, step s = .next t ∧ t = { s with env := es, uart := t.uart } ∧
      (∀ j r b, uartBit t j r b = if j = i ∧ r = .ifg ∧ b = 1 then some true else uartBit s j r b) ∧
      ∀ j, (t.u j).busy = (s.u j).busy) ∧
  (∀ s i es, s.env = .txDone i :: es → s.hasInst i = true → (s.u i).busy = true → (s.u i).txifg = some true →
    ∃ t, step s = .next t ∧ t = { s with env := es, uart := t.uart } ∧
      (∀ j r b, uartBit t j r b = uartBit s j r b) ∧ ∀ j, (t.u j).busy = if j = i then false else (s.u j).busy) ∧
  (∀ s i es, s.env = .txDone i :: es → ¬ (s.hasInst i = true ∧ (s.u i).busy = true ∧ (s.u i).txifg = some true) →
    step s = .next { s with env := es })

/-- `60_exceptions.md` R226: a host write between commands writes the bits of its mask that are modelled and nothing else, and
appends to neither record: of a UART register (BUSY and TXIFG cannot be named), of a GPIO register, of a byte of data memory. Bits
of IE other than 1 and of TXBUF 15:8 are not modelled (`10_state.md` R35, R38) and stay without a value (assumption 24); that the
host may write TXBUF is R226's word over R39's (assumption 30). -/
def Obligations.HostWritesBetweenCommands : Prop :=
  (∀ s i r mask v rest, s.seq = .idle → s.env = [] → s.program = .hostUart i r mask v :: rest → s.hasInst i = true →
    ∃ t, step s = .next t ∧ t = { s with program := rest, uart := t.uart } ∧
      (∀ j q b, uartBit t j q b =
        if j = i ∧ q = r.toUReg ∧ (mask &&& r.toUReg.modelled).getLsbD b = true then some (v.getLsbD b)
        else uartBit s j q b) ∧
      (∀ j, (t.u j).busy = (s.u j).busy ∧ (t.u j).txifg = (s.u j).txifg)) ∧
  (∀ s a r mask v rest, s.seq = .idle → s.env = [] → s.program = .hostGpio a r mask v :: rest →
    validPort s.params a = true →
    ∃ t, step s = .next t ∧ t = { s with program := rest, gpio := t.gpio } ∧
      ∀ b q k, gpioBit t b q k = if b = a ∧ q = r ∧ mask.getLsbD k = true then some (v.getLsbD k) else gpioBit s b q k) ∧
  (∀ s a x rest, s.seq = .idle → s.env = [] → s.program = .hostMem a x :: rest →
    ∃ t, step s = .next t ∧ t = { s with program := rest, mem := t.mem } ∧
      ∀ b, t.readByte b = if b = a then x else s.readByte b)

/-! ## Whole-machine rules -/

/-- `10_state.md` R35, R44: the block never writes data memory and never writes TXIE: a step that changes the byte at `a` is
a host write of that very byte between commands, and, under the invariant, one that changes TXIE of `i` a host write of IE of
`i`. -/
def Obligations.BlockNeverWritesMemoryOrTxie : Prop :=
  ∀ s t, SequencerOk s → step s = .next t →
    (∀ a, t.readByte a ≠ s.readByte a → s.seq = .idle ∧ ∃ b, s.program.head? = some (.hostMem a b)) ∧
    (∀ i, (t.u i).txie ≠ (s.u i).txie → s.seq = .idle ∧ ∃ mask v, s.program.head? = some (.hostUart i .ie mask v))

/-- `10_state.md` R37: BUSY of an instance becomes 1 only by the transmit-buffer write of SB_WRITE on it, and becomes 0 only by
TxDone of that instance (of the schedule, or a line of the program in IDLE), when TXIFG is 1. -/
def Obligations.BusyMarksATransmissionInFlight : Prop :=
  ∀ s t i, step s = .next t →
    ((s.u i).busy = false → (t.u i).busy = true →
      (∃ b k, s.seq = .sbWrite i b k) ∧ t.txlog.length = s.txlog.length + 1) ∧
    ((s.u i).busy = true → (t.u i).busy = false →
      (s.env.head? = some (.txDone i) ∨ s.seq = .idle ∧ s.program.head? = some (.txDone i)) ∧
        (s.u i).txifg = some true ∧ t.txlog = s.txlog)

/-- `60_exceptions.md` R229, `42_field_setters.md` R161: a step changes the register file of an instance only if an agent
addresses that instance in it. -/
def Obligations.OtherInstancesAreUntouched : Prop :=
  ∀ s t i, step s = .next t → t.u i ≠ s.u i →
    s.env.head? = some (.txReady i) ∨ s.env.head? = some (.txDone i) ∨
    (s.seq = .idle ∧ (s.program.head? = some (.txReady i) ∨ s.program.head? = some (.txDone i) ∨
      ∃ r mask v, s.program.head? = some (.hostUart i r mask v))) ∨
    (∃ ops j op, s.seq = .exec ops j ∧ ops[j]? = some op ∧ uartTarget op = some i) ∨
    (∃ b k, s.seq = .sbPoll i b k ∧ s.env = [] ∧ s.params.txifgFair = true) ∨
    (∃ b k, s.seq = .sbWrite i b k)

/-- `40_descriptor.md`, `41_sequencer.md` R125, `70_reset_and_hazards.md` R252: a step changes a port only by a GPIO micro-operation
on it or a host write between commands: the routing of pins persists. -/
def Obligations.PinRoutingPersists : Prop :=
  ∀ s t a, step s = .next t → t.port a ≠ s.port a →
    (s.seq = .idle ∧ ∃ r mask v, s.program.head? = some (.hostGpio a r mask v)) ∨
    ∃ ops j r m, s.seq = .exec ops j ∧ (ops[j]? = some (.gpioClr a r m) ∨ ops[j]? = some (.gpioSet a r m))

/-- `20_memory.md` section 2, R45, R46: a step other than block reset appends at most one entry to the trace and at most one to the
transmit log, a log entry only together with a `TX` trace entry for the same byte, and takes no entry away. -/
def Obligations.RecordsOnlyGrow : Prop :=
  ∀ s t, step s = .next t → s.env.head? ≠ some .blockReset →
    (t.trace = s.trace ∧ t.txlog = s.txlog) ∨ (∃ e, t.trace = s.trace ++ [e] ∧ t.txlog = s.txlog) ∨
    ∃ i b f w, t.trace = s.trace ++ [.tx i b] ∧ t.txlog = s.txlog ++ [⟨i, b, f, w⟩] ∧
      f = uartBit s i .ifg 1 ∧ w = uartBit s i .ctlw0 0

/-- `00_scope.md` R8 to R10: no step changes an implementation parameter. -/
def Obligations.ParametersNeverChange : Prop := ∀ s t, step s = .next t → t.params = s.params

/-- THE INVARIANT: every step of every agent keeps the canonical form of registers, ports and memory, the agreement of the fault
record with `seq` (`10_state.md` R27: "at most one bit is ever set in one run"), and that a list index stays in a list that writes
no other registers than the spec's lists do (R24, R25, `20_memory.md` R70). -/
def Obligations.EveryStepKeepsTheInvariant : Prop := ∀ s t, MachineInv s → step s = .next t → MachineInv t

/-- The machine meets the invariant, and the other step invariants of these statements, at both launch states. -/
def Obligations.LaunchMeetsTheInvariants : Prop :=
  (MachineInv State.reset ∧ PollOk State.reset ∧ NoOddParityPending State.reset ∧ InitHoldsReset State.reset) ∧
  (MachineInv State.resetPor ∧ PollOk State.resetPor ∧ NoOddParityPending State.resetPor ∧ InitHoldsReset State.resetPor)

/-! ## Setter targets, fair strings, the end of a run -/

/-- `30_encoding.md` R87, `42_field_setters.md` R161: every UART write of a field setter, APPLY_BAUD or CLEAR_FLAGS addresses
instance 0 under FIXED_PRIMARY, whatever the command or the descriptor names, and the command's own INST under OPERAND. -/
def Obligations.SettersActOnTheirTarget : Prop :=
  (∀ p inst, setterTarget p inst = match p.setterMode with
    | .fixedPrimary => 0
    | .operand => inst) ∧
  (∀ s i inst, s.seq = .idle → i.setterInst = some inst →
    ∃ ops, exec i s = .next { s with seq := .exec ops 0, cmd := encode i } ∧
      ∀ op ∈ ops, (s.params.setterMode = .fixedPrimary → uartTarget op = some 0) ∧
        (s.params.setterMode = .operand → uartTarget op = some inst))

/-- `43_transmit_and_helpers.md` R185, `60_exceptions.md` R225: under `TXIFG_FAIR = true`, in polling and in interrupt mode, under
every finite schedule without block reset, SEND_STRING completes and sends the characters up to the terminator in order. The
bound on the steps is the model's (assumption 15). -/
def Obligations.FairSendStringCompletes : Prop :=
  ∀ s i p (bytes : List Byte), s.seq = .idle → s.params.txifgFair = true → s.hasInst i = true →
    (s.u i).txie ≠ none → (s.u i).txifg ≠ none → HoldsString s p (bytes ++ [0]) → (∀ c ∈ bytes, c ≠ 0) →
    EnvMove.blockReset ∉ s.env →
    ∃ t n u, exec (.sendString i p) s = .next t ∧ n ≤ s.env.length + 5 * bytes.length + 1 ∧
      Sys2Proof.core.run n t = .next u ∧ u.seq = .idle ∧ sent u = sent s ++ bytes.map (fun c => (i, c)) ∧
      u.program = s.program ∧ u.flt = s.flt ∧ u.mem = s.mem ∧ u.gpio = s.gpio ∧ u.desc = s.desc

/-- `70_reset_and_hazards.md` R254: a run ends at most once, at the first state that meets the four conditions, and it does end
if some state of it meets them; an end is neither FAULTED nor stuck; and without a block reset a run that is in FAULTED or stuck
never ends, nor does one that polls a clear flag for ever. -/
def Obligations.RunsEndAtTheFirstEndState : Prop :=
  (∀ s n m t u, EndsAt s n t → EndsAt s m u → n = m ∧ t = u) ∧
  (∀ s n t, Sys2Proof.core.run n s = .next t → Ended t → ∃ m u, m ≤ n ∧ EndsAt s m u) ∧
  (∀ s n t, EndsAt s n t → t.program = [] ∧ t.seq = .idle ∧ (∀ c, t.flt.bit c = false) ∧ ¬ Stuck t) ∧
  (∀ s, EnvMove.blockReset ∉ s.env → s.seq = .faulted ∨ Stuck s → ¬ Ends s) ∧
  (∀ s i b k, s.seq = .sbPoll i b k → s.env = [] → s.hasInst i = true → (s.u i).txifg = some false →
    s.params.txifgFair = false → ¬ Ends s)
end

