-- ==== Sys2Proof/Laws/Decode.lean ====
section
/-! SUPPORT. Everything the decoder can answer, and the fields of a word and of a format read back. -/

namespace Sys2Proof

/-- The inversion of the decoder (`30_encoding.md` R86 to R90). -/
theorem decode_eq_ok {m : SetterMode} {ws : List Word} {i : Instr} :
    decode m ws = .ok i ↔ ∃ w0 ext mask, ws = w0 :: ext ∧ isOneCommand ws = true ∧ w0Mask m (opcodeOf w0) = some mask ∧
      w0 &&& mask = (opcodeOf w0).setWidth 32 ∧ ext.getD 1 0 >>> 8 = 0 ∧
      readOperands w0 (ext.getD 0 0) (ext.getD 1 0) = some i := by
  cases ws with
  | nil => simp [decode]
  | cons w0 ext =>
    simp only [decode]
    constructor
    · intro h
      split at h
      · rename_i hone
        split at h
        · cases h
        · rename_i mask hm
          split at h
          · rename_i hmask
            split at h
            · rename_i hz
              split at h
              · rename_i j hj
                obtain rfl := Except.ok.inj h
                exact ⟨w0, ext, mask, rfl, hone, hm, hmask, hz, hj⟩
              · cases h
            · cases h
          · cases h
      · cases h
    · rintro ⟨w, e, mask, hw, hone, hm, hmask, hz, hi⟩
      obtain ⟨rfl, rfl⟩ := List.cons.inj hw
      simp only [hone, hm, hmask, hz, hi, if_true]

/-- An opcode has operands exactly when it is a row's. -/
theorem readOperands_isSome (m : SetterMode) (w0 w1 w2 : Word) :
    (readOperands w0 w1 w2).isSome = (w0Mask m (opcodeOf w0)).isSome := by
  unfold readOperands w0Mask
  split <;> simp_all

/-- A field of a word is 0 exactly when each of its bits is. -/
theorem extract_eq_zero_iff {w : Nat} (x : BitVec w) (start len : Nat) :
    x.extractLsb' start len = 0 ↔ ∀ b < len, x.getLsbD (start + b) = false := by
  constructor
  · intro h b hb
    simpa [hb] using congrArg (·.getLsbD b) h
  · intro h
    exact BitVec.eq_of_getLsbD_eq fun b hb => by simpa [hb] using h b hb

/-- Format F0 (R81) read field by field. -/
theorem formatF0_fields (op : Byte) (inst : Inst) (v : Byte) :
    opcodeOf (formatF0 op inst v) = op ∧ instField (formatF0 op inst v) = inst ∧ valueField (formatF0 op inst v) = v ∧
      (formatF0 op inst v).extractLsb' 10 14 = 0 := by
  refine ⟨?_, ?_, ?_, ?_⟩ <;> simp only [opcodeOf, instField, valueField, formatF0] <;>
    apply BitVec.eq_of_getLsbD_eq <;> intro b hb <;>
    simp only [BitVec.getLsbD_extractLsb', BitVec.getLsbD_append, hb, decide_true, Bool.true_and] <;>
    interval_cases b <;> simp

/-- A word whose reserved field is 0 is format F0 of its own fields (R81). -/
theorem formatF0_of_fields (w : Word) (h : w.extractLsb' 10 14 = 0) :
    formatF0 (opcodeOf w) (instField w) (valueField w) = w := by
  have hb := (extract_eq_zero_iff _ _ _).1 h
  apply BitVec.eq_of_getLsbD_eq
  intro b hlt
  simp only [opcodeOf, instField, valueField, formatF0, BitVec.getLsbD_append, BitVec.getLsbD_extractLsb']
  rcases Nat.lt_or_ge b 10 with h1 | h1
  · interval_cases b <;> simp
  · rcases Nat.lt_or_ge b 24 with h2 | h2
    · have := hb (b - 10) (by omega)
      rw [show 10 + (b - 10) = b by omega] at this
      interval_cases b <;> simp_all
    · interval_cases b <;> simp

/-- A one-bit value is V[0] with the rest 0 (R84). -/
theorem bitValue_of_field (w : Word) (h : w.extractLsb' 25 7 = 0) : bitValue (valueBit w) = valueField w := by
  have hb := (extract_eq_zero_iff _ _ _).1 h
  apply BitVec.eq_of_getLsbD_eq
  intro b hlt
  simp only [bitValue, valueBit, valueField, BitVec.getLsbD_append, BitVec.getLsbD_extractLsb']
  interval_cases b
  · simp
  all_goals
    first
    | simpa using (hb 0 (by omega)).symm
    | simpa using (hb 1 (by omega)).symm
    | simpa using (hb 2 (by omega)).symm
    | simpa using (hb 3 (by omega)).symm
    | simpa using (hb 4 (by omega)).symm
    | simpa using (hb 5 (by omega)).symm
    | simpa using (hb 6 (by omega)).symm

/-- Every bit of format FC (R82). -/
theorem formatFC_getLsbD (d : Descriptor) (b : Nat) (h : b < 32) :
    (formatFC d).getLsbD b =
      if b < 8 then decide (b = 0) else if b < 10 then d.inst.getLsbD (b - 8)
      else if b < 12 then d.clockSource.getLsbD (b - 10) else if b = 12 then d.bitOrder else if b = 13 then d.stopBits
      else if b = 14 then d.parityMode else if b = 15 then d.syncMode else if b = 16 then d.characterLength
      else if b = 17 then d.oversample else if b = 18 then d.rxErrorInterrupt else if b = 19 then d.breakInterrupt
      else if b < 24 then false else d.baudIndex.getLsbD (b - 24) := by
  simp only [formatFC, BitVec.getLsbD_append]
  interval_cases b <;> simp

/-- Format FC and the words W1, W2 (R82, R83) read field by field. -/
theorem formatFC_fields (d : Descriptor) :
    opcodeOf (formatFC d) = 0x01 ∧ (formatFC d).extractLsb' 20 4 = 0 ∧
      descriptorOf (formatFC d) d.portAddress (maskWord d.pinMask) = d := by
  refine ⟨?_, ?_, ?_⟩
  · apply BitVec.eq_of_getLsbD_eq
    intro b hlt
    rw [opcodeOf, BitVec.getLsbD_extractLsb', Nat.zero_add, formatFC_getLsbD d b (by omega)]
    interval_cases b <;> rfl
  · refine (extract_eq_zero_iff _ _ _).2 fun b hlt => ?_
    rw [formatFC_getLsbD d _ (by omega)]
    interval_cases b <;> rfl
  · have hinst : (formatFC d).extractLsb' 8 2 = d.inst := by
      apply BitVec.eq_of_getLsbD_eq
      intro b hlt
      rw [BitVec.getLsbD_extractLsb', formatFC_getLsbD d _ (by omega)]
      interval_cases b <;> simp
    have hclock : (formatFC d).extractLsb' 10 2 = d.clockSource := by
      apply BitVec.eq_of_getLsbD_eq
      intro b hlt
      rw [BitVec.getLsbD_extractLsb', formatFC_getLsbD d _ (by omega)]
      interval_cases b <;> simp
    have hbaud : (formatFC d).extractLsb' 24 8 = d.baudIndex := by
      apply BitVec.eq_of_getLsbD_eq
      intro b hlt
      rw [BitVec.getLsbD_extractLsb', formatFC_getLsbD d _ (by omega)]
      interval_cases b <;> simp
    have hpins : (maskWord d.pinMask).extractLsb' 0 8 = d.pinMask := by
      apply BitVec.eq_of_getLsbD_eq
      intro b hlt
      simp only [maskWord, BitVec.getLsbD_extractLsb', BitVec.getLsbD_append]
      interval_cases b <;> simp
    obtain ⟨inst, port, pins, clock, order, stop, parity, baud, sync, len, ovs, rx, brk⟩ := d
    simp only [descriptorOf, hinst, hclock, hbaud, hpins, Descriptor.mk.injEq, true_and]
    refine ⟨?_, ?_, ?_, ?_, ?_, ?_, ?_, ?_⟩ <;> rw [formatFC_getLsbD _ _ (by omega)] <;> rfl

/-- A word of CONSTRUCT whose reserved field is 0 is format FC of its own fields (R82). -/
theorem formatFC_of_fields (w0 w1 w2 : Word) (ho : opcodeOf w0 = 0x01) (h : w0.extractLsb' 20 4 = 0) :
    formatFC (descriptorOf w0 w1 w2) = w0 := by
  have hb := (extract_eq_zero_iff _ _ _).1 h
  have hop : ∀ b, b < 8 → w0.getLsbD b = decide (b = 0) := by
    intro b hlt
    have := congrArg (·.getLsbD b) ho
    simp only [opcodeOf, BitVec.getLsbD_extractLsb', hlt, decide_true, Bool.true_and, Nat.zero_add] at this
    rw [this]
    interval_cases b <;> decide
  apply BitVec.eq_of_getLsbD_eq
  intro b hlt
  simp only [formatFC, descriptorOf, BitVec.getLsbD_append, BitVec.getLsbD_extractLsb']
  rcases Nat.lt_or_ge b 8 with h1 | h1
  · rw [hop b h1]; interval_cases b <;> simp
  · rcases Nat.lt_or_ge b 20 with h2 | h2
    · interval_cases b <;> simp
    · rcases Nat.lt_or_ge b 24 with h3 | h3
      · have := hb (b - 20) (by omega)
        rw [show 20 + (b - 20) = b by omega] at this
        interval_cases b <;> simp_all
      · interval_cases b <;> simp

/-- The extension word W2 (R83) holds its mask, and a word whose bits 31:8 are 0 is the W2 of its mask. -/
theorem maskWord_fields (m : Byte) : (maskWord m).extractLsb' 0 8 = m ∧ maskWord m >>> 8 = 0 := by
  constructor <;> apply BitVec.eq_of_getLsbD_eq <;> intro b hlt
  · simp only [maskWord, BitVec.getLsbD_extractLsb', BitVec.getLsbD_append]; interval_cases b <;> simp
  · simp only [maskWord, BitVec.getLsbD_ushiftRight, BitVec.getLsbD_append]; interval_cases b <;> simp

theorem maskWord_of_fields (w : Word) (h : w >>> 8 = 0) : maskWord (w.extractLsb' 0 8) = w := by
  apply BitVec.eq_of_getLsbD_eq
  intro b hlt
  simp only [maskWord, BitVec.getLsbD_append, BitVec.getLsbD_extractLsb']
  rcases Nat.lt_or_ge b 8 with h1 | h1
  · interval_cases b <;> simp
  · have := congrArg (·.getLsbD (b - 8)) h
    simp only [BitVec.getLsbD_ushiftRight, show 8 + (b - 8) = b by omega] at this
    interval_cases b <;> simp_all

end Sys2Proof
end

