-- ==== Sys2Proof/Laws/State.lean ====
section
/-! SUPPORT. One lemma per field of `State` and per update: what the field holds after it. -/

namespace Sys2Proof.Machine

@[simp] theorem State.putU_params (s : State) (i : Inst) (x : UartRegs) : (s.putU i x).params = s.params := rfl
@[simp] theorem State.putU_seq (s : State) (i : Inst) (x : UartRegs) : (s.putU i x).seq = s.seq := rfl
@[simp] theorem State.putU_cmd (s : State) (i : Inst) (x : UartRegs) : (s.putU i x).cmd = s.cmd := rfl
@[simp] theorem State.putU_desc (s : State) (i : Inst) (x : UartRegs) : (s.putU i x).desc = s.desc := rfl
@[simp] theorem State.putU_flt (s : State) (i : Inst) (x : UartRegs) : (s.putU i x).flt = s.flt := rfl
@[simp] theorem State.putU_uart (s : State) (i : Inst) (x : UartRegs) : (s.putU i x).uart = s.uart.put i x := rfl
@[simp] theorem State.putU_gpio (s : State) (i : Inst) (x : UartRegs) : (s.putU i x).gpio = s.gpio := rfl
@[simp] theorem State.putU_mem (s : State) (i : Inst) (x : UartRegs) : (s.putU i x).mem = s.mem := rfl
@[simp] theorem State.putU_txlog (s : State) (i : Inst) (x : UartRegs) : (s.putU i x).txlog = s.txlog := rfl
@[simp] theorem State.putU_trace (s : State) (i : Inst) (x : UartRegs) : (s.putU i x).trace = s.trace := rfl
@[simp] theorem State.putU_program (s : State) (i : Inst) (x : UartRegs) : (s.putU i x).program = s.program := rfl
@[simp] theorem State.putU_env (s : State) (i : Inst) (x : UartRegs) : (s.putU i x).env = s.env := rfl

@[simp] theorem State.writeU_params (s : State) (i : Inst) (r : UReg) (m v : Half) : (s.writeU i r m v).params = s.params := rfl
@[simp] theorem State.writeU_seq (s : State) (i : Inst) (r : UReg) (m v : Half) : (s.writeU i r m v).seq = s.seq := rfl
@[simp] theorem State.writeU_cmd (s : State) (i : Inst) (r : UReg) (m v : Half) : (s.writeU i r m v).cmd = s.cmd := rfl
@[simp] theorem State.writeU_desc (s : State) (i : Inst) (r : UReg) (m v : Half) : (s.writeU i r m v).desc = s.desc := rfl
@[simp] theorem State.writeU_flt (s : State) (i : Inst) (r : UReg) (m v : Half) : (s.writeU i r m v).flt = s.flt := rfl
@[simp] theorem State.writeU_uart (s : State) (i : Inst) (r : UReg) (m v : Half) : (s.writeU i r m v).uart = s.uart.put i ((s.u i).write r m v) := rfl
@[simp] theorem State.writeU_gpio (s : State) (i : Inst) (r : UReg) (m v : Half) : (s.writeU i r m v).gpio = s.gpio := rfl
@[simp] theorem State.writeU_mem (s : State) (i : Inst) (r : UReg) (m v : Half) : (s.writeU i r m v).mem = s.mem := rfl
@[simp] theorem State.writeU_txlog (s : State) (i : Inst) (r : UReg) (m v : Half) : (s.writeU i r m v).txlog = s.txlog := rfl
@[simp] theorem State.writeU_trace (s : State) (i : Inst) (r : UReg) (m v : Half) : (s.writeU i r m v).trace = s.trace := rfl
@[simp] theorem State.writeU_program (s : State) (i : Inst) (r : UReg) (m v : Half) : (s.writeU i r m v).program = s.program := rfl
@[simp] theorem State.writeU_env (s : State) (i : Inst) (r : UReg) (m v : Half) : (s.writeU i r m v).env = s.env := rfl

@[simp] theorem State.log_params (s : State) (e : TraceEntry) : (s.log e).params = s.params := rfl
@[simp] theorem State.log_seq (s : State) (e : TraceEntry) : (s.log e).seq = s.seq := rfl
@[simp] theorem State.log_cmd (s : State) (e : TraceEntry) : (s.log e).cmd = s.cmd := rfl
@[simp] theorem State.log_desc (s : State) (e : TraceEntry) : (s.log e).desc = s.desc := rfl
@[simp] theorem State.log_flt (s : State) (e : TraceEntry) : (s.log e).flt = s.flt := rfl
@[simp] theorem State.log_uart (s : State) (e : TraceEntry) : (s.log e).uart = s.uart := rfl
@[simp] theorem State.log_gpio (s : State) (e : TraceEntry) : (s.log e).gpio = s.gpio := rfl
@[simp] theorem State.log_mem (s : State) (e : TraceEntry) : (s.log e).mem = s.mem := rfl
@[simp] theorem State.log_txlog (s : State) (e : TraceEntry) : (s.log e).txlog = s.txlog := rfl
@[simp] theorem State.log_trace (s : State) (e : TraceEntry) : (s.log e).trace = s.trace ++ [e] := rfl
@[simp] theorem State.log_program (s : State) (e : TraceEntry) : (s.log e).program = s.program := rfl
@[simp] theorem State.log_env (s : State) (e : TraceEntry) : (s.log e).env = s.env := rfl

@[simp] theorem State.toIdle_params (s : State) : (s.toIdle).params = s.params := rfl
@[simp] theorem State.toIdle_seq (s : State) : (s.toIdle).seq = .idle := rfl
@[simp] theorem State.toIdle_cmd (s : State) : (s.toIdle).cmd = [] := rfl
@[simp] theorem State.toIdle_desc (s : State) : (s.toIdle).desc = s.desc := rfl
@[simp] theorem State.toIdle_flt (s : State) : (s.toIdle).flt = s.flt := rfl
@[simp] theorem State.toIdle_uart (s : State) : (s.toIdle).uart = s.uart := rfl
@[simp] theorem State.toIdle_gpio (s : State) : (s.toIdle).gpio = s.gpio := rfl
@[simp] theorem State.toIdle_mem (s : State) : (s.toIdle).mem = s.mem := rfl
@[simp] theorem State.toIdle_txlog (s : State) : (s.toIdle).txlog = s.txlog := rfl
@[simp] theorem State.toIdle_trace (s : State) : (s.toIdle).trace = s.trace := rfl
@[simp] theorem State.toIdle_program (s : State) : (s.toIdle).program = s.program := rfl
@[simp] theorem State.toIdle_env (s : State) : (s.toIdle).env = s.env := rfl

@[simp] theorem State.raise_params (s : State) (p : FaultPoint) (r : Raised) : (s.raise p r).params = s.params := rfl
@[simp] theorem State.raise_seq (s : State) (p : FaultPoint) (r : Raised) : (s.raise p r).seq = .faulted := rfl
@[simp] theorem State.raise_cmd (s : State) (p : FaultPoint) (r : Raised) : (s.raise p r).cmd = [] := rfl
@[simp] theorem State.raise_desc (s : State) (p : FaultPoint) (r : Raised) : (s.raise p r).desc = s.desc := rfl
@[simp] theorem State.raise_flt (s : State) (p : FaultPoint) (r : Raised) : (s.raise p r).flt = s.flt.record ⟨s.cmd, p, r.code, r.subject⟩ := rfl
@[simp] theorem State.raise_uart (s : State) (p : FaultPoint) (r : Raised) : (s.raise p r).uart = s.uart := rfl
@[simp] theorem State.raise_gpio (s : State) (p : FaultPoint) (r : Raised) : (s.raise p r).gpio = s.gpio := rfl
@[simp] theorem State.raise_mem (s : State) (p : FaultPoint) (r : Raised) : (s.raise p r).mem = s.mem := rfl
@[simp] theorem State.raise_txlog (s : State) (p : FaultPoint) (r : Raised) : (s.raise p r).txlog = s.txlog := rfl
@[simp] theorem State.raise_trace (s : State) (p : FaultPoint) (r : Raised) : (s.raise p r).trace = s.trace := rfl
@[simp] theorem State.raise_program (s : State) (p : FaultPoint) (r : Raised) : (s.raise p r).program = s.program := rfl
@[simp] theorem State.raise_env (s : State) (p : FaultPoint) (r : Raised) : (s.raise p r).env = s.env := rfl

@[simp] theorem State.writeByte_params (s : State) (a : Addr) (b : Byte) : (s.writeByte a b).params = s.params := rfl
@[simp] theorem State.writeByte_seq (s : State) (a : Addr) (b : Byte) : (s.writeByte a b).seq = s.seq := rfl
@[simp] theorem State.writeByte_cmd (s : State) (a : Addr) (b : Byte) : (s.writeByte a b).cmd = s.cmd := rfl
@[simp] theorem State.writeByte_desc (s : State) (a : Addr) (b : Byte) : (s.writeByte a b).desc = s.desc := rfl
@[simp] theorem State.writeByte_flt (s : State) (a : Addr) (b : Byte) : (s.writeByte a b).flt = s.flt := rfl
@[simp] theorem State.writeByte_uart (s : State) (a : Addr) (b : Byte) : (s.writeByte a b).uart = s.uart := rfl
@[simp] theorem State.writeByte_gpio (s : State) (a : Addr) (b : Byte) : (s.writeByte a b).gpio = s.gpio := rfl
@[simp] theorem State.writeByte_mem (s : State) (a : Addr) (b : Byte) : (s.writeByte a b).mem = sparsePut a.toNat b s.mem := rfl
@[simp] theorem State.writeByte_txlog (s : State) (a : Addr) (b : Byte) : (s.writeByte a b).txlog = s.txlog := rfl
@[simp] theorem State.writeByte_trace (s : State) (a : Addr) (b : Byte) : (s.writeByte a b).trace = s.trace := rfl
@[simp] theorem State.writeByte_program (s : State) (a : Addr) (b : Byte) : (s.writeByte a b).program = s.program := rfl
@[simp] theorem State.writeByte_env (s : State) (a : Addr) (b : Byte) : (s.writeByte a b).env = s.env := rfl

@[simp] theorem blockReset_params (s : State) : (blockReset s).params = s.params := rfl
@[simp] theorem blockReset_seq (s : State) : (blockReset s).seq = .idle := rfl
@[simp] theorem blockReset_cmd (s : State) : (blockReset s).cmd = [] := rfl
@[simp] theorem blockReset_desc (s : State) : (blockReset s).desc = none := rfl
@[simp] theorem blockReset_flt (s : State) : (blockReset s).flt = .clear := rfl
@[simp] theorem blockReset_uart (s : State) : (blockReset s).uart = s.uart := rfl
@[simp] theorem blockReset_gpio (s : State) : (blockReset s).gpio = s.gpio := rfl
@[simp] theorem blockReset_mem (s : State) : (blockReset s).mem = s.mem := rfl
@[simp] theorem blockReset_txlog (s : State) : (blockReset s).txlog = [] := rfl
@[simp] theorem blockReset_trace (s : State) : (blockReset s).trace = [] := rfl
@[simp] theorem blockReset_program (s : State) : (blockReset s).program = s.program := rfl
@[simp] theorem blockReset_env (s : State) : (blockReset s).env = s.env := rfl

@[simp] theorem State.putPort_params (s : State) (a : Addr) (g : GpioPort) : (s.putPort a g).params = s.params := by
  unfold State.putPort; split <;> rfl
@[simp] theorem State.putPort_seq (s : State) (a : Addr) (g : GpioPort) : (s.putPort a g).seq = s.seq := by
  unfold State.putPort; split <;> rfl
@[simp] theorem State.putPort_cmd (s : State) (a : Addr) (g : GpioPort) : (s.putPort a g).cmd = s.cmd := by
  unfold State.putPort; split <;> rfl
@[simp] theorem State.putPort_desc (s : State) (a : Addr) (g : GpioPort) : (s.putPort a g).desc = s.desc := by
  unfold State.putPort; split <;> rfl
@[simp] theorem State.putPort_flt (s : State) (a : Addr) (g : GpioPort) : (s.putPort a g).flt = s.flt := by
  unfold State.putPort; split <;> rfl
@[simp] theorem State.putPort_uart (s : State) (a : Addr) (g : GpioPort) : (s.putPort a g).uart = s.uart := by
  unfold State.putPort; split <;> rfl
@[simp] theorem State.putPort_mem (s : State) (a : Addr) (g : GpioPort) : (s.putPort a g).mem = s.mem := by
  unfold State.putPort; split <;> rfl
@[simp] theorem State.putPort_txlog (s : State) (a : Addr) (g : GpioPort) : (s.putPort a g).txlog = s.txlog := by
  unfold State.putPort; split <;> rfl
@[simp] theorem State.putPort_trace (s : State) (a : Addr) (g : GpioPort) : (s.putPort a g).trace = s.trace := by
  unfold State.putPort; split <;> rfl
@[simp] theorem State.putPort_program (s : State) (a : Addr) (g : GpioPort) : (s.putPort a g).program = s.program := by
  unfold State.putPort; split <;> rfl
@[simp] theorem State.putPort_env (s : State) (a : Addr) (g : GpioPort) : (s.putPort a g).env = s.env := by
  unfold State.putPort; split <;> rfl

theorem State.putPort_gpio (s : State) (a : Addr) (g : GpioPort) :
    (s.putPort a g).gpio = if g = .unwritten then sparseErase a.toNat s.gpio else sparsePut a.toNat g s.gpio := by
  unfold State.putPort; split <;> rfl

end Sys2Proof.Machine
end

