-- ==== Sys2Proof/Laws/Registers.lean ====
section
/-! SUPPORT. Registers with bits that may hold no value, register files and banks: read after write, and the canonical form. -/

namespace Sys2Proof.Machine

variable {w : Nat}

/-- A written bit holds the value written, every other bit what it held, a ⊥ bit included (R46). -/
theorem Reg.bit?_write (r : Reg w) (mask v : BitVec w) (b : Nat) :
    (r.write mask v).bit? b = if mask.getLsbD b then some (v.getLsbD b) else r.bit? b := by
  by_cases hm : mask.getLsbD b
  · have hlt := BitVec.lt_of_getLsbD hm
    simp only [Reg.bit?, Reg.write, BitVec.getLsbD_or, BitVec.getLsbD_and, BitVec.getLsbD_not, hm, hlt]
    simp
  · simp only [Reg.bit?, Reg.write, BitVec.getLsbD_or, BitVec.getLsbD_and, BitVec.getLsbD_not, hm]
    by_cases hlt : b < w
    · simp only [hlt]; simp
    · simp [BitVec.getLsbD_of_ge _ _ (Nat.le_of_not_lt hlt)]

/-- `x &&& ~~~k = 0` says that every bit of `x` lies in `k`. -/
theorem and_not_eq_zero_iff (x k : BitVec w) :
    x &&& ~~~k = 0 ↔ ∀ b, k.getLsbD b = false → x.getLsbD b = false := by
  constructor
  · intro h b hk
    have hb := congrArg (·.getLsbD b) h
    simp only [BitVec.getLsbD_and, BitVec.getLsbD_not, hk, Bool.not_false, Bool.and_true, BitVec.ofNat_eq_ofNat,
      BitVec.getLsbD_zero] at hb
    cases hx : x.getLsbD b with
    | false => rfl
    | true => rw [hx] at hb; simp [BitVec.lt_of_getLsbD hx] at hb
  · intro h
    apply BitVec.eq_of_getLsbD_eq
    intro b hlt
    have := h b
    simp only [BitVec.getLsbD_and, BitVec.getLsbD_not, hlt, decide_true, Bool.true_and, BitVec.ofNat_eq_ofNat,
      BitVec.getLsbD_zero]
    cases hk : k.getLsbD b <;> simp_all

theorem Reg.wf_iff (r : Reg w) : r.wf = true ↔ ∀ b, r.known.getLsbD b = false → r.val.getLsbD b = false := by
  rw [Reg.wf, decide_eq_true_iff]; exact and_not_eq_zero_iff _ _

/-- A write keeps the canonical form. -/
theorem Reg.wf_write (r : Reg w) (mask v : BitVec w) (h : r.wf = true) : (r.write mask v).wf = true := by
  rw [Reg.wf_iff] at *
  intro b hk
  have := h b
  simp only [Reg.write, BitVec.getLsbD_or, BitVec.getLsbD_and, BitVec.getLsbD_not, Bool.or_eq_false_iff] at *
  simp [hk.2, this hk.1]

theorem Reg.ext_bits {r r' : Reg w} (h : r.wf = true) (h' : r'.wf = true) (hb : ∀ b, r.bit? b = r'.bit? b) : r = r' := by
  rw [Reg.wf_iff] at h h'
  obtain ⟨v, k⟩ := r
  obtain ⟨v', k'⟩ := r'
  simp only [Reg.bit?] at *
  have hk : k = k' := by
    apply BitVec.eq_of_getLsbD_eq
    intro b _
    have := hb b
    cases h1 : k.getLsbD b <;> cases h2 : k'.getLsbD b <;> simp_all
  subst hk
  have hv : v = v' := by
    apply BitVec.eq_of_getLsbD_eq
    intro b _
    have h1 := hb b
    have h2 := h b
    have h3 := h' b
    cases hk : k.getLsbD b <;> simp_all
  rw [hv]

@[simp] theorem UartRegs.get_put_same (u : UartRegs) (r : UReg) (x : Reg 16) : (u.put r x).get r = x := by
  cases r <;> rfl

theorem UartRegs.get_put_ne (u : UartRegs) {r r' : UReg} (x : Reg 16) (h : r' ≠ r) : (u.put r x).get r' = u.get r' := by
  cases r <;> cases r' <;> first | rfl | exact absurd rfl h

@[simp] theorem UartRegs.put_busy (u : UartRegs) (r : UReg) (x : Reg 16) : (u.put r x).busy = u.busy := by
  cases r <;> rfl

@[simp] theorem UartRegs.write_busy (u : UartRegs) (r : UReg) (m v : Half) : (u.write r m v).busy = u.busy :=
  u.put_busy r _

theorem UartRegs.get_write_same (u : UartRegs) (r : UReg) (m v : Half) :
    (u.write r m v).get r = (u.get r).write (m &&& r.modelled) v := u.get_put_same r _

theorem UartRegs.get_write_ne (u : UartRegs) {r r' : UReg} (m v : Half) (h : r' ≠ r) :
    (u.write r m v).get r' = u.get r' := u.get_put_ne _ h

theorem UartRegs.swrst_eq (u : UartRegs) : u.swrst = (u.get .ctlw0).bit? 0 := rfl

theorem UartRegs.txie_eq (u : UartRegs) : u.txie = (u.get .ie).bit? 1 := rfl

theorem UartRegs.txifg_eq (u : UartRegs) : u.txifg = (u.get .ifg).bit? 1 := rfl

/-- Two register files that hold the same registers and the same BUSY are equal. -/
theorem UartRegs.ext_get {u u' : UartRegs} (h : ∀ r, u.get r = u'.get r) (hb : u.busy = u'.busy) : u = u' := by
  have h1 := h .ctlw0
  have h2 := h .brw
  have h3 := h .mctlw
  have h4 := h .txbuf
  have h5 := h .ie
  have h6 := h .ifg
  cases u
  cases u'
  simp_all [UartRegs.get]

theorem inst_cases (i : Inst) : i = 0 ∨ i = 1 ∨ i = 2 ∨ i = 3 := by
  revert i; decide

@[simp] theorem UartBank.get_put_same (k : UartBank) (i : Inst) (x : UartRegs) : (k.put i x).get i = x := by
  rcases inst_cases i with h | h | h | h <;> subst h <;> rfl

theorem UartBank.get_put_ne (k : UartBank) {i j : Inst} (x : UartRegs) (h : j ≠ i) : (k.put i x).get j = k.get j := by
  rcases inst_cases i with hi | hi | hi | hi <;> rcases inst_cases j with hj | hj | hj | hj <;> subst hi <;> subst hj <;>
    first | rfl | exact absurd rfl h

@[simp] theorem UartBank.put_put_same (k : UartBank) (i : Inst) (x y : UartRegs) : (k.put i x).put i y = k.put i y := by
  rcases inst_cases i with h | h | h | h <;> subst h <;> rfl

@[simp] theorem UartBank.put_get_same (k : UartBank) (i : Inst) : k.put i (k.get i) = k := by
  rcases inst_cases i with h | h | h | h <;> subst h <;> rfl

theorem UartBank.wf_iff (k : UartBank) : k.wf = true ↔ ∀ i, (k.get i).wf = true := by
  have h0 : k.get 0 = k.u0 := rfl
  have h1 : k.get 1 = k.u1 := rfl
  have h2 : k.get 2 = k.u2 := rfl
  have h3 : k.get 3 = k.u3 := rfl
  simp only [UartBank.wf, Bool.and_eq_true]
  constructor
  · rintro ⟨⟨⟨e0, e1⟩, e2⟩, e3⟩ i
    rcases inst_cases i with hi | hi | hi | hi <;> subst hi <;> assumption
  · intro h
    exact ⟨⟨⟨h0 ▸ h 0, h1 ▸ h 1⟩, h2 ▸ h 2⟩, h3 ▸ h 3⟩

theorem UartBank.wf_put (k : UartBank) (i : Inst) (x : UartRegs) (hk : k.wf = true) (hx : x.wf = true) :
    (k.put i x).wf = true := by
  refine (UartBank.wf_iff _).2 fun j => ?_
  by_cases h : j = i
  · subst h; rw [UartBank.get_put_same]; exact hx
  · rw [k.get_put_ne x h]; exact (UartBank.wf_iff k).1 hk j

theorem UartRegs.wf_iff (u : UartRegs) :
    u.wf = true ↔ ∀ r, (u.get r).wf = true ∧ (u.get r).known &&& ~~~r.modelled = 0 := by
  have hall : ∀ x : Half, x &&& ~~~0xFFFF#16 = 0 := fun x => by
    rw [show ~~~0xFFFF#16 = 0#16 from by decide]; exact BitVec.and_zero
  simp only [UartRegs.wf, Bool.and_eq_true, decide_eq_true_eq]
  constructor
  · rintro ⟨⟨⟨⟨⟨⟨⟨⟨h1, h2⟩, h3⟩, h4⟩, h5⟩, h6⟩, h7⟩, h8⟩, h9⟩ r
    cases r
    · exact ⟨h1, hall _⟩
    · exact ⟨h2, hall _⟩
    · exact ⟨h3, hall _⟩
    · exact ⟨h4, h7⟩
    · exact ⟨h5, h8⟩
    · exact ⟨h6, h9⟩
  · intro h
    exact ⟨⟨⟨⟨⟨⟨⟨⟨(h .ctlw0).1, (h .brw).1⟩, (h .mctlw).1⟩, (h .txbuf).1⟩, (h .ie).1⟩, (h .ifg).1⟩, (h .txbuf).2⟩,
      (h .ie).2⟩, (h .ifg).2⟩

/-- A register write keeps the register file canonical. -/
theorem UartRegs.wf_write (u : UartRegs) (r : UReg) (m v : Half) (h : u.wf = true) : (u.write r m v).wf = true := by
  rw [UartRegs.wf_iff] at *
  intro r'
  by_cases hr : r' = r
  · subst hr
    rw [UartRegs.get_write_same]
    refine ⟨Reg.wf_write _ _ _ (h _).1, ?_⟩
    have hk := (and_not_eq_zero_iff _ _).1 (h r').2
    refine (and_not_eq_zero_iff _ _).2 fun b hb => ?_
    simp [Reg.write, hk b hb, hb]
  · rw [UartRegs.get_write_ne _ _ _ hr]; exact h r'

theorem UartRegs.wf_busy (u : UartRegs) (b : Bool) (h : u.wf = true) : ({ u with busy := b } : UartRegs).wf = true := h

theorem UartRegs.wf_transmit (u : UartRegs) (b : Byte) (h : u.wf = true) : (u.transmit b).wf = true :=
  UartRegs.wf_busy _ _ (UartRegs.wf_write _ _ _ _ (UartRegs.wf_write _ _ _ _ h))

/-- After `TxWrite` (R67): TXIFG is 0, BUSY is 1, CTLW0 and IE are as before. -/
theorem UartRegs.transmit_spec (u : UartRegs) (b : Byte) :
    (u.transmit b).txifg = some false ∧ (u.transmit b).busy = true ∧ (u.transmit b).txie = u.txie ∧
      (u.transmit b).swrst = u.swrst := by
  refine ⟨?_, rfl, ?_, ?_⟩
  · show (((u.write .txbuf _ _).write .ifg 0x0002 0).get .ifg).bit? 1 = _
    rw [UartRegs.get_write_same, Reg.bit?_write]
    simp [UReg.modelled]
  · rfl
  · rfl

end Sys2Proof.Machine
end

