-- ==== Sys2Proof/Laws/Sparse.lean ====
section
/-! SUPPORT. The sparse lists behind data memory and the GPIO ports: read after write, every other place unchanged, and the
canonical form kept by every operation. -/

namespace Sys2Proof.Machine

variable {α : Type}

@[simp] theorem sparseGet_put_same (k : Nat) (v : α) (l : List (Nat × α)) : sparseGet k (sparsePut k v l) = some v := by
  induction l with
  | nil => simp [sparsePut, sparseGet]
  | cons c l ih =>
    obtain ⟨k', v'⟩ := c
    simp only [sparsePut]
    split
    · simp [sparseGet]
    · split
      · simp [sparseGet]
      · rename_i h; simp [sparseGet, h, ih]

theorem sparseGet_put_ne {k k' : Nat} (v : α) (l : List (Nat × α)) (h : k' ≠ k) :
    sparseGet k' (sparsePut k v l) = sparseGet k' l := by
  induction l with
  | nil => simp [sparsePut, sparseGet, h]
  | cons c l ih =>
    obtain ⟨q, v'⟩ := c
    simp only [sparsePut]
    split
    · simp [sparseGet, h]
    · split
      · subst_vars; simp [sparseGet, h]
      · simp [sparseGet, ih]

@[simp] theorem sparseGet_erase_same (k : Nat) (l : List (Nat × α)) : sparseGet k (sparseErase k l) = none := by
  induction l with
  | nil => rfl
  | cons c l ih =>
    obtain ⟨q, v'⟩ := c
    simp only [sparseErase]
    split
    · exact ih
    · rename_i h; simp [sparseGet, h, ih]

theorem sparseGet_erase_ne {k k' : Nat} (l : List (Nat × α)) (h : k' ≠ k) :
    sparseGet k' (sparseErase k l) = sparseGet k' l := by
  induction l with
  | nil => rfl
  | cons c l ih =>
    obtain ⟨q, v'⟩ := c
    simp only [sparseErase]
    split
    · subst_vars; simp [sparseGet, h, ih]
    · simp [sparseGet, ih]

theorem sparseSorted_cons (c : Nat × α) (l : List (Nat × α)) :
    sparseSorted (c :: l) = true ↔ (∀ d ∈ l, c.1 < d.1) ∧ sparseSorted l = true := by
  induction l generalizing c with
  | nil => simp [sparseSorted]
  | cons d l ih =>
    obtain ⟨k, v⟩ := c
    obtain ⟨k', v'⟩ := d
    simp only [sparseSorted, Bool.and_eq_true, decide_eq_true_eq, List.mem_cons, forall_eq_or_imp]
    constructor
    · rintro ⟨h1, h2⟩
      exact ⟨⟨h1, fun e he => lt_trans h1 (((ih _).1 h2).1 e he)⟩, h2⟩
    · rintro ⟨⟨h1, _⟩, h2⟩
      exact ⟨h1, h2⟩

theorem mem_sparsePut {k : Nat} {v : α} {l : List (Nat × α)} {d : Nat × α} (h : d ∈ sparsePut k v l) :
    d = (k, v) ∨ d ∈ l := by
  induction l with
  | nil => simpa [sparsePut] using h
  | cons c l ih =>
    obtain ⟨q, v'⟩ := c
    simp only [sparsePut] at h
    split at h
    · simpa using h
    · split at h
      · simp only [List.mem_cons] at h ⊢; tauto
      · simp only [List.mem_cons] at h ⊢; tauto

theorem mem_sparseErase {k : Nat} {l : List (Nat × α)} {d : Nat × α} (h : d ∈ sparseErase k l) : d ∈ l := by
  induction l with
  | nil => simp [sparseErase] at h
  | cons c l ih =>
    obtain ⟨q, v'⟩ := c
    simp only [sparseErase] at h
    split at h
    · exact List.mem_cons_of_mem _ (ih h)
    · simp only [List.mem_cons] at h ⊢; tauto

theorem sparseSorted_put (k : Nat) (v : α) (l : List (Nat × α)) (h : sparseSorted l = true) :
    sparseSorted (sparsePut k v l) = true := by
  induction l with
  | nil => rfl
  | cons c l ih =>
    obtain ⟨q, v'⟩ := c
    have hc := (sparseSorted_cons _ _).1 h
    simp only [sparsePut]
    split
    · rename_i hlt
      refine (sparseSorted_cons _ _).2 ⟨?_, h⟩
      intro d hd
      rcases List.mem_cons.1 hd with rfl | hd
      · exact hlt
      · exact lt_trans hlt (hc.1 d hd)
    · split
      · subst_vars; exact (sparseSorted_cons _ _).2 hc
      · rename_i h1 h2
        refine (sparseSorted_cons _ _).2 ⟨?_, ih hc.2⟩
        intro d hd
        rcases mem_sparsePut hd with rfl | hd
        · show q < k
          omega
        · exact hc.1 d hd

theorem sparseSorted_erase (k : Nat) (l : List (Nat × α)) (h : sparseSorted l = true) :
    sparseSorted (sparseErase k l) = true := by
  induction l with
  | nil => rfl
  | cons c l ih =>
    obtain ⟨q, v'⟩ := c
    have hc := (sparseSorted_cons _ _).1 h
    simp only [sparseErase]
    split
    · exact ih hc.2
    · exact (sparseSorted_cons _ _).2 ⟨fun d hd => hc.1 d (mem_sparseErase hd), ih hc.2⟩

/-- A byte written keeps the memory canonical. -/
theorem Memory.wf_put (a : Addr) (b : Byte) (m : List Host.Cell) (h : Memory.wf m = true) :
    Memory.wf (sparsePut a.toNat b m) = true := by
  simp only [Memory.wf, Bool.and_eq_true, List.all_eq_true, decide_eq_true_eq] at *
  refine ⟨sparseSorted_put _ _ _ h.1, ?_⟩
  intro c hc
  rcases mem_sparsePut hc with rfl | hc
  · exact a.isLt
  · exact h.2 c hc

/-- The launch states list no byte and no port. -/
theorem Memory.wf_reset : Memory.wf State.reset.mem = true ∧ Gpio.wf State.reset.gpio = true ∧
    Memory.wf State.resetPor.mem = true ∧ Gpio.wf State.resetPor.gpio = true := by decide

theorem Gpio.wf_iff (g : List (Nat × GpioPort)) :
    Gpio.wf g = true ↔ sparseSorted g = true ∧ ∀ c ∈ g, c.1 < 2 ^ 32 ∧ c.2 ≠ GpioPort.unwritten ∧ c.2.wf = true := by
  simp [Gpio.wf, List.all_eq_true, and_assoc]

/-- A port replaced keeps the list of ports canonical. -/
theorem State.gpio_wf_putPort (s : State) (a : Addr) (g : GpioPort) (h : Gpio.wf s.gpio = true) (hg : g.wf = true) :
    Gpio.wf (s.putPort a g).gpio = true := by
  rw [State.putPort_gpio]
  rw [Gpio.wf_iff] at *
  split
  · exact ⟨sparseSorted_erase _ _ h.1, fun c hc => h.2 c (mem_sparseErase hc)⟩
  · rename_i hne
    refine ⟨sparseSorted_put _ _ _ h.1, ?_⟩
    intro c hc
    rcases mem_sparsePut hc with rfl | hc
    · exact ⟨a.isLt, hne, hg⟩
    · exact h.2 c hc

@[simp] theorem State.port_putPort_same (s : State) (a : Addr) (g : GpioPort) : (s.putPort a g).port a = g := by
  unfold State.port
  rw [State.putPort_gpio]
  split <;> simp_all

theorem State.port_putPort_ne (s : State) {a a' : Addr} (g : GpioPort) (h : a' ≠ a) :
    (s.putPort a g).port a' = s.port a' := by
  have hn : a'.toNat ≠ a.toNat := fun e => h (BitVec.eq_of_toNat_eq e)
  unfold State.port
  rw [State.putPort_gpio]
  split
  · rw [sparseGet_erase_ne _ hn]
  · rw [sparseGet_put_ne _ _ hn]

/-- A port of a canonical list is canonical. -/
theorem State.port_wf (s : State) (a : Addr) (h : Gpio.wf s.gpio = true) : (s.port a).wf = true := by
  rw [Gpio.wf_iff] at h
  unfold State.port
  cases hg : sparseGet a.toNat s.gpio with
  | none => decide
  | some g =>
    have hmem : ∀ l : List (Nat × GpioPort), sparseGet a.toNat l = some g → (a.toNat, g) ∈ l := by
      intro l
      induction l with
      | nil => simp [sparseGet]
      | cons c l ih =>
        obtain ⟨q, v'⟩ := c
        simp only [sparseGet]
        split
        · rintro h; simp_all
        · intro h; exact List.mem_cons_of_mem _ (ih h)
    exact (h.2 _ (hmem _ hg)).2.2

@[simp] theorem State.readByte_writeByte_same (s : State) (a : Addr) (b : Byte) : (s.writeByte a b).readByte a = b := by
  simp [State.readByte]

theorem State.readByte_writeByte_ne (s : State) {a a' : Addr} (b : Byte) (h : a' ≠ a) :
    (s.writeByte a b).readByte a' = s.readByte a' := by
  have hn : a'.toNat ≠ a.toNat := fun e => h (BitVec.eq_of_toNat_eq e)
  simp [State.readByte, sparseGet_put_ne _ _ hn]

@[simp] theorem GpioPort.get_put_same (g : GpioPort) (r : GReg) (x : Reg 8) : (g.put r x).get r = x := by
  cases r <;> rfl

theorem GpioPort.get_put_ne (g : GpioPort) {r r' : GReg} (x : Reg 8) (h : r' ≠ r) : (g.put r x).get r' = g.get r' := by
  cases r <;> cases r' <;> first | rfl | exact absurd rfl h

theorem GpioPort.wf_iff (g : GpioPort) : g.wf = true ↔ ∀ r, (g.get r).wf = true := by
  simp only [GpioPort.wf, Bool.and_eq_true]
  constructor
  · rintro ⟨⟨h1, h2⟩, h3⟩ r
    cases r <;> simp_all [GpioPort.get]
  · intro h
    exact ⟨⟨h .dir, h .sel0⟩, h .sel1⟩

theorem GpioPort.wf_put (g : GpioPort) (r : GReg) (x : Reg 8) (h : g.wf = true) (hx : x.wf = true) :
    (g.put r x).wf = true := by
  rw [GpioPort.wf_iff] at *
  intro r'
  by_cases hr : r' = r
  · subst hr; simpa using hx
  · rw [GpioPort.get_put_ne _ _ hr]; exact h r'

end Sys2Proof.Machine
end

