-- ==== Sys2Proof/Laws/Ops.lean ====
section
/-! SUPPORT. One lemma per shared operation: everything it can do. -/

namespace Sys2Proof.Machine

@[simp] theorem State.u_putU_same (s : State) (i : Inst) (x : UartRegs) : (s.putU i x).u i = x := by
  simp [State.u]

theorem State.u_putU_ne (s : State) {i j : Inst} (x : UartRegs) (h : j ≠ i) : (s.putU i x).u j = s.u j := by
  simp [State.u, UartBank.get_put_ne _ _ h]

@[simp] theorem State.u_writeU_same (s : State) (i : Inst) (r : UReg) (m v : Half) :
    (s.writeU i r m v).u i = (s.u i).write r m v := s.u_putU_same i _

theorem State.u_writeU_ne (s : State) {i j : Inst} (r : UReg) (m v : Half) (h : j ≠ i) :
    (s.writeU i r m v).u j = s.u j := s.u_putU_ne _ h

@[simp] theorem State.u_log (s : State) (e : TraceEntry) (i : Inst) : (s.log e).u i = s.u i := rfl

@[simp] theorem State.u_toIdle (s : State) (i : Inst) : s.toIdle.u i = s.u i := rfl

@[simp] theorem State.u_raise (s : State) (p : FaultPoint) (r : Raised) (i : Inst) : (s.raise p r).u i = s.u i := rfl

@[simp] theorem State.u_putPort (s : State) (a : Addr) (g : GpioPort) (i : Inst) : (s.putPort a g).u i = s.u i := by
  simp [State.u]

@[simp] theorem State.u_blockReset (s : State) (i : Inst) : (blockReset s).u i = s.u i := rfl

@[simp] theorem State.port_log (s : State) (e : TraceEntry) (a : Addr) : (s.log e).port a = s.port a := rfl

@[simp] theorem State.port_putU (s : State) (i : Inst) (x : UartRegs) (a : Addr) : (s.putU i x).port a = s.port a := rfl

/-- Acceptance (R91): IDLE is left for the entry state, and the command is noted; nothing else changes. -/
theorem State.accept_eq_next {s t : State} {i : Instr} {q : Seq} :
    s.accept i q = .next t ↔ s.seq = .idle ∧ t = { s with seq := q, cmd := encode i } := by
  unfold State.accept
  split <;> simp_all [eq_comm]

theorem State.accept_idle {s : State} (i : Instr) (q : Seq) (h : s.seq = .idle) :
    s.accept i q = .next { s with seq := q, cmd := encode i } := State.accept_eq_next.2 ⟨h, rfl⟩

theorem State.accept_ne_fault {s : State} {i : Instr} {q : Seq} {f : Fault} : s.accept i q ≠ .fault f := by
  unfold State.accept
  split <;> simp

/-- The entry state of each command (R92); INITIALIZE has one only with a descriptor. -/
def entryOf (s : State) : Instr → Option Seq
  | .construct d => some (.exec [.latchDesc d] 0)
  | .constructDefault => some (.exec [.latchDesc (defaultDesc s.params)] 0)
  | .initializeCmd => s.desc.map fun d => .exec (initOps s.params d) 0
  | .configurePins port mask => some (.exec (pinOps port mask) 0)
  | .applyBaud inst index => some (.exec (baudOps (setterTarget s.params inst) index) 0)
  | .setClock inst code => some (.exec (clockOps (setterTarget s.params inst) code) 0)
  | .setBitOrder inst v => some (.exec (bitOrderOps (setterTarget s.params inst) v) 0)
  | .setStopBits inst v => some (.exec (stopBitsOps (setterTarget s.params inst) v) 0)
  | .setParity inst v => some (.exec (parityOps (setterTarget s.params inst) v) 0)
  | .setCharLen inst v => some (.exec (charLenOps (setterTarget s.params inst) v) 0)
  | .setSync inst v => some (.exec (syncOps (setterTarget s.params inst) v) 0)
  | .setOversample inst v => some (.exec (oversampleOps (setterTarget s.params inst) v) 0)
  | .setRxeie inst v => some (.exec (rxeieOps (setterTarget s.params inst) v) 0)
  | .setBrkie inst v => some (.exec (brkieOps (setterTarget s.params inst) v) 0)
  | .enable inst => some (.exec [.bitWrite inst .ctlw0 0 false] 0)
  | .disable inst => some (.exec [.bitWrite inst .ctlw0 0 true] 0)
  | .sendByte inst byte => some (.sbCheck inst byte .done)
  | .sendString inst ptr => some (.ssFetch inst ptr)
  | .clearFlags inst => some (.exec [.fieldWrite (setterTarget s.params inst) .ctlw0 (clearFlagsMask s.params) 0] 0)

/-- Everything the acceptance of a command can do in IDLE: enter `entryOf`, or, with no descriptor, raise NO_DESCRIPTOR. -/
theorem exec_idle (i : Instr) (s : State) (h : s.seq = .idle) :
    exec i s = .next (match entryOf s i with
      | some q => { s with seq := q, cmd := encode i }
      | none => s.rejectCommand (encode .initializeCmd) .noDescriptor) := by
  cases i
  case initializeCmd =>
    simp only [exec, execInitialize, entryOf]
    cases hd : s.desc with
    | none => simp [h]
    | some d => simp [State.accept, h, hd]
  all_goals exact State.accept_idle _ _ h

/-- No command is accepted outside IDLE (R91). -/
theorem exec_busy (i : Instr) (s : State) (h : s.seq ≠ .idle) : exec i s = .refused .portNotReady := by
  cases i
  case initializeCmd =>
    simp only [exec, execInitialize]
    cases hd : s.desc <;> simp [State.accept, h]
  all_goals exact if_neg h

/-- The inversion of acceptance. -/
theorem exec_eq_next {i : Instr} {s t : State} (h : exec i s = .next t) :
    s.seq = .idle ∧ ((∃ q, entryOf s i = some q ∧ t = { s with seq := q, cmd := encode i }) ∨
      (i = .initializeCmd ∧ s.desc = none ∧ t = s.rejectCommand (encode .initializeCmd) .noDescriptor)) := by
  by_cases hs : s.seq = .idle
  · refine ⟨hs, ?_⟩
    rw [exec_idle i s hs] at h
    cases he : entryOf s i with
    | some q =>
      rw [he] at h
      exact .inl ⟨q, rfl, (Host.Outcome.next.inj h).symm⟩
    | none =>
      rw [he] at h
      refine .inr ⟨?_, ?_, (Host.Outcome.next.inj h).symm⟩
      · cases i <;> first | rfl | simp [entryOf] at he
      · cases i <;> simp_all [entryOf]
  · rw [exec_busy i s hs] at h
    cases h

/-- The entry state is never FAULTED and never IDLE. -/
theorem entryOf_seq {s : State} {i : Instr} {q : Seq} (h : entryOf s i = some q) : q ≠ .faulted ∧ q ≠ .idle := by
  cases i
  case initializeCmd =>
    simp only [entryOf, Option.map_eq_some_iff] at h
    obtain ⟨d, _, rfl⟩ := h
    exact ⟨by simp, by simp⟩
  all_goals
    simp only [entryOf, Option.some.injEq] at h
    subst h
    exact ⟨by simp, by simp⟩

theorem guarded_eq_ok {s act t : State} {i : Inst} {op : MicroOp} :
    guarded s i op act = .ok t ↔ writeGuard s i op = none ∧ t = act := by
  unfold guarded
  cases writeGuard s i op <;> simp [eq_comm]

/-- The guards of a write, as one chain (R218). -/
theorem writeGuard_eq_none {s : State} {i : Inst} {op : MicroOp} :
    writeGuard s i op = none ↔ s.hasInst i = true ∧ (op.isSetterWrite = true → (s.u i).busy = false) ∧
      (op.isConfigWrite = true → s.params.activePolicy = .allow ∨ (s.u i).swrst = some true) := by
  unfold writeGuard instGuard activeGuard
  cases s.hasInst i
  · simp
  · cases hb : (s.u i).busy <;> cases hs : op.isSetterWrite <;> cases hc : op.isConfigWrite <;>
      cases hp : s.params.activePolicy <;> rcases hw : (s.u i).swrst with _ | _ | _ <;> simp

/-- What a micro-operation that is performed writes: the fields it may change, each from its own inputs. -/
inductive Wrote (s : State) : MicroOp → State → Prop where
  | latchDesc (d : Descriptor) : Wrote s (.latchDesc d) { s with desc := some d }
  | bitWrite (i : Inst) (r : UReg) (b : Fin 16) (v : Bool) (h : writeGuard s i (.bitWrite i r b v) = none) :
      Wrote s (.bitWrite i r b v) ((s.writeU i r (bitMask b) (bitAt b v)).log (.bw i r b v))
  | fieldWrite (i : Inst) (r : UReg) (mask v : Half) (h : writeGuard s i (.fieldWrite i r mask v) = none) :
      Wrote s (.fieldWrite i r mask v)
        ((s.writeU i r mask v).log (.fw i r mask (((s.u i).write r mask v).get r)))
  | regWrite (i : Inst) (r : UReg) (v : Half) (h : writeGuard s i (.regWrite i r v) = none) :
      Wrote s (.regWrite i r v) ((s.writeU i r 0xFFFF v).log (.rw i r v))
  | gpioClr (a : Addr) (r : GReg) (m : Byte) (h : validPort s.params a = true) :
      Wrote s (.gpioClr a r m) ((s.putPort a ((s.port a).put r (((s.port a).get r).write m 0))).log
        (.gc a r (((s.port a).get r).write m 0)))
  | gpioSet (a : Addr) (r : GReg) (m : Byte) (h : validPort s.params a = true) :
      Wrote s (.gpioSet a r m) ((s.putPort a ((s.port a).put r (((s.port a).get r).write m m))).log
        (.gs a r (((s.port a).get r).write m m)))

/-- Everything a performed micro-operation can do (R63 to R68). -/
theorem perform_ok {op : MicroOp} {s t : State} : perform op s = .ok t ↔ Wrote s op t := by
  constructor
  · intro h
    cases op with
    | latchDesc d => obtain rfl := Performed.ok.inj h; exact .latchDesc d
    | bitWrite i r b v => obtain ⟨hg, rfl⟩ := guarded_eq_ok.1 h; exact .bitWrite i r b v hg
    | fieldWrite i r mask v =>
      obtain ⟨hg, rfl⟩ := guarded_eq_ok.1 h
      rw [State.u_writeU_same]
      exact .fieldWrite i r mask v hg
    | regWrite i r v => obtain ⟨hg, rfl⟩ := guarded_eq_ok.1 h; exact .regWrite i r v hg
    | gpioClr a r m =>
      simp only [perform, gpioClrOp, gpioRmw] at h
      split at h
      · obtain rfl := Performed.ok.inj h; exact .gpioClr a r m ‹_›
      · cases h
    | gpioSet a r m =>
      simp only [perform, gpioSetOp, gpioRmw] at h
      split at h
      · obtain rfl := Performed.ok.inj h; exact .gpioSet a r m ‹_›
      · cases h
  · intro h
    cases h with
    | latchDesc d => rfl
    | bitWrite i r b v hg => exact guarded_eq_ok.2 ⟨hg, rfl⟩
    | fieldWrite i r mask v hg => exact guarded_eq_ok.2 ⟨hg, by rw [State.u_writeU_same]⟩
    | regWrite i r v hg => exact guarded_eq_ok.2 ⟨hg, rfl⟩
    | gpioClr a r m hv => simp [perform, gpioClrOp, gpioRmw, hv]
    | gpioSet a r m hv => simp [perform, gpioSetOp, gpioRmw, hv]

/-- What no micro-operation changes: the parameters, the sequencer and its command, the fault record, data memory, the
transmit log, the program and the schedule. -/
theorem Wrote.frame {op : MicroOp} {s t : State} (h : Wrote s op t) :
    t.params = s.params ∧ t.seq = s.seq ∧ t.cmd = s.cmd ∧ t.flt = s.flt ∧ t.mem = s.mem ∧ t.txlog = s.txlog ∧
      t.program = s.program ∧ t.env = s.env := by
  cases h <;> simp

/-- A performed micro-operation keeps every list and register canonical. -/
theorem Wrote.canonical {op : MicroOp} {s t : State} (h : Wrote s op t) (hu : s.uart.wf = true)
    (hg : Gpio.wf s.gpio = true) : t.uart.wf = true ∧ Gpio.wf t.gpio = true := by
  have hput : ∀ i r m v, (s.uart.put i ((s.u i).write r m v)).wf = true := fun i r m v =>
    UartBank.wf_put _ _ _ hu (UartRegs.wf_write _ _ _ _ ((UartBank.wf_iff _).1 hu i))
  have hport : ∀ a r m v, Gpio.wf (s.putPort a ((s.port a).put r (((s.port a).get r).write m v))).gpio = true :=
    fun a r m v => s.gpio_wf_putPort a _ hg (GpioPort.wf_put _ _ _ (s.port_wf a hg)
      (Reg.wf_write _ _ _ ((GpioPort.wf_iff _).1 (s.port_wf a hg) r)))
  cases h with
  | latchDesc d => exact ⟨hu, hg⟩
  | bitWrite i r b v _ => exact ⟨hput _ _ _ _, hg⟩
  | fieldWrite i r mask v _ => exact ⟨hput _ _ _ _, hg⟩
  | regWrite i r v _ => exact ⟨hput _ _ _ _, hg⟩
  | gpioClr a r m _ => exact ⟨by simpa using hu, hport _ _ _ _⟩
  | gpioSet a r m _ => exact ⟨by simpa using hu, hport _ _ _ _⟩

/-- Everything `TestBit` can answer with a value (R66). -/
theorem testBitOp_ok {i : Inst} {r : UReg} {b : Fin 16} {s t : State} {v : Bool} :
    testBitOp i r b s = .ok (v, t) ↔
      s.hasInst i = true ∧ ((s.u i).get r).bit? b.val = some v ∧ t = s.log (.tb i r b v) := by
  unfold testBitOp instGuard
  cases s.hasInst i
  · simp
  · cases hb : ((s.u i).get r).bit? b.val with
    | none => simp
    | some x =>
      simp only [if_true, Except.ok.injEq, Prod.mk.injEq, true_and, Option.some.injEq]
      constructor
      · rintro ⟨rfl, rfl⟩; exact ⟨rfl, rfl⟩
      · rintro ⟨rfl, rfl⟩; exact ⟨rfl, rfl⟩

/-- Everything `TxWrite` can do (R67). -/
theorem txWriteOp_ok {i : Inst} {b : Byte} {s t : State} :
    txWriteOp i b s = .ok t ↔ s.hasInst i = true ∧
      t = { s with
        uart := s.uart.put i ((s.u i).transmit b)
        txlog := s.txlog ++ [⟨i, b, (s.u i).txifg, (s.u i).swrst⟩]
        trace := s.trace ++ [.tx i b] } := by
  unfold txWriteOp instGuard
  cases s.hasInst i
  · simp
  · simp [State.putU, State.log, eq_comm]

/-- Recording a fault sets exactly the bit of its code and its info (R211). -/
theorem FaultRecord.bit_record (f : FaultRecord) (info : FaultInfo) (c : FaultCode) :
    (f.record info).bit c = (decide (c = info.code) || f.bit c) := by
  obtain ⟨cmd, pt, code, sub⟩ := info
  cases code <;> cases c <;> rfl

@[simp] theorem FaultRecord.info_record (f : FaultRecord) (info : FaultInfo) : (f.record info).info = some info := by
  obtain ⟨cmd, pt, code, sub⟩ := info
  cases code <;> rfl

end Sys2Proof.Machine
end

