-- ==== Sys2Proof/Laws/Step.lean ====
section
/-! SUPPORT. Everything one step of the machine can do, said once (`Move`), and the runs of a fixed micro-operation list. -/

namespace Sys2Proof.Machine

open Sys2Proof.Safety

/-- One elementary move of one agent, from a state whose schedule has already been advanced. -/
inductive Move (s : State) : State → Prop where
  /-- The environment's TxReady (R224), as an event, a line or by fairness. -/
  | ready (i : Inst) (rest : List Line) (hi : s.hasInst i = true) (h : rest = s.program ∨ s.seq = .idle) :
      Move s (txReady i { s with program := rest })
  /-- The environment's TxDone (R224), as an event or a line. -/
  | done (i : Inst) (rest : List Line) (he : txDoneEnabled s i = true) (h : rest = s.program ∨ s.seq = .idle) :
      Move s (txDone i { s with program := rest })
  /-- Block reset (R240). -/
  | reset : Move s (blockReset s)
  /-- Nothing happens: the block waits in IDLE, or the scheduled event is not enabled. -/
  | wait : Move s s
  /-- A command is accepted (R91, R92). -/
  | entered (i : Instr) (ws : List Word) (rest : List Line) (q : Seq) (hs : s.seq = .idle)
      (hp : s.program = .command ws :: rest) (hd : decode s.params.setterMode ws = .ok i) (hq : entryOf s i = some q) :
      Move s { s with program := rest, seq := q, cmd := encode i }
  /-- A command is rejected at acceptance (R213, R214). -/
  | rejected (ws : List Word) (rest : List Line) (c : List Word) (code : FaultCode) (hs : s.seq = .idle)
      (hp : s.program = .command ws :: rest) :
      Move s (({ s with program := rest } : State).rejectCommand c code)
  /-- A host write of a UART register between commands (R226). -/
  | hostUart (i : Inst) (r : HostReg) (mask v : Half) (rest : List Line) (hs : s.seq = .idle)
      (hp : s.program = .hostUart i r mask v :: rest) : Move s (hostUart i r mask v { s with program := rest })
  /-- A host write of a GPIO register between commands (R226). -/
  | hostGpio (a : Addr) (r : GReg) (mask v : Byte) (rest : List Line) (hs : s.seq = .idle)
      (hp : s.program = .hostGpio a r mask v :: rest) : Move s (hostGpio a r mask v { s with program := rest })
  /-- A host write of data memory between commands (R226). -/
  | hostMem (a : Addr) (b : Byte) (rest : List Line) (hs : s.seq = .idle) (hp : s.program = .hostMem a b :: rest) :
      Move s (({ s with program := rest } : State).writeByte a b)
  /-- A micro-operation of a fixed list is performed (R25). -/
  | performed (ops : List MicroOp) (j : Nat) (op : MicroOp) (t : State) (hs : s.seq = .exec ops j)
      (hop : ops[j]? = some op) (h : Wrote s op t) : Move s { t with seq := .exec ops (j + 1) }
  /-- A fixed list is at its end (R25). -/
  | finished (ops : List MicroOp) (j : Nat) (hs : s.seq = .exec ops j) (hop : ops[j]? = none) : Move s s.toIdle
  /-- A guard raises a fault (R211). -/
  | raised (p : FaultPoint) (r : Raised) (hi : s.seq ≠ .idle) (hf : s.seq ≠ .faulted) : Move s (s.raise p r)
  /-- SB_CHECK samples TXIE (R181). -/
  | checked (i : Inst) (b : Byte) (k : Cont) (e : Bool) (hs : s.seq = .sbCheck i b k) (hi : s.hasInst i = true)
      (he : (s.u i).txie = some e) :
      Move s { s.log (.tb i .ie 1 e) with seq := if e then .sbWrite i b k else .sbPoll i b k }
  /-- SB_POLL reads TXIFG (R182). -/
  | polled (i : Inst) (b : Byte) (k : Cont) (f : Bool) (hs : s.seq = .sbPoll i b k) (hi : s.hasInst i = true)
      (hf : (s.u i).txifg = some f) :
      Move s { s.log (.tb i .ifg 1 f) with seq := if f then .sbWrite i b k else .sbPoll i b k }
  /-- SB_WRITE writes the transmit buffer (R67, R180). -/
  | wrote (i : Inst) (b : Byte) (k : Cont) (hs : s.seq = .sbWrite i b k) (hi : s.hasInst i = true) (q : Seq) (c : List Word)
      (hq : (k = .done ∧ q = .idle ∧ c = []) ∨ ∃ p, k = .next p ∧ q = .ssFetch i p ∧ c = s.cmd) :
      Move s { s with
        seq := q
        cmd := c
        uart := s.uart.put i ((s.u i).transmit b)
        txlog := s.txlog ++ [⟨i, b, (s.u i).txifg, (s.u i).swrst⟩]
        trace := s.trace ++ [.tx i b] }
  /-- SS_FETCH reads the terminator (R185). -/
  | terminated (i : Inst) (p : Addr) (hs : s.seq = .ssFetch i p) (ha : memAdmit s.params p = true) (hz : s.readByte p = 0) :
      Move s (s.log (.mr p 0)).toIdle
  /-- SS_FETCH reads a character (R185). -/
  | fetched (i : Inst) (p : Addr) (hs : s.seq = .ssFetch i p) (ha : memAdmit s.params p = true) (hz : s.readByte p ≠ 0) :
      Move s { s.log (.mr p (s.readByte p)) with seq := .sbCheck i (s.readByte p) (.next (p + 1)) }

theorem execStep_move {s t : State} {ops : List MicroOp} {j : Nat} (hs : s.seq = .exec ops j)
    (h : execStep ops j s = .next t) : Move s t := by
  unfold execStep at h
  split at h
  · obtain rfl := Host.Outcome.next.inj h
    exact .finished ops j hs ‹_›
  · rename_i op hop
    split at h
    · rename_i s' hp
      obtain rfl := Host.Outcome.next.inj h
      exact .performed ops j op s' hs hop (perform_ok.1 hp)
    · obtain rfl := Host.Outcome.next.inj h
      exact .raised _ _ (by simp [hs]) (by simp [hs])
    · cases h

theorem sbCheckStep_move {s t : State} {i : Inst} {b : Byte} {k : Cont} (hs : s.seq = .sbCheck i b k)
    (h : sbCheckStep i b k s = .next t) : Move s t := by
  unfold sbCheckStep at h
  split at h
  · obtain rfl := Host.Outcome.next.inj h
    exact .raised _ _ (by simp [hs]) (by simp [hs])
  · rename_i e s' ht
    obtain rfl := Host.Outcome.next.inj h
    obtain ⟨hi, hb, rfl⟩ := testBitOp_ok.1 ht
    exact .checked i b k e hs hi hb

theorem sbPollStep_move {s t : State} {i : Inst} {b : Byte} {k : Cont} (hs : s.seq = .sbPoll i b k)
    (h : sbPollStep i b k s = .next t) : Move s t := by
  unfold sbPollStep at h
  split at h
  · obtain rfl := Host.Outcome.next.inj h
    exact .raised _ _ (by simp [hs]) (by simp [hs])
  · rename_i e s' ht
    obtain rfl := Host.Outcome.next.inj h
    obtain ⟨hi, hb, rfl⟩ := testBitOp_ok.1 ht
    exact .polled i b k e hs hi hb

theorem sbWriteStep_move {s t : State} {i : Inst} {b : Byte} {k : Cont} (hs : s.seq = .sbWrite i b k)
    (h : sbWriteStep i b k s = .next t) : Move s t := by
  unfold sbWriteStep at h
  split at h
  · obtain rfl := Host.Outcome.next.inj h
    exact .raised _ _ (by simp [hs]) (by simp [hs])
  · rename_i s' ht
    obtain ⟨hi, rfl⟩ := txWriteOp_ok.1 ht
    cases k with
    | done => obtain rfl := Host.Outcome.next.inj h; exact .wrote i b _ hs hi .idle [] (.inl ⟨rfl, rfl, rfl⟩)
    | next p =>
      obtain rfl := Host.Outcome.next.inj h
      exact .wrote i b _ hs hi (.ssFetch i p) s.cmd (.inr ⟨p, rfl, rfl, rfl⟩)

theorem ssFetchStep_move {s t : State} {i : Inst} {p : Addr} (hs : s.seq = .ssFetch i p)
    (h : ssFetchStep i p s = .next t) : Move s t := by
  unfold ssFetchStep at h
  split at h
  · rename_i ha
    simp only at h
    split at h
    · rename_i hz
      obtain rfl := Host.Outcome.next.inj h
      rw [hz]
      exact .terminated i p hs ha hz
    · rename_i hz
      obtain rfl := Host.Outcome.next.inj h
      exact .fetched i p hs ha hz
  · cases h

theorem idleStep_move {s t : State} (hs : s.seq = .idle) (h : idleStep s = .next t) : Move s t := by
  unfold idleStep at h
  split at h
  · obtain rfl := Host.Outcome.next.inj h; exact .wait
  · rename_i line rest hp
    split at h
    · rename_i hm
      split at h
      · rename_i ws
        unfold present at h
        split at h
        · rename_i i hd
          obtain ⟨-, ⟨q, hq, rfl⟩ | ⟨-, -, rfl⟩⟩ := exec_eq_next h
          · exact .entered i ws rest q hs hp hd hq
          · exact .rejected ws rest _ _ hs hp
        · cases h
        all_goals
          obtain rfl := Host.Outcome.next.inj h
          exact .rejected ws rest _ _ hs hp
      · obtain rfl := Host.Outcome.next.inj h; exact .ready _ rest hm (.inr hs)
      · split at h
        · obtain rfl := Host.Outcome.next.inj h; exact .done _ rest ‹_› (.inr hs)
        · obtain rfl := Host.Outcome.next.inj h; exact .wait
      · obtain rfl := Host.Outcome.next.inj h; exact .hostUart _ _ _ _ rest hs hp
      · obtain rfl := Host.Outcome.next.inj h; exact .hostGpio _ _ _ _ rest hs hp
      · obtain rfl := Host.Outcome.next.inj h; exact .hostMem _ _ rest hs hp
    · cases h

theorem blockStep_move {s t : State} (h : blockStep s = .next t) : Move s t := by
  unfold blockStep at h
  split at h
  · exact idleStep_move ‹_› h
  · exact execStep_move ‹_› h
  · exact sbCheckStep_move ‹_› h
  · exact sbPollStep_move ‹_› h
  · exact sbWriteStep_move ‹_› h
  · exact ssFetchStep_move ‹_› h
  · cases h

/-- THE INVERSION OF A STEP: it is one move of one agent, from the state with the schedule advanced. -/
theorem step_move {s t : State} (h : step s = .next t) : Move { s with env := s.env.tail } t := by
  unfold step turn at h
  split at h
  · rename_i i rest he
    obtain rfl := Host.Outcome.next.inj h
    rw [he]
    split
    · exact .ready (s := { s with env := rest }) i s.program ‹_› (.inl rfl)
    · exact .wait
  · rename_i i rest he
    obtain rfl := Host.Outcome.next.inj h
    rw [he]
    split
    · exact .done (s := { s with env := rest }) i s.program ‹_› (.inl rfl)
    · exact .wait
  · rename_i rest he
    obtain rfl := Host.Outcome.next.inj h
    rw [he]
    exact .reset
  · rename_i rest he
    rw [he]
    exact blockStep_move h
  · rename_i he
    have hs : ({ s with env := s.env.tail } : State) = s := by rw [he, List.tail_nil, ← he]
    rw [hs]
    split at h
    · rename_i i hf
      obtain rfl := Host.Outcome.next.inj h
      refine .ready (s := s) i s.program ?_ (.inl rfl)
      unfold fairTxReady at hf
      split at hf
      · split at hf
        · simp_all
        · cases hf
      all_goals cases hf
    · exact blockStep_move h

end Sys2Proof.Machine
end

