-- ==== Sys2Proof/Laws/Run.lean ====
section
/-! SUPPORT. Running a command to its end when no schedule interferes, and registers read bit by bit after each write. -/

namespace Sys2Proof.Machine

open Sys2Proof.Safety

theorem run_zero (s : State) : Sys2Proof.core.run 0 s = .next s := rfl

theorem run_succ {s t : State} (n : Nat) (h : step s = .next t) :
    Sys2Proof.core.run (n + 1) s = Sys2Proof.core.run n t := by
  have general : ∀ (M : Host.Core) (x y : M.State), M.step x = .next y → M.run (n + 1) x = M.run n y := by
    intro M x y hxy
    rw [Host.Core.run, hxy]
  exact general Sys2Proof.core s t h

/-- The inversion of a run of one step and more. -/
theorem run_succ_inv {s u : State} {n : Nat} (h : Sys2Proof.core.run (n + 1) s = .next u) :
    ∃ t, step s = .next t ∧ Sys2Proof.core.run n t = .next u := by
  have general : ∀ (M : Host.Core) (x y : M.State), M.run (n + 1) x = .next y →
      ∃ t, M.step x = .next t ∧ M.run n t = .next y := by
    intro M x y hxy
    rw [Host.Core.run] at hxy
    split at hxy
    · rename_i t hs; exact ⟨t, hs, hxy⟩
    · cases hxy
    · cases hxy
  exact general Sys2Proof.core s u h

theorem run_add {s t : State} (m n : Nat) (h : Sys2Proof.core.run m s = .next t) :
    Sys2Proof.core.run (m + n) s = Sys2Proof.core.run n t := by
  induction m generalizing s with
  | zero => cases h; rw [Nat.zero_add]
  | succ m ih =>
    obtain ⟨s', hs, hr⟩ := run_succ_inv h
    rw [Nat.succ_add, run_succ _ hs, ih hr]

/-- With an empty schedule the block moves, but for a fair TxReady in SB_POLL. -/
theorem step_undisturbed {s : State} (he : s.env = []) (hp : ∀ i b k, s.seq ≠ .sbPoll i b k) : step s = blockStep s := by
  unfold step turn
  rw [he]
  have : fairTxReady s = none := by
    unfold fairTxReady
    split <;> simp_all
  simp only [this]

theorem step_run {s : State} {es : List EnvMove} (he : s.env = .run :: es) : step s = blockStep { s with env := es } := by
  unfold step turn
  rw [he]

theorem step_exec {s : State} {ops : List MicroOp} {j : Nat} (he : s.env = []) (hs : s.seq = .exec ops j) :
    step s = execStep ops j s := by
  rw [step_undisturbed he (by simp [hs]), blockStep, hs]

theorem step_idle {s : State} (he : s.env = []) (hs : s.seq = .idle) : step s = idleStep s := by
  rw [step_undisturbed he (by simp [hs]), blockStep, hs]

theorem step_sbCheck {s : State} {i : Inst} {b : Byte} {k : Cont} (he : s.env = []) (hs : s.seq = .sbCheck i b k) :
    step s = sbCheckStep i b k s := by
  rw [step_undisturbed he (by simp [hs]), blockStep, hs]

theorem step_sbWrite {s : State} {i : Inst} {b : Byte} {k : Cont} (he : s.env = []) (hs : s.seq = .sbWrite i b k) :
    step s = sbWriteStep i b k s := by
  rw [step_undisturbed he (by simp [hs]), blockStep, hs]

theorem step_ssFetch {s : State} {i : Inst} {p : Addr} (he : s.env = []) (hs : s.seq = .ssFetch i p) :
    step s = ssFetchStep i p s := by
  rw [step_undisturbed he (by simp [hs]), blockStep, hs]

/-- SB_POLL moves too, unless fairness gives the environment its TxReady. -/
theorem step_sbPoll {s : State} {i : Inst} {b : Byte} {k : Cont} (he : s.env = []) (hs : s.seq = .sbPoll i b k)
    (hf : s.params.txifgFair = false ∨ (s.u i).txifg ≠ some false) : step s = sbPollStep i b k s := by
  have : fairTxReady s = none := by
    unfold fairTxReady
    rw [hs]
    rcases hf with hf | hf <;> simp [hf]
  unfold step turn
  rw [he]
  simp only [this, blockStep, hs]

theorem State.putPort_withSeq (s : State) (q : Seq) (a : Addr) (g : GpioPort) :
    ({ s with seq := q } : State).putPort a g = { s.putPort a g with seq := q } := by
  unfold State.putPort
  split <;> rfl

theorem State.putPort_withCmd (s : State) (c : List Word) (a : Addr) (g : GpioPort) :
    ({ s with cmd := c } : State).putPort a g = { s.putPort a g with cmd := c } := by
  unfold State.putPort
  split <;> rfl

/-- What a micro-operation writes does not depend on the sequencer state. -/
theorem Wrote.withSeq {s t : State} {op : MicroOp} (h : Wrote s op t) (q : Seq) :
    Wrote { s with seq := q } op { t with seq := q } := by
  cases h with
  | latchDesc d => exact .latchDesc d
  | bitWrite i r b v hg => exact .bitWrite i r b v hg
  | fieldWrite i r mask v hg => exact .fieldWrite i r mask v hg
  | regWrite i r v hg => exact .regWrite i r v hg
  | gpioClr a r m hv =>
    have := Wrote.gpioClr (s := { s with seq := q }) a r m hv
    rwa [State.putPort_withSeq] at this
  | gpioSet a r m hv =>
    have := Wrote.gpioSet (s := { s with seq := q }) a r m hv
    rwa [State.putPort_withSeq] at this

/-- A list of micro-operations performed one after the other. -/
inductive WroteAll : State → List MicroOp → State → Prop where
  | nil (s : State) : WroteAll s [] s
  | cons {s t u : State} {op : MicroOp} {ops : List MicroOp} (h : Wrote s op t) (hs : WroteAll t ops u) :
      WroteAll s (op :: ops) u

theorem WroteAll.append {s t u : State} {a b : List MicroOp} (h : WroteAll s a t) (h' : WroteAll t b u) :
    WroteAll s (a ++ b) u := by
  induction h with
  | nil s => exact h'
  | cons h _ ih => exact .cons h (ih h')

theorem WroteAll.single {s t : State} {op : MicroOp} (h : Wrote s op t) : WroteAll s [op] t := .cons h (.nil t)

theorem WroteAll.frame {s t : State} {ops : List MicroOp} (h : WroteAll s ops t) :
    t.params = s.params ∧ t.seq = s.seq ∧ t.cmd = s.cmd ∧ t.flt = s.flt ∧ t.mem = s.mem ∧ t.txlog = s.txlog ∧
      t.program = s.program ∧ t.env = s.env := by
  induction h with
  | nil s => simp
  | cons h _ ih =>
    have := h.frame
    simp_all

/-- One micro-operation of a list, when no schedule interferes. -/
theorem step_performed {s t : State} {ops : List MicroOp} {j : Nat} {op : MicroOp} (he : s.env = [])
    (hs : s.seq = .exec ops j) (hop : ops[j]? = some op) (h : Wrote s op t) :
    step s = .next { t with seq := .exec ops (j + 1) } := by
  rw [step_exec he hs, execStep, hop]
  simp [perform_ok.2 h]

/-- The end of a list, when no schedule interferes. -/
theorem step_finished {s : State} {ops : List MicroOp} {j : Nat} (he : s.env = []) (hs : s.seq = .exec ops j)
    (hop : ops.length ≤ j) : step s = .next s.toIdle := by
  rw [step_exec he hs, execStep, List.getElem?_eq_none hop]

theorem WroteAll.withSeq {s t : State} {ops : List MicroOp} (h : WroteAll s ops t) (q : Seq) :
    WroteAll { s with seq := q } ops { t with seq := q } := by
  induction h with
  | nil s => exact .nil _
  | cons h _ ih => exact .cons (h.withSeq q) ih

/-- A part of a list performed from index `j` on: as many steps as it has micro-operations. -/
theorem run_part {ops rest : List MicroOp} (part : List MicroOp) :
    ∀ {s t : State} {j : Nat}, WroteAll s part t → s.env = [] → s.seq = .exec ops j → ops.drop j = part ++ rest →
      Sys2Proof.core.run part.length s = .next { t with seq := .exec ops (j + part.length) } := by
  induction part with
  | nil =>
    intro s t j h he hs _
    cases h
    rw [List.length_nil, run_zero, Nat.add_zero, ← hs]
  | cons op part ih =>
    intro s t j h he hs hd
    cases h with
    | @cons _ s' _ _ _ hw hall =>
      have hop : ops[j]? = some op := by
        have := congrArg (·[0]?) hd
        simpa using this
      have hd' : ops.drop (j + 1) = part ++ rest := by
        have := congrArg (List.drop 1) hd
        simpa [List.drop_drop] using this
      rw [List.length_cons, run_succ _ (step_performed he hs hop hw)]
      have hj : j + (part.length + 1) = j + 1 + part.length := by omega
      rw [hj]
      have := ih (hall.withSeq (.exec ops (j + 1))) (by have := hw.frame; simp_all) rfl hd'
      rw [this]

/-- A whole list performed from its start, and the return to IDLE (R25, R255): one step more than it has micro-operations. -/
theorem run_list {s t : State} {ops : List MicroOp} (h : WroteAll s ops t) (he : s.env = []) (hs : s.seq = .exec ops 0) :
    Sys2Proof.core.run (ops.length + 1) s = .next t.toIdle := by
  have h1 := run_part (ops := ops) (rest := []) ops h he hs (by simp)
  rw [run_add _ 1 h1]
  have hfr := h.frame
  have h2 : step { t with seq := .exec ops (0 + ops.length) } = .next t.toIdle :=
    step_finished (s := { t with seq := .exec ops (0 + ops.length) }) (by simp_all) rfl (by simp)
  rw [show (1 : Nat) = 0 + 1 from rfl, run_succ _ h2, run_zero]

/-- What a micro-operation writes does not depend on the command in progress. -/
theorem Wrote.withCmd {s t : State} {op : MicroOp} (h : Wrote s op t) (c : List Word) :
    Wrote { s with cmd := c } op { t with cmd := c } := by
  cases h with
  | latchDesc d => exact .latchDesc d
  | bitWrite i r b v hg => exact .bitWrite i r b v hg
  | fieldWrite i r mask v hg => exact .fieldWrite i r mask v hg
  | regWrite i r v hg => exact .regWrite i r v hg
  | gpioClr a r m hv =>
    have := Wrote.gpioClr (s := { s with cmd := c }) a r m hv
    rwa [State.putPort_withCmd] at this
  | gpioSet a r m hv =>
    have := Wrote.gpioSet (s := { s with cmd := c }) a r m hv
    rwa [State.putPort_withCmd] at this

theorem WroteAll.withCmd {s t : State} {ops : List MicroOp} (h : WroteAll s ops t) (c : List Word) :
    WroteAll { s with cmd := c } ops { t with cmd := c } := by
  induction h with
  | nil s => exact .nil _
  | cons h _ ih => exact .cons (h.withCmd c) ih

/-- A command whose entry is a fixed list, from IDLE and back: accepted, then run to its end in one step more than the list
has micro-operations, leaving what the list writes. -/
theorem command_runs {s t : State} {i : Instr} {ops : List MicroOp} (hs : s.seq = .idle) (he : s.env = [])
    (hq : entryOf s i = some (.exec ops 0)) (h : WroteAll s ops t) :
    exec i s = .next { s with seq := .exec ops 0, cmd := encode i } ∧
      Sys2Proof.core.run (ops.length + 1) { s with seq := .exec ops 0, cmd := encode i } = .next { t with cmd := [] } := by
  refine ⟨by rw [exec_idle i s hs, hq], ?_⟩
  have hw := (h.withCmd (encode i)).withSeq (.exec ops 0)
  rw [run_list hw he rfl]
  have ht : t.seq = .idle := h.frame.2.1.trans hs
  rw [State.toIdle, ← ht]

@[simp] theorem bitMask_getLsbD (b : Fin 16) (k : Nat) : (bitMask b).getLsbD k = decide (k = b.val) := by
  have hb := b.isLt
  unfold bitMask
  by_cases h : k = b.val
  · subst h; simp [hb]
  · rw [BitVec.getLsbD_shiftLeft, BitVec.getLsbD_one]
    by_cases h1 : k < b.val
    · simp [h1, h]
    · simp only [h, decide_false]
      have : k - b.val ≠ 0 := by omega
      simp [this]

@[simp] theorem bitAt_getLsbD (b : Fin 16) (v : Bool) (k : Nat) : (bitAt b v).getLsbD k = (decide (k = b.val) && v) := by
  unfold bitAt
  cases v <;> simp

/-- Every bit of every register after a register write (R46, R63 to R65). -/
theorem uartBit_writeU (s : State) (i j : Inst) (r q : UReg) (m v : Half) (b : Nat) :
    uartBit (s.writeU i r m v) j q b =
      if j = i ∧ q = r ∧ (m &&& r.modelled).getLsbD b = true then some (v.getLsbD b) else uartBit s j q b := by
  unfold uartBit
  by_cases hj : j = i
  · subst hj
    rw [State.u_writeU_same]
    by_cases hq : q = r
    · subst hq
      rw [UartRegs.get_write_same, Reg.bit?_write]
      simp
    · rw [UartRegs.get_write_ne _ _ _ hq]
      simp [hq]
  · rw [State.u_writeU_ne _ _ _ _ hj]
    simp [hj]

/-- Every bit of a configuration register after a `BitWrite` of it (R63). -/
theorem uartBit_bitWrite (s : State) (i j : Inst) (r q : UReg) (b : Fin 16) (v : Bool) (k : Nat)
    (hr : isConfigReg r = true) :
    uartBit (s.writeU i r (bitMask b) (bitAt b v)) j q k =
      if j = i ∧ q = r ∧ k = b.val then some v else uartBit s j q k := by
  have hmod : r.modelled = 0xFFFF := by cases r <;> first | rfl | cases hr
  have hall : ∀ x : Half, x &&& 0xFFFF = x := fun x => by
    rw [show (0xFFFF : Half) = BitVec.allOnes 16 from rfl, BitVec.and_allOnes]
  rw [uartBit_writeU, hmod, hall, bitMask_getLsbD, bitAt_getLsbD]
  by_cases hk : k = b.val <;> simp [hk]

@[simp] theorem uartBit_log (s : State) (e : TraceEntry) (i : Inst) (r : UReg) (b : Nat) :
    uartBit (s.log e) i r b = uartBit s i r b := rfl

@[simp] theorem uartBit_toIdle (s : State) (i : Inst) (r : UReg) (b : Nat) : uartBit s.toIdle i r b = uartBit s i r b := rfl

@[simp] theorem uartBit_putPort (s : State) (a : Addr) (g : GpioPort) (i : Inst) (r : UReg) (b : Nat) :
    uartBit (s.putPort a g) i r b = uartBit s i r b := by
  simp [uartBit]

theorem swrst_eq_uartBit (s : State) (i : Inst) : (s.u i).swrst = uartBit s i .ctlw0 0 := rfl

theorem txie_eq_uartBit (s : State) (i : Inst) : (s.u i).txie = uartBit s i .ie 1 := rfl

theorem txifg_eq_uartBit (s : State) (i : Inst) : (s.u i).txifg = uartBit s i .ifg 1 := rfl

/-- BUSY is changed by no register write. -/
@[simp] theorem busy_writeU (s : State) (i j : Inst) (r : UReg) (m v : Half) :
    ((s.writeU i r m v).u j).busy = (s.u j).busy := by
  by_cases hj : j = i
  · subst hj; rw [State.u_writeU_same, UartRegs.write_busy]
  · rw [State.u_writeU_ne _ _ _ _ hj]

/-- Every bit of every port after a port register is written (R68). -/
theorem gpioBit_putPort (s : State) (a b : Addr) (r q : GReg) (m v : Byte) (k : Nat) :
    gpioBit (s.putPort a ((s.port a).put r (((s.port a).get r).write m v))) b q k =
      if b = a ∧ q = r ∧ m.getLsbD k = true then some (v.getLsbD k) else gpioBit s b q k := by
  unfold gpioBit
  by_cases hb : b = a
  · subst hb
    rw [State.port_putPort_same]
    by_cases hq : q = r
    · subst hq
      rw [GpioPort.get_put_same, Reg.bit?_write]
      simp
    · rw [GpioPort.get_put_ne _ _ hq]
      simp [hq]
  · rw [State.port_putPort_ne _ _ hb]
    simp [hb]

@[simp] theorem gpioBit_log (s : State) (e : TraceEntry) (a : Addr) (r : GReg) (k : Nat) :
    gpioBit (s.log e) a r k = gpioBit s a r k := rfl

@[simp] theorem gpioBit_writeU (s : State) (i : Inst) (r : UReg) (m v : Half) (a : Addr) (g : GReg) (k : Nat) :
    gpioBit (s.writeU i r m v) a g k = gpioBit s a g k := rfl

/-- What every step keeps, a run keeps. -/
theorem run_keeps {P : State → Prop} (keep : ∀ s t, P s → step s = .next t → P t) {s u : State} {n : Nat} (hs : P s)
    (h : Sys2Proof.core.run n s = .next u) : P u := by
  induction n generalizing s with
  | zero => exact Host.Outcome.next.inj h ▸ hs
  | succ n ih =>
    obtain ⟨t, ht, hr⟩ := run_succ_inv h
    exact ih (keep s t hs ht) hr

/-- A string in memory is still there in a state with the same memory and parameters. -/
theorem holdsString_congr {s t : State} (hp : t.params = s.params) (hm : t.mem = s.mem) :
    ∀ {bytes : List Byte} {p : Addr}, HoldsString s p bytes → HoldsString t p bytes
  | [], _, _ => trivial
  | _ :: _, _, ⟨ha, hb, hr⟩ =>
    ⟨hp ▸ ha, by unfold State.readByte at *; rw [hm]; exact hb, holdsString_congr hp hm hr⟩

/-- Every bit of every register after a transmit-buffer write (R67): TXBUF[7:0] holds the byte, TXIFG is 0, no other changes. -/
theorem uartBit_transmit {s t : State} {i : Inst} {c : Byte} (ht : t.uart = s.uart.put i ((s.u i).transmit c)) (j : Inst)
    (r : UReg) (k : Nat) :
    uartBit t j r k =
      if j = i ∧ r = .txbuf ∧ k < 8 then some (c.getLsbD k)
      else if j = i ∧ r = .ifg ∧ k = 1 then some false else uartBit s j r k := by
  have masks : ∀ k : Nat, (0x0002#16).getLsbD k = decide (k = 1) ∧ (0x00FF#16).getLsbD k = decide (k < 8) := by
    intro k
    by_cases hk : k < 16
    · exact (by decide : ∀ k : Fin 16, (0x0002#16).getLsbD k.val = decide (k.val = 1) ∧
        (0x00FF#16).getLsbD k.val = decide (k.val < 8)) ⟨k, hk⟩
    · rw [BitVec.getLsbD_of_ge _ _ (by omega), BitVec.getLsbD_of_ge _ _ (by omega)]
      constructor <;> simp <;> omega
  unfold uartBit State.u
  rw [ht]
  by_cases hj : j = i
  · subst hj
    rw [UartBank.get_put_same]
    cases r <;>
      simp [UartRegs.transmit, UartRegs.write, UartRegs.get, UartRegs.put, UReg.modelled, Reg.bit?_write, masks, State.u]
    split
    · simp; omega
    · rfl
  · rw [UartBank.get_put_ne _ _ hj]
    simp [hj]

end Sys2Proof.Machine
end

