-- ==== Sys2Proof/Laws/Lists.lean ====
section
/-! SUPPORT. What a whole list of micro-operations does: to each bit of a UART or GPIO register, and to nothing else; and when
every micro-operation of a list passes its guards. -/

namespace Sys2Proof.Machine

open Sys2Proof.Safety

/-- What a micro-operation makes of bit `b` of `U[j].R`, from what it was. -/
def uartEffect (op : MicroOp) (j : Inst) (r : UReg) (b : Nat) (x : Option Bool) : Option Bool :=
  match op with
  | .bitWrite i q k v =>
    if j = i ∧ r = q ∧ (bitMask k &&& q.modelled).getLsbD b = true then some ((bitAt k v).getLsbD b) else x
  | .fieldWrite i q mask v => if j = i ∧ r = q ∧ (mask &&& q.modelled).getLsbD b = true then some (v.getLsbD b) else x
  | .regWrite i q v => if j = i ∧ r = q ∧ (0xFFFF &&& q.modelled).getLsbD b = true then some (v.getLsbD b) else x
  | .latchDesc _ => x
  | .gpioClr _ _ _ => x
  | .gpioSet _ _ _ => x

/-- What a micro-operation makes of bit `k` of `G[b].R`, from what it was. -/
def gpioEffect (op : MicroOp) (b : Addr) (q : GReg) (k : Nat) (x : Option Bool) : Option Bool :=
  match op with
  | .gpioClr a r m => if b = a ∧ q = r ∧ m.getLsbD k = true then some false else x
  | .gpioSet a r m => if b = a ∧ q = r ∧ m.getLsbD k = true then some true else x
  | .latchDesc _ => x
  | .bitWrite _ _ _ _ => x
  | .fieldWrite _ _ _ _ => x
  | .regWrite _ _ _ => x

@[simp] theorem gpioBit_desc (s : State) (d : Option Descriptor) (a : Addr) (r : GReg) (k : Nat) :
    gpioBit { s with desc := d } a r k = gpioBit s a r k := rfl

@[simp] theorem uartBit_desc (s : State) (d : Option Descriptor) (i : Inst) (r : UReg) (b : Nat) :
    uartBit { s with desc := d } i r b = uartBit s i r b := rfl

theorem Wrote.uartBit {s t : State} {op : MicroOp} (h : Wrote s op t) (j : Inst) (r : UReg) (b : Nat) :
    uartBit t j r b = uartEffect op j r b (uartBit s j r b) := by
  cases h with
  | latchDesc d => rfl
  | bitWrite i q k v _ => rw [uartBit_log, uartBit_writeU]; rfl
  | fieldWrite i q m v _ => rw [uartBit_log, uartBit_writeU]; rfl
  | regWrite i q v _ => rw [uartBit_log, uartBit_writeU]; rfl
  | gpioClr a q m _ => rw [uartBit_log, uartBit_putPort]; rfl
  | gpioSet a q m _ => rw [uartBit_log, uartBit_putPort]; rfl

theorem Wrote.gpioBit {s t : State} {op : MicroOp} (h : Wrote s op t) (a : Addr) (r : GReg) (k : Nat) :
    gpioBit t a r k = gpioEffect op a r k (gpioBit s a r k) := by
  cases h with
  | latchDesc d => rfl
  | bitWrite i q b v _ => rw [gpioBit_log, gpioBit_writeU]; rfl
  | fieldWrite i q m v _ => rw [gpioBit_log, gpioBit_writeU]; rfl
  | regWrite i q v _ => rw [gpioBit_log, gpioBit_writeU]; rfl
  | gpioClr b q m _ => rw [gpioBit_log, gpioBit_putPort]; simp [gpioEffect]
  | gpioSet b q m _ =>
    rw [gpioBit_log, gpioBit_putPort]
    simp only [gpioEffect]
    split
    · rename_i hc; rw [hc.2.2]
    · rfl

theorem Wrote.busy {s t : State} {op : MicroOp} (h : Wrote s op t) (j : Inst) : (t.u j).busy = (s.u j).busy := by
  cases h <;> simp [State.u]
  all_goals exact busy_writeU _ _ _ _ _ _

/-- A micro-operation that latches no descriptor changes nothing but registers and the trace, which gains one entry. -/
theorem Wrote.registersOnly {s t : State} {op : MicroOp} (h : Wrote s op t) (hd : ∀ d, op ≠ .latchDesc d) :
    t = { s with uart := t.uart, gpio := t.gpio, trace := t.trace } ∧ t.trace.length = s.trace.length + 1 := by
  have hf := h.frame
  cases h with
  | latchDesc d => exact absurd rfl (hd d)
  | bitWrite i q k v _ => exact ⟨rfl, by simp⟩
  | fieldWrite i q m v _ => exact ⟨rfl, by simp⟩
  | regWrite i q v _ => exact ⟨rfl, by simp⟩
  | gpioClr a q m _ => exact ⟨by unfold State.putPort; split <;> rfl, by simp⟩
  | gpioSet a q m _ => exact ⟨by unfold State.putPort; split <;> rfl, by simp⟩

/-- A UART write leaves every port. -/
theorem Wrote.uartOnly {s t : State} {op : MicroOp} {i : Inst} (h : Wrote s op t) (ho : uartTarget op = some i) :
    t = { s with uart := t.uart, trace := t.trace } ∧ ∀ j, j ≠ i → t.u j = s.u j := by
  cases h with
  | latchDesc d => cases ho
  | gpioClr a q m _ => cases ho
  | gpioSet a q m _ => cases ho
  | bitWrite i' q k v _ => obtain rfl := Option.some.inj ho; exact ⟨rfl, fun j hj => State.u_writeU_ne s q _ _ hj⟩
  | fieldWrite i' q m v _ => obtain rfl := Option.some.inj ho; exact ⟨rfl, fun j hj => State.u_writeU_ne s q _ _ hj⟩
  | regWrite i' q v _ => obtain rfl := Option.some.inj ho; exact ⟨rfl, fun j hj => State.u_writeU_ne s q _ _ hj⟩

theorem WroteAll.uartBit {s t : State} {ops : List MicroOp} (h : WroteAll s ops t) (j : Inst) (r : UReg) (b : Nat) :
    uartBit t j r b = ops.foldl (fun x op => uartEffect op j r b x) (uartBit s j r b) := by
  induction h with
  | nil s => rfl
  | cons h _ ih => rw [ih, h.uartBit, List.foldl_cons]

theorem WroteAll.gpioBit {s t : State} {ops : List MicroOp} (h : WroteAll s ops t) (a : Addr) (r : GReg) (k : Nat) :
    gpioBit t a r k = ops.foldl (fun x op => gpioEffect op a r k x) (gpioBit s a r k) := by
  induction h with
  | nil s => rfl
  | cons h _ ih => rw [ih, h.gpioBit, List.foldl_cons]

theorem WroteAll.busy {s t : State} {ops : List MicroOp} (h : WroteAll s ops t) (j : Inst) :
    (t.u j).busy = (s.u j).busy := by
  induction h with
  | nil s => rfl
  | cons h _ ih => rw [ih, h.busy]

theorem WroteAll.registersOnly {s t : State} {ops : List MicroOp} (h : WroteAll s ops t)
    (hd : ∀ op ∈ ops, ∀ d, op ≠ .latchDesc d) :
    t = { s with uart := t.uart, gpio := t.gpio, trace := t.trace } ∧ t.trace.length = s.trace.length + ops.length := by
  induction h with
  | nil s => exact ⟨rfl, rfl⟩
  | cons h _ ih =>
    obtain ⟨e1, l1⟩ := h.registersOnly (hd _ (by simp))
    obtain ⟨e2, l2⟩ := ih fun op hop => hd op (by simp [hop])
    refine ⟨?_, by rw [l2, l1, List.length_cons]; omega⟩
    rw [e2, e1]

theorem WroteAll.uartOnly {s t : State} {ops : List MicroOp} (h : WroteAll s ops t)
    (ho : ∀ op ∈ ops, (uartTarget op).isSome = true) : t = { s with uart := t.uart, trace := t.trace } := by
  induction h with
  | nil s => rfl
  | @cons _ _ _ op _ h _ ih =>
    obtain ⟨i, hi⟩ := Option.isSome_iff_exists.1 (ho op (by simp))
    have e1 := (h.uartOnly hi).1
    have e2 := ih fun op hop => ho op (by simp [hop])
    rw [e2, e1]

/-- A list performed is each of its parts performed. -/
theorem WroteAll.append_inv {s u : State} {a b : List MicroOp} (h : WroteAll s (a ++ b) u) :
    ∃ t, WroteAll s a t ∧ WroteAll t b u := by
  induction a generalizing s with
  | nil => exact ⟨s, .nil s, h⟩
  | cons op a ih =>
    cases h with
    | cons hw hall =>
      obtain ⟨t, h1, h2⟩ := ih hall
      exact ⟨t, .cons hw h1, h2⟩

theorem writeGuard_of_configOk {s : State} {i : Inst} (h : ConfigOk s i) (op : MicroOp) : writeGuard s i op = none :=
  writeGuard_eq_none.2 ⟨h.1.1, fun _ => h.1.2, fun _ => h.2⟩

theorem writeGuard_of_setterOk {s : State} {i : Inst} (h : SetterOk s i) (v : Bool) :
    writeGuard s i (.bitWrite i .ctlw0 0 v) = none :=
  writeGuard_eq_none.2 ⟨h.1, fun _ => h.2, fun hc => by simp [MicroOp.isConfigWrite, MicroOp.isSwrstWrite] at hc⟩

/-- A UART micro-operation whose guards pass is performed. -/
theorem wrote_of_guard {s : State} {i : Inst} {op : MicroOp} (ho : uartTarget op = some i) (h : writeGuard s i op = none) :
    ∃ t, Wrote s op t := by
  cases op with
  | latchDesc d => cases ho
  | gpioClr a r m => cases ho
  | gpioSet a r m => cases ho
  | bitWrite i' r b v => obtain rfl := Option.some.inj ho; exact ⟨_, .bitWrite _ _ _ _ h⟩
  | fieldWrite i' r m v => obtain rfl := Option.some.inj ho; exact ⟨_, .fieldWrite _ _ _ _ h⟩
  | regWrite i' r v => obtain rfl := Option.some.inj ho; exact ⟨_, .regWrite _ _ _ h⟩

/-- What performing a micro-operation keeps of the guards' inputs. -/
theorem Wrote.setterOk {s t : State} {op : MicroOp} {i : Inst} (h : Wrote s op t) (hi : SetterOk s i) : SetterOk t i :=
  ⟨by have := hi.1; unfold State.hasInst at *; rwa [h.frame.1], by rw [h.busy]; exact hi.2⟩

theorem WroteAll.setterOk {s t : State} {ops : List MicroOp} {i : Inst} (h : WroteAll s ops t) (hi : SetterOk s i) :
    SetterOk t i := by
  induction h with
  | nil s => exact hi
  | cons h _ ih => exact ih (h.setterOk hi)

theorem Wrote.configOk {s t : State} {op : MicroOp} {i : Inst} (h : Wrote s op t) (hi : ConfigOk s i)
    (hk : ∀ x, uartEffect op i .ctlw0 0 x = x) : ConfigOk t i := by
  refine ⟨h.setterOk hi.1, ?_⟩
  rw [h.frame.1, swrst_eq_uartBit, h.uartBit, hk, ← swrst_eq_uartBit]
  exact hi.2

/-- A list of UART writes to an instance that admits configuration, none of them to its reset bit, is performed whole. -/
theorem exists_wroteAll_config {i : Inst} (ops : List MicroOp) : ∀ {s : State}, ConfigOk s i →
    (∀ op ∈ ops, uartTarget op = some i ∧ ∀ x, uartEffect op i .ctlw0 0 x = x) → ∃ t, WroteAll s ops t ∧ ConfigOk t i := by
  induction ops with
  | nil => intro s h _; exact ⟨s, .nil s, h⟩
  | cons op ops ih =>
    intro s h hop
    obtain ⟨ho, hk⟩ := hop op (by simp)
    obtain ⟨t, ht⟩ := wrote_of_guard ho (writeGuard_of_configOk h op)
    obtain ⟨u, hu, hc⟩ := ih (ht.configOk h hk) fun o h' => hop o (by simp [h'])
    exact ⟨u, .cons ht hu, hc⟩

/-- `PinOps` on a port that exists is performed whole. -/
theorem exists_wroteAll_pins {s : State} (a : Addr) (m : Byte) (h : validPort s.params a = true) :
    ∃ t, WroteAll s (pinOps a m) t := by
  have w1 := Wrote.gpioClr (s := s) a .dir m h
  have w2 := Wrote.gpioClr (s := _) a .sel1 m (by rw [w1.frame.1]; exact h)
  have w3 := Wrote.gpioSet (s := _) a .sel0 m (by rw [w2.frame.1, w1.frame.1]; exact h)
  exact ⟨_, .cons w1 (.cons w2 (.single w3))⟩

theorem modelled_of_config {r : UReg} (hr : isConfigReg r = true) (m : Half) : m &&& r.modelled = m := by
  have hmod : r.modelled = BitVec.allOnes 16 := by cases r <;> first | rfl | cases hr
  rw [hmod, BitVec.and_allOnes]

theorem uartEffect_bitWrite (i : Inst) (q : UReg) (k : Fin 16) (v : Bool) (hq : isConfigReg q = true) (j : Inst)
    (r : UReg) (b : Nat) (x : Option Bool) :
    uartEffect (.bitWrite i q k v) j r b x = if j = i ∧ r = q ∧ b = k.val then some v else x := by
  simp only [uartEffect, modelled_of_config hq, bitMask_getLsbD, bitAt_getLsbD, decide_eq_true_eq]
  by_cases hk : b = k.val <;> simp [hk]

theorem uartEffect_fieldWrite (i : Inst) (q : UReg) (m v : Half) (hq : isConfigReg q = true) (j : Inst) (r : UReg)
    (b : Nat) (x : Option Bool) :
    uartEffect (.fieldWrite i q m v) j r b x = if j = i ∧ r = q ∧ m.getLsbD b = true then some (v.getLsbD b) else x := by
  simp only [uartEffect, modelled_of_config hq]

theorem uartEffect_regWrite (i : Inst) (q : UReg) (v : Half) (hq : isConfigReg q = true) (j : Inst) (r : UReg) (b : Nat)
    (hb : b < 16) (x : Option Bool) :
    uartEffect (.regWrite i q v) j r b x = if j = i ∧ r = q then some (v.getLsbD b) else x := by
  have hall : (0xFFFF : Half).getLsbD b = true := by
    rw [show (0xFFFF : Half) = BitVec.allOnes 16 from rfl, BitVec.getLsbD_allOnes, decide_eq_true hb]
  simp only [uartEffect, modelled_of_config hq, hall, and_true]

/-- The lists whose length an operand decides (R130, R150). -/
theorem clockOps_eq (t : Inst) (c : Byte) :
    clockOps t c = if c.toNat < 3 then [.fieldWrite t .ctlw0 0x00C0 (c.setWidth 16 <<< 6)] else [] := rfl

theorem baudOps_eq (t : Inst) (k : Byte) :
    baudOps t k =
      if k.toNat < 5 then [.regWrite t .brw (baudBR k.toNat), .regWrite t .mctlw (modval k.toNat)] else [] := rfl

end Sys2Proof.Machine
end

