-- ==== Sys2Proof/Laws/PerInstr.lean ====
section
/-! SUPPORT. A fact about every command as syntax, one lemma per constructor: its words carry the opcode of its row and are as
many as that opcode says (`30_encoding.md` R85, R90). -/

namespace Sys2Proof.Laws.Opcode

open Sys2Proof

/-- The opcode of each row of the opcode table (R85). -/
def rowOpcode : Instr → Byte
  | .construct _ => 0x01
  | .constructDefault => 0x02
  | .initializeCmd => 0x03
  | .configurePins _ _ => 0x04
  | .applyBaud _ _ => 0x05
  | .setClock _ _ => 0x06
  | .setBitOrder _ _ => 0x07
  | .setStopBits _ _ => 0x08
  | .setParity _ _ => 0x09
  | .setCharLen _ _ => 0x0A
  | .setSync _ _ => 0x0B
  | .setOversample _ _ => 0x0C
  | .setRxeie _ _ => 0x0D
  | .setBrkie _ _ => 0x0E
  | .enable _ => 0x0F
  | .disable _ => 0x10
  | .sendByte _ _ => 0x11
  | .sendString _ _ => 0x12
  | .clearFlags _ => 0x13

/-- The words of a command carry its row's opcode, and are exactly one command. -/
def Statement (i : Instr) : Prop :=
  ∃ w0 ext, encode i = w0 :: ext ∧ opcodeOf w0 = rowOpcode i ∧ isOneCommand (encode i) = true

/-- Words that begin with an opcode are one command when they are as many as it says. -/
theorem isOneCommand_of_opcode {w0 : Word} {ext : List Word} {op : Byte} (h : opcodeOf w0 = op)
    (hl : ext.length + 1 = match op.toNat with
      | 0x01 => 3
      | 0x04 => 3
      | 0x12 => 2
      | _ => 1) : isOneCommand (w0 :: ext) = true := by
  simp only [isOneCommand, commandLength, h, decide_eq_true_eq]
  exact hl

theorem construct (d : Descriptor) : Statement (.construct d) :=
  ⟨_, _, rfl, (formatFC_fields d).1, isOneCommand_of_opcode (formatFC_fields d).1 rfl⟩

theorem constructDefault : Statement .constructDefault :=
  ⟨_, _, rfl, (formatF0_fields 0x02 _ _).1, isOneCommand_of_opcode (formatF0_fields 0x02 _ _).1 rfl⟩

theorem initializeCmd : Statement .initializeCmd :=
  ⟨_, _, rfl, (formatF0_fields 0x03 _ _).1, isOneCommand_of_opcode (formatF0_fields 0x03 _ _).1 rfl⟩

theorem configurePins (port : Addr) (mask : Byte) : Statement (.configurePins port mask) :=
  ⟨_, _, rfl, (formatF0_fields 0x04 _ _).1, isOneCommand_of_opcode (formatF0_fields 0x04 _ _).1 rfl⟩

theorem applyBaud (inst : Inst) (index : Byte) : Statement (.applyBaud inst index) :=
  ⟨_, _, rfl, (formatF0_fields 0x05 _ _).1, isOneCommand_of_opcode (formatF0_fields 0x05 _ _).1 rfl⟩

theorem setClock (inst : Inst) (code : Byte) : Statement (.setClock inst code) :=
  ⟨_, _, rfl, (formatF0_fields 0x06 _ _).1, isOneCommand_of_opcode (formatF0_fields 0x06 _ _).1 rfl⟩

theorem setBitOrder (inst : Inst) (v : Bool) : Statement (.setBitOrder inst v) :=
  ⟨_, _, rfl, (formatF0_fields 0x07 _ _).1, isOneCommand_of_opcode (formatF0_fields 0x07 _ _).1 rfl⟩

theorem setStopBits (inst : Inst) (v : Bool) : Statement (.setStopBits inst v) :=
  ⟨_, _, rfl, (formatF0_fields 0x08 _ _).1, isOneCommand_of_opcode (formatF0_fields 0x08 _ _).1 rfl⟩

theorem setParity (inst : Inst) (v : Bool) : Statement (.setParity inst v) :=
  ⟨_, _, rfl, (formatF0_fields 0x09 _ _).1, isOneCommand_of_opcode (formatF0_fields 0x09 _ _).1 rfl⟩

theorem setCharLen (inst : Inst) (v : Bool) : Statement (.setCharLen inst v) :=
  ⟨_, _, rfl, (formatF0_fields 0x0A _ _).1, isOneCommand_of_opcode (formatF0_fields 0x0A _ _).1 rfl⟩

theorem setSync (inst : Inst) (v : Bool) : Statement (.setSync inst v) :=
  ⟨_, _, rfl, (formatF0_fields 0x0B _ _).1, isOneCommand_of_opcode (formatF0_fields 0x0B _ _).1 rfl⟩

theorem setOversample (inst : Inst) (v : Bool) : Statement (.setOversample inst v) :=
  ⟨_, _, rfl, (formatF0_fields 0x0C _ _).1, isOneCommand_of_opcode (formatF0_fields 0x0C _ _).1 rfl⟩

theorem setRxeie (inst : Inst) (v : Bool) : Statement (.setRxeie inst v) :=
  ⟨_, _, rfl, (formatF0_fields 0x0D _ _).1, isOneCommand_of_opcode (formatF0_fields 0x0D _ _).1 rfl⟩

theorem setBrkie (inst : Inst) (v : Bool) : Statement (.setBrkie inst v) :=
  ⟨_, _, rfl, (formatF0_fields 0x0E _ _).1, isOneCommand_of_opcode (formatF0_fields 0x0E _ _).1 rfl⟩

theorem enable (inst : Inst) : Statement (.enable inst) :=
  ⟨_, _, rfl, (formatF0_fields 0x0F _ _).1, isOneCommand_of_opcode (formatF0_fields 0x0F _ _).1 rfl⟩

theorem disable (inst : Inst) : Statement (.disable inst) :=
  ⟨_, _, rfl, (formatF0_fields 0x10 _ _).1, isOneCommand_of_opcode (formatF0_fields 0x10 _ _).1 rfl⟩

theorem sendByte (inst : Inst) (byte : Byte) : Statement (.sendByte inst byte) :=
  ⟨_, _, rfl, (formatF0_fields 0x11 _ _).1, isOneCommand_of_opcode (formatF0_fields 0x11 _ _).1 rfl⟩

theorem sendString (inst : Inst) (ptr : Addr) : Statement (.sendString inst ptr) :=
  ⟨_, _, rfl, (formatF0_fields 0x12 _ _).1, isOneCommand_of_opcode (formatF0_fields 0x12 _ _).1 rfl⟩

theorem clearFlags (inst : Inst) : Statement (.clearFlags inst) :=
  ⟨_, _, rfl, (formatF0_fields 0x13 _ _).1, isOneCommand_of_opcode (formatF0_fields 0x13 _ _).1 rfl⟩

end Sys2Proof.Laws.Opcode
end

