-- ==== Sys2Proof/Tests/Slice0.lean ====
section
/-! SUPPORT. Tests of the model against the spec's own vectors (`95_test_vectors.md`), and for each statement with hypotheses a
concrete state that meets them. Expected values stand in the spec; the section is named at each test. -/

namespace Sys2Proof.Tests

open Sys2Proof.Machine Sys2Proof.Safety

/-! ## Decoding: a word of every command, written out from `30_encoding.md` R81 to R86 (section 2.1 of the vectors) -/

theorem test_decode_construct :
    decode .fixedPrimary [0b00000100000000100000100000000001, 0x40004C00, 0x0000000C] =
      .ok (.construct ⟨0, 0x40004C00, 0x0C, 2, false, false, false, 4, false, false, true, false, false⟩) := by rfl

theorem test_decode_construct_maximum :
    decode .fixedPrimary [0xFF0FFF01, 0xFFFFFFFF, 0x000000FF] =
      .ok (.construct ⟨3, 0xFFFFFFFF, 0xFF, 3, true, true, true, 255, true, true, true, true, true⟩) := by rfl

theorem test_decode_constructDefault :
    decode .fixedPrimary [0b00000000000000000000000000000010] = .ok .constructDefault := by rfl

theorem test_decode_initialize :
    decode .fixedPrimary [0b00000000000000000000000000000011] = .ok .initializeCmd := by rfl

theorem test_decode_configurePins :
    decode .fixedPrimary [0b00000000000000000000000000000100, 0x40004C00, 0x0000000C] =
      .ok (.configurePins 0x40004C00 0x0C) := by rfl

theorem test_decode_applyBaud :
    decode .operand [0b00000001000000000000001000000101] = .ok (.applyBaud 2 1) := by rfl

theorem test_decode_setClock :
    decode .fixedPrimary [0b00000011000000000000000000000110] = .ok (.setClock 0 3) := by rfl

theorem test_decode_setBitOrder :
    decode .fixedPrimary [0b00000001000000000000000000000111] = .ok (.setBitOrder 0 true) := by rfl

theorem test_decode_setStopBits :
    decode .fixedPrimary [0b00000001000000000000000000001000] = .ok (.setStopBits 0 true) := by rfl

theorem test_decode_setParity :
    decode .fixedPrimary [0b00000001000000000000000000001001] = .ok (.setParity 0 true) := by rfl

theorem test_decode_setCharLen :
    decode .fixedPrimary [0b00000001000000000000000000001010] = .ok (.setCharLen 0 true) := by rfl

theorem test_decode_setSync :
    decode .fixedPrimary [0b00000001000000000000000000001011] = .ok (.setSync 0 true) := by rfl

theorem test_decode_setOversample :
    decode .fixedPrimary [0b00000001000000000000000000001100] = .ok (.setOversample 0 true) := by rfl

theorem test_decode_setRxeie :
    decode .fixedPrimary [0b00000001000000000000000000001101] = .ok (.setRxeie 0 true) := by rfl

theorem test_decode_setBrkie :
    decode .fixedPrimary [0b00000001000000000000000000001110] = .ok (.setBrkie 0 true) := by rfl

theorem test_decode_enable :
    decode .fixedPrimary [0b00000000000000000000001100001111] = .ok (.enable 3) := by rfl

theorem test_decode_disable :
    decode .fixedPrimary [0b00000000000000000000000100010000] = .ok (.disable 1) := by rfl

theorem test_decode_sendByte :
    decode .fixedPrimary [0b11111111000000000000001000010001] = .ok (.sendByte 2 0xFF) := by rfl

theorem test_decode_sendString :
    decode .fixedPrimary [0b00000000000000000000000100010010, 0x00002000] = .ok (.sendString 1 0x2000) := by rfl

theorem test_decode_clearFlags :
    decode .operand [0b00000000000000000000000100010011] = .ok (.clearFlags 1) := by rfl

/-- Section 2.1: every row marked illegal is rejected, an opcode that is no row's by that name. -/
theorem test_decode_rejects :
    decode .fixedPrimary [0x00000000] = .error (.illegalOpcode 0x00) ∧
    decode .fixedPrimary [0x00000014] = .error (.illegalOpcode 0x14) ∧
    decode .fixedPrimary [0x000000FF] = .error (.illegalOpcode 0xFF) ∧
    decode .fixedPrimary [0x01000002] = .error (.reservedBits 0x02) ∧
    decode .fixedPrimary [0x00800003] = .error (.reservedBits 0x03) ∧
    decode .fixedPrimary [0x02000007] = .error (.reservedBits 0x07) ∧
    decode .fixedPrimary [0x80000008] = .error (.reservedBits 0x08) ∧
    decode .fixedPrimary [0x00000107] = .error (.reservedBits 0x07) ∧
    decode .fixedPrimary [0x00000411] = .error (.reservedBits 0x11) ∧
    decode .fixedPrimary [0x0100000F] = .error (.reservedBits 0x0F) ∧
    decode .fixedPrimary [0x01000012, 0x00002000] = .error (.reservedBits 0x12) ∧
    decode .fixedPrimary [0x00000004, 0x40004C00, 0x0000010C] = .error (.reservedMaskBits 0x04) ∧
    decode .fixedPrimary [0x04120801, 0, 0] = .error (.reservedBits 0x01) ∧
    decode .fixedPrimary [0x00000004, 0x40004C00] = .error .notOneCommand := by
  refine ⟨?_, ?_, ?_, ?_, ?_, ?_, ?_, ?_, ?_, ?_, ?_, ?_, ?_, ?_⟩ <;> rfl

/-- Bits numbered as the opcode table numbers them: the second word from bit 32 on. -/
theorem test_decodeTableWord :
    decodeTableWord 64 0x0000200000000112 = some (.sendString 1 0x2000) ∧
    decodeTableWord 32 0x00000112 = some (.sendString 1 0) ∧ decodeTableWord 32 0x113 = none := by
  refine ⟨?_, ?_, ?_⟩ <;> rfl

/-- A command presented to the machine right after reset is accepted by the very next step, a multi-word one too. -/
theorem test_withFetchWord :
    (match step (State.reset.withFetchWord 64 0x0000200000000112) with
      | .next t => some (t.seq, t.program)
      | .fault _ => none
      | .refused _ => none) = some (.ssFetch 1 0x2000, []) := by rfl

/-! ## Well-formedness: an ill-formed term for the one check there is (R87) -/

theorem test_wf_setter_instance :
    (Instr.setBitOrder 1 true).wf .fixedPrimary = false ∧ (Instr.setBitOrder 1 true).wf .operand = true ∧
    (Instr.clearFlags 3).wf .fixedPrimary = false ∧ (Instr.applyBaud 2 0).wf .fixedPrimary = false ∧
    (Instr.enable 3).wf .fixedPrimary = true := by decide

/-- The words of an ill-formed command are refused by the decoder. -/
theorem test_wf_refused : decode .fixedPrimary (encode (.setBitOrder 1 true)) = .error (.reservedBits 0x07) := by rfl

/-! ## The lines of R93 and the pseudo-commands of R94 -/

theorem test_asm_construct :
    asmLine .fixedPrimary (.construct ⟨0, 0x40004C00, 0x0C, 2, true, true, true, 0, false, true, false, true, false⟩) =
      [.word "construct", .num 0, .num 0x40004C00, .num 0x0C, .word "sub_main", .word "msb", .word "two", .word "even",
        .num 0, .word "async", .word "len7", .word "nos", .word "on", .word "off"] := by decide

theorem test_asm_reconfigure :
    reconfigure .fixedPrimary 0 (.setParity 0 true) = some [.disable 0, .setParity 0 true, .enable 0] ∧
    reconfigure .fixedPrimary 1 (.setParity 0 true) = none := by decide

/-! ## One command each, from a small state -/

/-- The launch state with `U[0].CTLW0` and `U[0].MCTLW` as given, every other register at its power-on value. -/
def withRegs (ctlw0 mctlw : Half) : State :=
  { State.resetPor with
    uart := { State.resetPor.uart with u0 := { UartRegs.porDefaults with ctlw0 := .ofBits ctlw0, mctlw := .ofBits mctlw } } }

/-- The state in which `U[0]` has the given TXIE and TXIFG and SWRST 0. -/
def withFlags (txie txifg : Bool) : State :=
  { State.resetPor with
    uart := { State.resetPor.uart with
      u0 := { UartRegs.porDefaults with
        ctlw0 := .ofBits 0x0080
        ie := ⟨if txie then 2 else 0, 2⟩
        ifg := ⟨if txifg then 2 else 0, 2⟩ } } }

/-- A command accepted, and `n` steps of the block after it. -/
def after (n : Nat) (i : Instr) (s : State) : Option State :=
  match exec i s with
  | .next t =>
    match Sys2Proof.core.run n t with
    | .next u => some u
    | .fault _ => none
    | .refused _ => none
  | .fault _ => none
  | .refused _ => none

/-- CTLW0 of `U[0]` after a command and `n` steps, every bit defined. -/
def ctlw0After (n : Nat) (i : Instr) (prior : Half) : Option (Reg 16) :=
  (after n i (withRegs prior 0)).map fun s => s.uart.u0.ctlw0

/-- Section 2.2: 0x00057801 stores its fields verbatim. -/
theorem test_construct :
    (after 2 (.construct ⟨0, 0x40004C00, 0x0C, 2, true, true, true, 0, false, true, false, true, false⟩) .reset).map
        (fun s => (s.desc, s.trace)) =
      some (some ⟨0, 0x40004C00, 0x0C, 2, true, true, true, 0, false, true, false, true, false⟩, []) := by rfl

/-- Section 2.2, first row, with the spec's general-knowledge port and mask. -/
theorem test_constructDefault :
    (after 2 .constructDefault .reset).map (fun s => (s.desc, s.seq)) =
      some (some ⟨0, 0x40004C00, 0x0C, 2, false, false, false, 4, false, false, true, false, false⟩, .idle) := by rfl

/-- Section 2.3: NO_DESCRIPTOR at acceptance. -/
theorem test_initialize_noDescriptor :
    (after 0 .initializeCmd .reset).map (fun s => (s.seq, s.flt.noDescriptor, s.trace)) = some (.faulted, true, []) := by rfl

/-- P5: with baud index 99 the list has 14 micro-operations; with the default descriptor 16. -/
theorem test_initialize_length :
    (initOps .default ⟨0, 0x40004C00, 0x0C, 2, false, false, false, 99, false, false, true, false, false⟩).length = 14 ∧
    (initOps .default (defaultDesc .default)).length = 16 := by decide

/-- L1.5, second row: mask 0x0C with DIR, SEL1 and SEL0 all 0xFF. -/
theorem test_configurePins :
    (after 4 (.configurePins 0x40004C00 0x0C)
        { State.resetPor with gpio := [(0x40004C00, ⟨.ofBits 0xFF, .ofBits 0xFF, .ofBits 0xFF⟩)] }).map (fun s => s.gpio) =
      some [(0x40004C00, ⟨.ofBits 0xF3, .ofBits 0xFF, .ofBits 0xF3⟩)] := by rfl

/-- L1.5, last row: only the bits of the mask become defined. -/
theorem test_configurePins_unwritten :
    (after 4 (.configurePins 0x40004C00 0x0C) .reset).map (fun s => s.gpio) =
      some [(0x40004C00, ⟨⟨0x00, 0x0C⟩, ⟨0x0C, 0x0C⟩, ⟨0x00, 0x0C⟩⟩)] := by rfl

/-- Section 2.3: index 3 over MCTLW 0xFFFF. -/
theorem test_applyBaud :
    (after 3 (.applyBaud 0 3) (withRegs 0x0001 0xFFFF)).map (fun s => (s.uart.u0.brw, s.uart.u0.mctlw)) =
      some (.ofBits 0x000D, .ofBits 0x2501) := by rfl

/-- L1.2: an index of 99 writes nothing although the instance is enabled. -/
theorem test_applyBaud_outOfRange :
    (after 1 (.applyBaud 0 99) (withRegs 0x0080 0xABCE)).map (fun s => (s.uart.u0.mctlw, s.seq, s.trace)) =
      some (.ofBits 0xABCE, .idle, []) := by rfl

/-- Section 2.4: the clock field is replaced, not OR-ed. -/
theorem test_setClock : ctlw0After 2 (.setClock 0 1) 0x0081 = some (.ofBits 0x0041) := by rfl

theorem test_setClock_ones : ctlw0After 2 (.setClock 0 1) 0xFFFF = some (.ofBits 0xFF7F) := by rfl

theorem test_setBitOrder : ctlw0After 2 (.setBitOrder 0 true) 0x0081 = some (.ofBits 0x2081) := by rfl

theorem test_setBitOrder_lsb : ctlw0After 2 (.setBitOrder 0 false) 0xFFFF = some (.ofBits 0xDFFF) := by rfl

theorem test_setStopBits : ctlw0After 2 (.setStopBits 0 true) 0x0081 = some (.ofBits 0x0881) := by rfl

theorem test_setStopBits_one : ctlw0After 2 (.setStopBits 0 false) 0xFFFF = some (.ofBits 0xF7FF) := by rfl

/-- L1.4: enabling gives PEN 1 and PAR 0 from PAR 1; disabling leaves PAR. -/
theorem test_setParity_even : ctlw0After 3 (.setParity 0 true) 0x4081 = some (.ofBits 0x8081) := by rfl

theorem test_setParity_none : ctlw0After 2 (.setParity 0 false) 0xC081 = some (.ofBits 0x4081) := by rfl

theorem test_setCharLen : ctlw0After 2 (.setCharLen 0 true) 0x0081 = some (.ofBits 0x1081) := by rfl

theorem test_setCharLen_len8 : ctlw0After 2 (.setCharLen 0 false) 0xFFFF = some (.ofBits 0xEFFF) := by rfl

theorem test_setSync : ctlw0After 2 (.setSync 0 true) 0x0081 = some (.ofBits 0x0181) := by rfl

theorem test_setSync_async : ctlw0After 2 (.setSync 0 false) 0xFFFF = some (.ofBits 0xFEFF) := by rfl

/-- Section 2.4: reserved bits 3:1 of MCTLW are kept. -/
theorem test_setOversample :
    (after 2 (.setOversample 0 true) (withRegs 0x0001 0x000E)).map (fun s => s.uart.u0.mctlw) = some (.ofBits 0x000F) := by rfl

theorem test_setOversample_nos :
    (after 2 (.setOversample 0 false) (withRegs 0x0001 0x2081)).map (fun s => s.uart.u0.mctlw) = some (.ofBits 0x2080) := by rfl

theorem test_setRxeie : ctlw0After 2 (.setRxeie 0 true) 0x0081 = some (.ofBits 0x00A1) := by rfl

theorem test_setRxeie_off : ctlw0After 2 (.setRxeie 0 false) 0xFFFF = some (.ofBits 0xFFDF) := by rfl

theorem test_setBrkie : ctlw0After 2 (.setBrkie 0 true) 0x0081 = some (.ofBits 0x0091) := by rfl

theorem test_setBrkie_off : ctlw0After 2 (.setBrkie 0 false) 0xFFFF = some (.ofBits 0xFFEF) := by rfl

/-- Section 2.6. -/
theorem test_enable : ctlw0After 2 (.enable 0) 0x8081 = some (.ofBits 0x8080) := by rfl

/-- Section 2.6: a write of SWRST is no configuration write; on an unwritten register it defines one bit. -/
theorem test_enable_unwritten :
    (after 2 (.enable 0) .reset).map (fun s => (s.uart.u0.ctlw0, s.seq)) = some (⟨0x0000, 0x0001⟩, .idle) := by rfl

theorem test_disable :
    (after 2 (.disable 1) .resetPor).map (fun s => (s.uart.u1.ctlw0, s.uart.u0.ctlw0)) =
      some (.ofBits 0x0001, .ofBits 0x0001) := by rfl

/-- Section 2.6: `disable 0` with BUSY 1. -/
theorem test_disable_duringTx :
    (after 1 (.disable 0)
        { State.resetPor with
          uart := { State.resetPor.uart with u0 := { UartRegs.porDefaults with ctlw0 := .ofBits 0x0080, busy := true } } }).map
        (fun s => (s.seq, s.flt.setterDuringTx, s.uart.u0.ctlw0)) = some (.faulted, true, .ofBits 0x0080) := by rfl

/-- Section 2.5: TXIE 1, TXIFG 0: the overrun record `(0, 0x41, 0, 0)`. -/
theorem test_sendByte :
    (after 2 (.sendByte 0 0x41) (withFlags true false)).map (fun s => (s.txlog, s.uart.u0.busy, s.uart.u0.txbuf)) =
      some ([⟨0, 0x41, some false, some false⟩], true, ⟨0x41, 0xFF⟩) := by rfl

/-- P7: with TXIE unwritten, UNWRITTEN_READ at SB_CHECK. -/
theorem test_sendByte_unwritten :
    (after 1 (.sendByte 0 0x41) .reset).map (fun s => (s.flt.info, s.txlog)) =
      some (some ⟨[0x41000011], .sbCheck, .unwrittenRead, .bit 0 .ie 1⟩, []) := by rfl

/-- L1.6, first row: an empty string sends nothing and reads one byte. -/
theorem test_sendString_empty :
    (after 1 (.sendString 0 0x2000) { State.resetPor with mem := [(0x2000, 0x00)] }).map (fun s => (s.trace, s.txlog, s.seq)) =
      some ([.mr 0x2000 0x00], [], .idle) := by rfl

/-- Section 2.5: the pointer wraps from 0xFFFFFFFF to 0. -/
theorem test_sendString_wraps :
    (after 1 (.sendString 0 0xFFFFFFFF) { State.resetPor with mem := [(0xFFFFFFFF, 0x41)] }).map (fun s => s.seq) =
      some (.sbCheck 0 0x41 (.next 0)) := by rfl

/-- Section 2.6: 0xFFFF gives 0xF9C1 under MODE_FIELD. -/
theorem test_clearFlags : ctlw0After 2 (.clearFlags 0) 0xFFFF = some (.ofBits 0xF9C1) := by rfl

/-- Section 2.6: 0xFFFF gives 0xFEC1 under SYNC_BIT. -/
theorem test_clearFlags_syncBit :
    (after 2 (.clearFlags 0)
        { withRegs 0xFFFF 0 with params := { Params.default with clearTarget := .syncBit } }).map (fun s => s.uart.u0.ctlw0) =
      some (.ofBits 0xFEC1) := by rfl

/-! ## Witnesses: for each statement with hypotheses, a state and operands that meet them all -/

/-- A descriptor for the port the default parameters admit, for instance `i`. -/
def descFor (i : Inst) : Descriptor := ⟨i, 0x40004C00, 0x0C, 2, false, false, false, 4, false, false, true, false, false⟩

/-- The power-on launch state with a descriptor. -/
def withDesc (i : Inst) : State := { State.resetPor with desc := some (descFor i) }

/-- The power-on launch state with a program line. -/
def withLine (l : Line) : State := { State.resetPor with program := [l] }

/-- The power-on launch state in another sequencer state. -/
def inSeq (q : Seq) : State := { State.resetPor with seq := q }

/-- A transmission in flight on instance 0, TXIFG as given. -/
def inFlight (txifg : Bool) : State :=
  { State.resetPor with
    uart := { State.resetPor.uart with
      u0 := { UartRegs.porDefaults with ifg := ⟨if txifg then 2 else 0, 2⟩, busy := true } } }

theorem test_witness_PorLaunchHoldsThePowerOnValues : (15 : Nat) < 16 ∧ (7 : Nat) < 8 := by decide

theorem test_witness_BlockResetResetsOnlyTheBlock :
    ({ inSeq .faulted with env := [.blockReset, .run] } : State).env = .blockReset :: [.run] ∧
    ∃ t, step { inSeq .faulted with env := [.blockReset] } = .next t ∧
      ({ inSeq .faulted with env := [.blockReset] } : State).seq = .faulted ∧ t.seq ≠ .faulted :=
  ⟨rfl, _, rfl, rfl, by decide⟩

theorem test_witness_DecodeOfEncodeIsTheCommand :
    (Instr.setBitOrder 0 true).wf .fixedPrimary = true ∧ (Instr.setBitOrder 3 true).wf .operand = true := by decide

theorem test_witness_EncodeOfDecodeIsTheWords :
    decode .operand [0x00000107] = .ok (.setBitOrder 1 false) ∧
    decode .fixedPrimary [0x04020801, 0x40004C00, 0x0000000C] = .ok (.construct (descFor 0)) := ⟨rfl, rfl⟩

theorem test_witness_DecodesExactlyWhenFieldsAreLegal :
    isOneCommand [0x00000004, 0x40004C00, 0x0000010C] = true ∧ isOneCommand [0x00000014] = true ∧
    isOneCommand [0x00000012, 0x00002000] = true := by decide

/-- An opcode that is no row's, and a row's with a bit set that must be 0. -/
theorem test_witness_IllegalCommandFaultsAtAcceptance :
    (withLine (.command [0x00000014])).seq = .idle ∧ (withLine (.command [0x00000014])).env = [] ∧
    (withLine (.command [0x00000014])).program = .command (0x00000014 :: []) :: [] ∧
    isOneCommand [0x00000014] = true ∧ isOneCommand [0x01000002] = true ∧
    ¬ legalByFields .fixedPrimary 0x00000014 0 ∧ ¬ legalByFields .fixedPrimary 0x01000002 0 := by
  refine ⟨rfl, rfl, rfl, rfl, rfl, ?_, ?_⟩
  · exact id
  · exact fun h => absurd h.2.1 (by decide)

theorem test_witness_StepRunsTheDecodedCommand :
    (withLine (.command [0x0000000F])).seq = .idle ∧
    (withLine (.command [0x0000000F])).program = .command [0x0000000F] :: [] ∧
    decode (withLine (.command [0x0000000F])).params.setterMode [0x0000000F] = .ok (.enable 0) ∧
    (withLine (.command [0x0000000F])).env = [] ∧
    ({ withLine (.command [0x0000000F]) with env := [.run] } : State).env = .run :: [] := ⟨rfl, rfl, rfl, rfl, rfl⟩

theorem test_witness_CommandsAreAcceptedOnlyInIdle :
    (inSeq (.sbCheck 0 0x41 .done)).seq ≠ .idle ∧ ∃ t, step (inSeq (.sbCheck 0 0x41 .done)) = .next t :=
  ⟨by decide, _, rfl⟩

theorem test_witness_AcceptanceChangesOnlyTheSequencer :
    (∃ t, exec (.enable 0) .reset = .next t) ∧ ∃ t, exec .initializeCmd .reset = .next t := ⟨⟨_, rfl⟩, _, rfl⟩

theorem test_witness_ConstructorsStoreTheDescriptor : State.reset.seq = .idle ∧ State.reset.env = [] := ⟨rfl, rfl⟩

theorem test_witness_OnlyConstructorsWriteTheDescriptor :
    (∃ t, step (inSeq (.exec [.latchDesc (descFor 0)] 0)) = .next t ∧
      t.desc ≠ (inSeq (.exec [.latchDesc (descFor 0)] 0)).desc) ∧
    ∃ t ops j, exec (.construct (descFor 0)) .reset = .next t ∧ t.seq = .exec ops j ∧
      MicroOp.latchDesc (descFor 0) ∈ ops :=
  ⟨⟨_, rfl, by decide⟩, _, _, _, rfl, rfl, by decide⟩

theorem test_witness_ConfigurePinsRoutesTheMaskedPins :
    State.reset.seq = .idle ∧ State.reset.env = [] ∧ validPort State.reset.params 0x40004C00 = true := ⟨rfl, rfl, by decide⟩

theorem test_witness_BaudTableHoldsTheFiveEntries : (0 : Nat) < 5 ∧ (4 : Nat) < 5 := by decide

/-- The configuration guards pass on the power-on state (SWRST 1, BUSY 0), and under ALLOW whatever SWRST is. -/
theorem test_witness_ApplyBaudWritesTheTableEntry :
    State.resetPor.seq = .idle ∧ State.resetPor.env = [] ∧ (0x00#8).toNat < 5 ∧ (0x04#8).toNat < 5 ∧
    ConfigOk State.resetPor (setterTarget State.resetPor.params 3) ∧
    ConfigOk { State.reset with params := { Params.default with activePolicy := .allow } } 0 :=
  ⟨rfl, rfl, by decide, by decide, ⟨⟨rfl, rfl⟩, .inr rfl⟩, ⟨⟨rfl, rfl⟩, .inl rfl⟩⟩

theorem test_witness_OutOfRangeOperandsAreSilentNoOps :
    State.reset.seq = .idle ∧ State.reset.env = [] ∧ 5 ≤ (0x05#8).toNat ∧ 5 ≤ (0xFF#8).toNat ∧ 3 ≤ (0x03#8).toNat ∧
    3 ≤ (0xFF#8).toNat := ⟨rfl, rfl, by decide, by decide, by decide, by decide⟩

theorem test_witness_SetClockReplacesTheClockField :
    State.resetPor.seq = .idle ∧ State.resetPor.env = [] ∧ (0x00#8).toNat < 3 ∧ (0x02#8).toNat < 3 ∧
    ConfigOk State.resetPor (setterTarget State.resetPor.params 0) :=
  ⟨rfl, rfl, by decide, by decide, ⟨⟨rfl, rfl⟩, .inr rfl⟩⟩

theorem test_witness_OneBitSettersWriteTheirBit :
    State.resetPor.seq = .idle ∧ State.resetPor.env = [] ∧ ConfigOk State.resetPor (setterTarget State.resetPor.params 0) :=
  ⟨rfl, rfl, ⟨⟨rfl, rfl⟩, .inr rfl⟩⟩

/-- PAR is 1 here before the command. -/
theorem test_witness_SetParityHasTwoStepSemantics :
    (withRegs 0x4081 0).seq = .idle ∧ (withRegs 0x4081 0).env = [] ∧
    ConfigOk (withRegs 0x4081 0) (setterTarget (withRegs 0x4081 0).params 0) := ⟨rfl, rfl, ⟨⟨rfl, rfl⟩, .inr rfl⟩⟩

/-- SWRST 1, and SWRST ⊥. -/
theorem test_witness_EnableAndDisableWriteTheResetBit :
    State.resetPor.seq = .idle ∧ State.resetPor.env = [] ∧ SetterOk State.resetPor 3 ∧ SetterOk State.reset 0 :=
  ⟨rfl, rfl, ⟨rfl, rfl⟩, ⟨rfl, rfl⟩⟩

theorem test_witness_ClearFlagsZeroesItsBits :
    (withRegs 0xFFFF 0).seq = .idle ∧ (withRegs 0xFFFF 0).env = [] ∧
    ConfigOk (withRegs 0xFFFF 0) (setterTarget (withRegs 0xFFFF 0).params 0) ∧
    (withRegs 0xFFFF 0).params.clearTarget = .modeField ∧
    ConfigOk { withRegs 0xFFFF 0 with params := { Params.default with clearTarget := .syncBit } } 0 :=
  ⟨rfl, rfl, ⟨⟨rfl, rfl⟩, .inr rfl⟩, rfl, ⟨⟨rfl, rfl⟩, .inr rfl⟩⟩

theorem test_witness_SettersAreIdempotent :
    State.resetPor.seq = .idle ∧ State.resetPor.env = [] ∧ ConfigOk State.resetPor (setterTarget State.resetPor.params 0) :=
  ⟨rfl, rfl, ⟨⟨rfl, rfl⟩, .inr rfl⟩⟩

/-- No list is pending in IDLE; a host write sets PAR. -/
theorem test_witness_OddParityIsUnreachable :
    NoOddParityPending (withLine (.hostUart 0 .ctlw0 0x4000 0x4000)) ∧
    ∃ t, step (withLine (.hostUart 0 .ctlw0 0x4000 0x4000)) = .next t ∧ uartBit t 0 .ctlw0 14 = some true :=
  ⟨fun _ _ h => (nomatch h), _, rfl, rfl⟩

theorem test_witness_InitializeWithoutDescriptorFaults : State.reset.seq = .idle ∧ State.reset.desc = none := ⟨rfl, rfl⟩

/-- The target under FIXED_PRIMARY is 0 whatever the descriptor's instance; under OPERAND it is that instance. -/
theorem test_witness_InitializeEntersTheThirteenSteps :
    (withDesc 1).seq = .idle ∧ (withDesc 1).desc = some (descFor 1) ∧
    (withDesc 1).params.setterMode = .fixedPrimary ∧
    ({ withDesc 1 with params := { Params.default with setterMode := .operand } } : State).params.setterMode = .operand ∧
    (descFor 1).inst = 1 := ⟨rfl, rfl, rfl, rfl, rfl⟩

/-- Inside INITIALIZE's list, at its first index and at its last: the reset bit is 1. -/
theorem test_witness_ResetBitIsHeldThroughInitialize :
    let at1 : State := inSeq (.exec (initOps .default (descFor 0)) 1)
    let at15 : State := inSeq (.exec (initOps .default (descFor 0)) 15)
    InitHoldsReset at1 ∧ InitHoldsReset at15 ∧ (initOps .default (descFor 0)).length = 16 ∧
      (∃ t, step at1 = .next t) ∧ ∃ t, step at15 = .next t := by
  have all : ∀ i : Inst, uartBit State.resetPor i .ctlw0 0 = some true := fun i => by
    rcases inst_cases i with h | h | h | h <;> subst h <;> rfl
  exact ⟨fun d _ _ _ _ => all d.inst, fun d _ _ _ _ => all d.inst, by decide, ⟨_, rfl⟩, _, rfl⟩

/-- Both cases of the last hypothesis: the descriptor's instance is the setter target, and it is not. -/
theorem test_witness_InitializeConfiguresTheTarget :
    (withDesc 0).seq = .idle ∧ (withDesc 0).env = [] ∧ (withDesc 0).desc = some (descFor 0) ∧
    validPort (withDesc 0).params (descFor 0).portAddress = true ∧ SetterOk (withDesc 0) 0 ∧
    setterTarget (withDesc 0).params (descFor 0).inst = (descFor 0).inst ∧
    (withDesc 1).desc = some (descFor 1) ∧ SetterOk (withDesc 1) (descFor 1).inst ∧
    SetterOk (withDesc 1) (setterTarget (withDesc 1).params (descFor 1).inst) ∧
    ConfigOk (withDesc 1) (setterTarget (withDesc 1).params (descFor 1).inst) :=
  ⟨rfl, rfl, rfl, by decide, ⟨rfl, rfl⟩, rfl, rfl, ⟨rfl, rfl⟩, ⟨rfl, rfl⟩, ⟨⟨rfl, rfl⟩, .inr rfl⟩⟩

/-- Program P6's launch: the primary enabled, the descriptor for instance 1. -/
theorem test_witness_InitializeOnAnEnabledPrimaryFaults :
    let s : State := { withRegs 0x0080 0 with desc := some (descFor 1) }
    s.seq = .idle ∧ s.env = [] ∧ s.desc = some (descFor 1) ∧ validPort s.params (descFor 1).portAddress = true ∧
    s.params.setterMode = .fixedPrimary ∧ (descFor 1).inst ≠ 0 ∧ SetterOk s (descFor 1).inst ∧ SetterOk s 0 ∧
    s.params.activePolicy = .fault ∧ (s.u 0).swrst = some false :=
  ⟨rfl, rfl, rfl, by decide, rfl, by decide, ⟨rfl, rfl⟩, ⟨rfl, rfl⟩, rfl, rfl⟩

theorem test_witness_SendByteWritesAtOnceInInterruptMode :
    (withFlags true false).seq = .idle ∧ (withFlags true false).env = [] ∧ (withFlags true false).hasInst 0 = true ∧
    ((withFlags true false).u 0).txie = some true := ⟨rfl, rfl, rfl, rfl⟩

theorem test_witness_SendBytePollsThenWrites :
    (withFlags false true).seq = .idle ∧ (withFlags false true).env = [] ∧ (withFlags false true).hasInst 0 = true ∧
    ((withFlags false true).u 0).txie = some false ∧ ((withFlags false true).u 0).txifg = some true := ⟨rfl, rfl, rfl, rfl, rfl⟩

/-- Polling with TXIFG as given and TXIE 0. -/
def polling (txifg fair : Bool) : State :=
  { withFlags false txifg with
    seq := .sbPoll 0 0x41 .done
    params := { Params.default with txifgFair := fair } }

theorem test_witness_PollingAClearFlagHangs :
    (polling false false).seq = .sbPoll 0 0x41 .done ∧ (polling false false).env = [] ∧ (polling false false).hasInst 0 = true ∧
    ((polling false false).u 0).txifg = some false ∧ (polling false false).params.txifgFair = false := ⟨rfl, rfl, rfl, rfl, rfl⟩

theorem test_witness_FairPollingCompletes :
    (polling false true).seq = .sbPoll 0 0x41 .done ∧ (polling false true).params.txifgFair = true ∧
    (polling false true).hasInst 0 = true ∧ ((polling false true).u 0).txifg ≠ none ∧
    EnvMove.blockReset ∉ (polling false true).env ∧
    EnvMove.blockReset ∉ ({ polling false true with env := [.run, .txDone 0] } : State).env :=
  ⟨rfl, rfl, rfl, by decide, by decide, by decide⟩

/-- "Hi" at 0x2000, and the empty string. -/
def withString : State := { withFlags true true with mem := [(0x2000, 0x48), (0x2001, 0x69), (0x2002, 0x00)] }

theorem test_witness_SendStringCompletesInInterruptMode :
    withString.seq = .idle ∧ withString.env = [] ∧ withString.hasInst 0 = true ∧ (withString.u 0).txie = some true ∧
    HoldsString withString 0x2000 ([0x48, 0x69] ++ [0]) ∧ HoldsString withString 0x2002 ([] ++ [0]) ∧
    (∀ c ∈ ([0x48, 0x69] : List Byte), c ≠ 0) :=
  ⟨rfl, rfl, rfl, rfl, ⟨by decide, rfl, by decide, rfl, by decide, rfl, trivial⟩, ⟨by decide, rfl, trivial⟩, by decide⟩

/-- A run of four steps that ends in IDLE for the first time: one character. -/
theorem test_witness_SendStringTransmitsInOrder :
    let s : State := { withString with seq := .ssFetch 0 0x2001 }
    ∃ u, s.seq = .ssFetch 0 0x2001 ∧ HoldsString s 0x2001 ([0x69] ++ [0]) ∧ (∀ c ∈ ([0x69] : List Byte), c ≠ 0) ∧
      EnvMove.blockReset ∉ s.env ∧ Sys2Proof.core.run 4 s = .next u ∧ u.seq = .idle ∧
      ∀ m v, m < 4 → Sys2Proof.core.run m s = .next v → v.seq ≠ .idle := by
  refine ⟨_, rfl, ⟨by decide, rfl, by decide, rfl, trivial⟩, by decide, by decide, rfl, rfl, ?_⟩
  intro m v hm hv
  rcases (by omega : m = 0 ∨ m = 1 ∨ m = 2 ∨ m = 3) with h | h | h | h <;> subst h <;>
    (obtain rfl := Host.Outcome.next.inj hv; intro hc; cases hc)

/-- In SB_WRITE with TXIE 0 and TXIFG 1: the step appends an entry. -/
theorem test_witness_PollingNeverOverruns :
    let s : State := { withFlags false true with seq := .sbWrite 0 0x41 .done }
    PollOk s ∧ ∃ t e, step s = .next t ∧ t.txlog = s.txlog ++ [e] ∧ (s.u e.inst).txie = some false :=
  ⟨fun _ => rfl, _, _, rfl, rfl, rfl⟩

/-- Every branch of the chain of guards has a state: no instance, BUSY, SWRST ⊥, SWRST 0, and all clear. -/
theorem test_witness_GuardsApplyInOrder :
    let ops : List MicroOp := [.bitWrite 0 .ctlw0 13 true]
    (withLine (.command [0x00000103])).desc = none ∧ isOneCommand [0x00000103] = true ∧
    ¬ legalByFields .fixedPrimary 0x00000103 0 ∧
    ops[0]? = some (.bitWrite 0 .ctlw0 13 true) ∧ uartTarget (.bitWrite 0 .ctlw0 13 true) = some 0 ∧
    ({ inSeq (.exec ops 0) with params := { Params.default with nInst := 0 } } : State).hasInst 0 = false ∧
    ((MicroOp.bitWrite 0 .ctlw0 13 true).isSetterWrite = true ∧ ((inFlight true).u 0).busy = true) ∧
    ((MicroOp.bitWrite 0 .ctlw0 13 true).isConfigWrite = true ∧ State.reset.params.activePolicy = .fault ∧
      (State.reset.u 0).swrst = none) ∧
    ((withRegs 0x0080 0).u 0).swrst = some false ∧
    ((State.resetPor.u 0).busy = false ∧ (State.resetPor.u 0).swrst = some true) ∧
    (State.reset.u 0).txie = none ∧ ((withFlags true true).u 0).txie = some true ∧
    ((withFlags false true).u 0).txie = some false ∧ (State.reset.u 0).txifg = none ∧
    ({ inSeq (.sbPoll 0 0x41 .done) with env := [.run] } : State).env = [.run] := by
  refine ⟨rfl, rfl, ?_, rfl, rfl, rfl, ⟨rfl, rfl⟩, ⟨rfl, rfl, rfl⟩, rfl, ⟨rfl, rfl⟩, rfl, rfl, rfl, rfl, rfl⟩
  exact fun h => absurd h.2.2 (by decide)

theorem test_witness_WriteClasses :
    (UReg.ctlw0 = .ctlw0 ∧ (13 : Fin 16) ≠ 0) ∧ (1 : Fin 16) ≠ 0 ∧ UReg.mctlw ∈ [UReg.ctlw0, .brw, .mctlw] := by decide

/-- A fault in a list, and one at acceptance. -/
theorem test_witness_FaultsArePrecise :
    (∃ t, step { withRegs 0x0080 0 with seq := .exec [.bitWrite 0 .ctlw0 13 true] 0 } = .next t ∧ t.seq = .faulted) ∧
    ∃ t, step (withLine (.command [0x00000003])) = .next t ∧ (withLine (.command [0x00000003])).seq ≠ .faulted ∧
      t.seq = .faulted := ⟨⟨_, rfl, rfl⟩, _, rfl, by decide, rfl⟩

theorem test_witness_FaultedHasNoStepOfTheBlock :
    (inSeq .faulted).seq = .faulted ∧ (inSeq .faulted).env = [] ∧
    ({ inSeq .faulted with env := [.run] } : State).env = .run :: [] ∧
    ({ inSeq .faulted with env := [.txReady 3] } : State).env = .txReady 3 :: [] ∧ (inSeq .faulted).hasInst 3 = true ∧
    ∃ t, step { inSeq .faulted with env := [.txReady 3] } = .next t ∧
      ({ inSeq .faulted with env := [.txReady 3] } : State).env.head? ≠ some .blockReset :=
  ⟨rfl, rfl, rfl, rfl, rfl, _, rfl, by decide⟩

/-- A port that is not admitted, just beside the one that is; an address that is not admitted. -/
theorem test_witness_StuckStatesHaveNoStep :
    (inSeq (.exec [.gpioClr 0x40004C01 .dir 0x0C] 0)).seq = .exec [.gpioClr 0x40004C01 .dir 0x0C] 0 ∧
    validPort State.resetPor.params 0x40004C01 = false ∧
    [MicroOp.gpioClr 0x40004C01 .dir 0x0C][0]? = some (.gpioClr 0x40004C01 .dir 0x0C) ∧
    (inSeq (.ssFetch 0 0x2001)).seq = .ssFetch 0 0x2001 ∧
    memAdmit { Params.default with memAdmit := [⟨0x2000, 0x2000⟩] } 0x2001 = false :=
  ⟨rfl, by decide, rfl, rfl, by decide⟩

/-- TxDone enabled, and not (TXIFG 0). -/
theorem test_witness_EnvironmentEvents :
    ({ inFlight true with env := [.txReady 3] } : State).env = .txReady 3 :: [] ∧ (inFlight true).hasInst 3 = true ∧
    ({ inFlight true with env := [.txDone 0] } : State).env = .txDone 0 :: [] ∧ (inFlight true).hasInst 0 = true ∧
    ((inFlight true).u 0).busy = true ∧ ((inFlight true).u 0).txifg = some true ∧
    ¬ ((inFlight false).hasInst 0 = true ∧ ((inFlight false).u 0).busy = true ∧ ((inFlight false).u 0).txifg = some true) :=
  ⟨rfl, rfl, rfl, rfl, rfl, rfl, by decide⟩

theorem test_witness_HostWritesBetweenCommands :
    (withLine (.hostUart 3 .ie 0xFFFF 0x0002)).program = .hostUart 3 .ie 0xFFFF 0x0002 :: [] ∧
    (withLine (.hostUart 3 .ie 0xFFFF 0x0002)).seq = .idle ∧ (withLine (.hostUart 3 .ie 0xFFFF 0x0002)).env = [] ∧
    (withLine (.hostUart 3 .ie 0xFFFF 0x0002)).hasInst 3 = true ∧
    (withLine (.hostGpio 0x40004C00 .dir 0xFF 0x0F)).program = .hostGpio 0x40004C00 .dir 0xFF 0x0F :: [] ∧
    validPort (withLine (.hostGpio 0x40004C00 .dir 0xFF 0x0F)).params 0x40004C00 = true ∧
    (withLine (.hostMem 0xFFFFFFFF 0x41)).program = .hostMem 0xFFFFFFFF 0x41 :: [] :=
  ⟨rfl, rfl, rfl, rfl, rfl, by decide, rfl⟩

/-- A host write that changes TXIE of instance 0, and one that changes a byte of memory. -/
theorem test_witness_BlockNeverWritesMemoryOrTxie :
    SequencerOk (withLine (.hostUart 0 .ie 0x0002 0x0002)) ∧
    (∃ t, step (withLine (.hostUart 0 .ie 0x0002 0x0002)) = .next t ∧
      (t.u 0).txie ≠ ((withLine (.hostUart 0 .ie 0x0002 0x0002)).u 0).txie) ∧
    let s : State := { withLine (.hostMem 0x2000 0x41) with mem := [(0x2000, 0x00)] }
    SequencerOk s ∧ ∃ t, step s = .next t ∧ t.readByte 0x2000 ≠ s.readByte 0x2000 :=
  ⟨rfl, ⟨_, rfl, by decide⟩, rfl, _, rfl, by decide⟩

/-- BUSY set by SB_WRITE; cleared by a TxDone of the schedule, and by one that is a line of the program. -/
theorem test_witness_BusyMarksATransmissionInFlight :
    (∃ t, step (inSeq (.sbWrite 0 0x41 .done)) = .next t ∧ ((inSeq (.sbWrite 0 0x41 .done)).u 0).busy = false ∧
      (t.u 0).busy = true) ∧
    (∃ t, step { inFlight true with env := [.txDone 0] } = .next t ∧ ((inFlight true).u 0).busy = true ∧
      (t.u 0).busy = false) ∧
    ∃ t, step { inFlight true with program := [.txDone 0] } = .next t ∧ (t.u 0).busy = false :=
  ⟨⟨_, rfl, rfl, rfl⟩, ⟨_, rfl, rfl, rfl⟩, _, rfl, rfl⟩

theorem test_witness_OtherInstancesAreUntouched :
    ∃ t, step (inSeq (.exec [.bitWrite 2 .ctlw0 0 false] 0)) = .next t ∧
      t.u 2 ≠ (inSeq (.exec [.bitWrite 2 .ctlw0 0 false] 0)).u 2 := ⟨_, rfl, by decide⟩

theorem test_witness_PinRoutingPersists :
    ∃ t, step (inSeq (.exec [.gpioSet 0x40004C00 .sel0 0x0C] 0)) = .next t ∧
      t.port 0x40004C00 ≠ (inSeq (.exec [.gpioSet 0x40004C00 .sel0 0x0C] 0)).port 0x40004C00 := ⟨_, rfl, by decide⟩

/-- One entry in each record, and none. -/
theorem test_witness_RecordsOnlyGrow :
    (∃ t, step (inSeq (.sbWrite 0 0x41 .done)) = .next t ∧
      (inSeq (.sbWrite 0 0x41 .done)).env.head? ≠ some .blockReset ∧ t.txlog ≠ []) ∧
    ∃ t, step State.resetPor = .next t ∧ State.resetPor.env.head? ≠ some .blockReset :=
  ⟨⟨_, rfl, by decide, by decide⟩, _, rfl, by decide⟩

theorem test_witness_ParametersNeverChange : ∃ t, step State.resetPor = .next t := ⟨_, rfl⟩

/-- The invariant holds at a state that takes a step, inside a list. -/
theorem test_witness_EveryStepKeepsTheInvariant :
    MachineInv (inSeq (.exec [.bitWrite 0 .ctlw0 13 true] 0)) ∧
    ∃ t, step (inSeq (.exec [.bitWrite 0 .ctlw0 13 true] 0)) = .next t :=
  ⟨⟨⟨by decide, by decide, by decide⟩, .inr ⟨by decide, by decide⟩, by decide, by decide⟩, _, rfl⟩

/-- Each of the setter mode's two values, and a command of each kind that has a setter target. -/
theorem test_witness_SettersActOnTheirTarget :
    State.reset.seq = .idle ∧ (Instr.setClock 3 1).setterInst = some 3 ∧ (Instr.applyBaud 0 4).setterInst = some 0 ∧
    (Instr.clearFlags 2).setterInst = some 2 ∧ State.reset.params.setterMode = .fixedPrimary ∧
    ({ State.reset with params := { Params.default with setterMode := .operand } } : State).params.setterMode = .operand :=
  ⟨rfl, rfl, rfl, rfl, rfl, rfl⟩

/-- Polling mode with TXIFG 0, and interrupt mode, with a schedule; "i", and the empty string. -/
theorem test_witness_FairSendStringCompletes :
    let s : State := { withFlags false false with
      mem := [(0x2001, 0x69), (0x2002, 0x00)]
      params := { Params.default with txifgFair := true }
      env := [.run, .txDone 0] }
    s.seq = .idle ∧ s.params.txifgFair = true ∧ s.hasInst 0 = true ∧ (s.u 0).txie ≠ none ∧ (s.u 0).txifg ≠ none ∧
    (withString.u 0).txie ≠ none ∧ HoldsString s 0x2001 ([0x69] ++ [0]) ∧ HoldsString s 0x2002 ([] ++ [0]) ∧
    (∀ c ∈ ([0x69] : List Byte), c ≠ 0) ∧ EnvMove.blockReset ∉ s.env :=
  ⟨rfl, rfl, rfl, by decide, by decide, by decide, ⟨by decide, rfl, by decide, rfl, trivial⟩, ⟨by decide, rfl, trivial⟩,
    by decide, by decide⟩

/-- A run of one command, ENABLE 0: it ends after its three steps, and not before. -/
theorem test_enable_ends_after_three_steps : ∃ t, EndsAt (withLine (.command [0x0000000F])) 3 t := by
  refine ⟨_, rfl, ⟨rfl, rfl, rfl⟩, ?_⟩
  intro m v hm hv
  rcases (by omega : m = 0 ∨ m = 1 ∨ m = 2) with h | h | h <;> subst h <;>
    (obtain rfl := Host.Outcome.next.inj hv; rintro ⟨hp, hq, -⟩; first | (cases hp; done) | cases hq)

/-- R254: the end is the FIRST such state. Here it has BUSY 1, so the run does not end drained, though a TxDone follows. -/
theorem test_first_end_state_decides_drained :
    let s : State := { inFlight true with env := [.txDone 0] }
    EndsAt s 0 s ∧ ¬ NothingInFlight s ∧ ∃ t, Sys2Proof.core.run 1 s = .next t ∧ Ended t ∧ NothingInFlight t := by
  refine ⟨⟨rfl, ⟨rfl, rfl, rfl⟩, fun m v hm => absurd hm (by omega)⟩, ?_, _, rfl, ⟨rfl, rfl, rfl⟩, ?_⟩
  · exact fun h => absurd (h 0 rfl) (by decide)
  · exact fun i _ => by rcases inst_cases i with h | h | h | h <;> subst h <;> rfl

/-- An end, a state of a run that meets the four conditions, a faulted and a stuck state, and a poll of a clear flag. -/
theorem test_witness_RunsEndAtTheFirstEndState :
    (∃ t, EndsAt (withLine (.command [0x0000000F])) 3 t) ∧
    (∃ t, Sys2Proof.core.run 4 (withLine (.command [0x0000000F])) = .next t ∧ Ended t) ∧
    EnvMove.blockReset ∉ (inSeq .faulted).env ∧ (inSeq .faulted).seq = .faulted ∧
    Stuck (inSeq (.exec [.gpioClr 0x40004C01 .dir 0x0C] 0)) ∧
    (polling false false).seq = .sbPoll 0 0x41 .done ∧ (polling false false).env = [] ∧ (polling false false).hasInst 0 = true ∧
    ((polling false false).u 0).txifg = some false ∧ (polling false false).params.txifgFair = false :=
  ⟨test_enable_ends_after_three_steps, ⟨_, rfl, rfl, rfl, rfl⟩, by decide, rfl, ⟨by decide, by decide, _, rfl⟩, rfl, rfl, rfl,
    rfl, rfl⟩

end Sys2Proof.Tests
end

/-! The implementation parameters (`00_scope.md` R8 to R10): no move of any agent changes them. -/

namespace Sys2Proof.Machine

@[simp] theorem State.rejectCommand_params (s : State) (c : List Word) (code : FaultCode) :
    (s.rejectCommand c code).params = s.params := rfl

@[simp] theorem txReady_params (i : Inst) (s : State) : (txReady i s).params = s.params := rfl

@[simp] theorem txDone_params (i : Inst) (s : State) : (txDone i s).params = s.params := rfl

@[simp] theorem hostUart_params (i : Inst) (r : HostReg) (mask v : Half) (s : State) :
    (hostUart i r mask v s).params = s.params := rfl

@[simp] theorem hostGpio_params (a : Addr) (r : GReg) (mask v : Byte) (s : State) :
    (hostGpio a r mask v s).params = s.params := s.putPort_params a _

/-- No move changes the parameters: a performed micro-operation by its frame, every other move by the update it is. -/
theorem Move.params_eq {s t : State} (h : Move s t) : t.params = s.params := by
  cases h with
  | performed ops j op u hs hop hw =>
    obtain ⟨hparams, -⟩ := hw.frame
    exact hparams
  | _ => simp

/-- No step changes the parameters: a step is a move from the state with the schedule advanced. -/
theorem step_params_eq {s t : State} (h : step s = .next t) : t.params = s.params := (step_move h).params_eq

/-- Settles O49: a step is one move of one agent, and no move changes the parameters. -/
theorem parametersNeverChange : Obligations.ParametersNeverChange := fun _ _ h => step_params_eq h

end Sys2Proof.Machine

/-! `10_state.md`, what one step does to the data of the machine (registers, ports, memory, descriptor and records), and the
moves that keep its invariant. -/

namespace Sys2Proof.Safety

open Sys2Proof.Machine

/-- Outside FAULTED the record is clear (R27). -/
theorem faultRecordOk_running {s : State} (hq : s.seq ≠ .faulted) (h : s.flt = .clear) : FaultRecordOk s := .inr ⟨hq, h⟩

theorem FaultRecordOk.clear {s : State} (h : FaultRecordOk s) (hq : s.seq ≠ .faulted) : s.flt = .clear := by
  obtain ⟨hf, -⟩ | ⟨-, hc⟩ := h
  · exact absurd hf hq
  · exact hc

theorem FaultRecordOk.congr {s t : State} (h : FaultRecordOk s) (hq : t.seq = s.seq) (hf : t.flt = s.flt) :
    FaultRecordOk t := by
  rwa [FaultRecordOk, hq, hf]

/-- A fault raised outside FAULTED is the only one recorded (R211). -/
theorem FaultRecordOk.raise {s : State} (h : FaultRecordOk s) (hq : s.seq ≠ .faulted) (p : FaultPoint) (r : Raised) :
    FaultRecordOk (s.raise p r) :=
  .inl ⟨rfl, _, by rw [State.raise_flt, h.clear hq]⟩

theorem sequencerOk_exec {s : State} {ops : List MicroOp} {j : Nat} (hs : s.seq = .exec ops j) :
    SequencerOk s ↔ j ≤ ops.length ∧ ∀ op ∈ ops, listOp op = true := by
  rw [SequencerOk, hs]

theorem SequencerOk.congr {s t : State} (h : SequencerOk s) (hq : t.seq = s.seq) (hc : t.cmd = s.cmd) :
    SequencerOk t := by
  rwa [SequencerOk, hq, hc]

end Sys2Proof.Safety

namespace Sys2Proof.Machine

open Sys2Proof.Safety

/-- Two states hold the same data: they differ at most in the sequencer's fields, the fault record, the program and the
schedule. -/
abbrev SameData (u t : State) : Prop :=
  t = { u with seq := t.seq, cmd := t.cmd, flt := t.flt, program := t.program, env := t.env }

theorem SameData.uart {u t : State} (h : SameData u t) : t.uart = u.uart := by rw [h]

theorem SameData.gpio {u t : State} (h : SameData u t) : t.gpio = u.gpio := by rw [h]

theorem SameData.mem {u t : State} (h : SameData u t) : t.mem = u.mem := by rw [h]

theorem SameData.desc {u t : State} (h : SameData u t) : t.desc = u.desc := by rw [h]

theorem SameData.txlog {u t : State} (h : SameData u t) : t.txlog = u.txlog := by rw [h]

theorem SameData.trace {u t : State} (h : SameData u t) : t.trace = u.trace := by rw [h]

theorem SameData.u {u t : State} (h : SameData u t) (i : Inst) : t.u i = u.u i := congrArg (·.get i) h.uart

theorem SameData.readByte {u t : State} (h : SameData u t) (a : Addr) : t.readByte a = u.readByte a := by
  rw [State.readByte, State.readByte, h.mem]

/-- What one step makes of the data, with the agent that does it: `m` is the schedule's mover of this step and `s` the state
with the schedule advanced. Where `Move` says what the sequencer does next, this says who touched the data. -/
inductive DataStep (m : Option EnvMove) (s : State) : State → Prop where
  /-- No agent touches the data. -/
  | none : DataStep m s s
  /-- TxReady (R224), of the schedule, of the program in IDLE, or by fairness (R225). -/
  | ready (i : Inst) (h : m = some (.txReady i) ∨ (s.seq = .idle ∧ s.program.head? = some (.txReady i)) ∨
      ∃ b k, s.seq = .sbPoll i b k ∧ m = Option.none ∧ s.params.txifgFair = true) : DataStep m s (txReady i s)
  /-- TxDone (R224), of the schedule or of the program in IDLE. -/
  | done (i : Inst) (he : txDoneEnabled s i = true)
      (h : m = some (.txDone i) ∨ (s.seq = .idle ∧ s.program.head? = some (.txDone i))) : DataStep m s (txDone i s)
  /-- Block reset (R240). -/
  | reset (h : m = some .blockReset) : DataStep m s (blockReset s)
  /-- A host write between commands (R226). -/
  | hostUart (i : Inst) (r : HostReg) (mask v : Half) (hs : s.seq = .idle)
      (hp : s.program.head? = some (.hostUart i r mask v)) : DataStep m s (hostUart i r mask v s)
  | hostGpio (a : Addr) (r : GReg) (mask v : Byte) (hs : s.seq = .idle)
      (hp : s.program.head? = some (.hostGpio a r mask v)) : DataStep m s (hostGpio a r mask v s)
  | hostMem (a : Addr) (b : Byte) (hs : s.seq = .idle) (hp : s.program.head? = some (.hostMem a b)) :
      DataStep m s (s.writeByte a b)
  /-- A micro-operation of a fixed list (R25). -/
  | performed (ops : List MicroOp) (j : Nat) (op : MicroOp) (u : State) (hs : s.seq = .exec ops j)
      (hop : ops[j]? = some op) (h : Wrote s op u) : DataStep m s u
  /-- `TestBit` or `MemRead` (R66, R69): a read, of which only the trace tells. -/
  | sampled (e : TraceEntry) : DataStep m s (s.log e)
  /-- `TxWrite` of SB_WRITE (R67). -/
  | transmitted (i : Inst) (b : Byte) (k : Cont) (hs : s.seq = .sbWrite i b k) :
      DataStep m s { s with
        uart := s.uart.put i ((s.u i).transmit b)
        txlog := s.txlog ++ [⟨i, b, (s.u i).txifg, (s.u i).swrst⟩]
        trace := s.trace ++ [.tx i b] }

/-- `t` holds the data that one step leaves. -/
def LeavesData (m : Option EnvMove) (s t : State) : Prop := ∃ u, DataStep m s u ∧ SameData u t

section
variable {m : Option EnvMove} {s t : State}

theorem LeavesData.of_same (h : SameData s t) : LeavesData m s t := ⟨s, .none, h⟩

theorem State.putPort_withProgram (p : List Line) (a : Addr) (g : GpioPort) :
    ({ s with program := p } : State).putPort a g = { s.putPort a g with program := p } := by
  unfold State.putPort
  split <;> rfl

theorem hostGpio_withProgram (p : List Line) (a : Addr) (r : GReg) (mask v : Byte) :
    hostGpio a r mask v { s with program := p } = { hostGpio a r mask v s with program := p } :=
  State.putPort_withProgram p a _

/-- A command presented touches no data, accepted or rejected (R91, R213). -/
theorem present_sameData {ws : List Word} {rest : List Line} (h : present ws { s with program := rest } = .next t) :
    SameData s t := by
  unfold present at h
  split at h
  · obtain ⟨-, ⟨q, -, rfl⟩ | ⟨-, -, rfl⟩⟩ := exec_eq_next h
    · exact rfl
    · exact rfl
  · cases h
  all_goals
    obtain rfl := Host.Outcome.next.inj h
    exact rfl

theorem idleStep_leavesData (hs : s.seq = .idle) (h : idleStep s = .next t) : LeavesData m s t := by
  unfold idleStep at h
  split at h
  · obtain rfl := Host.Outcome.next.inj h
    exact .of_same rfl
  · rename_i line rest hp
    have hhead : s.program.head? = some line := by rw [hp, List.head?_cons]
    split at h
    · split at h
      · exact .of_same (present_sameData h)
      · obtain rfl := Host.Outcome.next.inj h
        exact ⟨_, .ready _ (.inr (.inl ⟨hs, hhead⟩)), rfl⟩
      · split at h
        · rename_i he
          obtain rfl := Host.Outcome.next.inj h
          exact ⟨_, .done _ he (.inr ⟨hs, hhead⟩), rfl⟩
        · obtain rfl := Host.Outcome.next.inj h
          exact .of_same rfl
      · obtain rfl := Host.Outcome.next.inj h
        exact ⟨_, .hostUart _ _ _ _ hs hhead, rfl⟩
      · obtain rfl := Host.Outcome.next.inj h
        exact ⟨_, .hostGpio _ _ _ _ hs hhead, by rw [hostGpio_withProgram rest]⟩
      · obtain rfl := Host.Outcome.next.inj h
        exact ⟨_, .hostMem _ _ hs hhead, rfl⟩
    · cases h

theorem execStep_leavesData {ops : List MicroOp} {j : Nat} (hs : s.seq = .exec ops j)
    (h : execStep ops j s = .next t) : LeavesData m s t := by
  unfold execStep at h
  split at h
  · obtain rfl := Host.Outcome.next.inj h
    exact .of_same rfl
  · rename_i op hop
    split at h
    · rename_i u hu
      obtain rfl := Host.Outcome.next.inj h
      exact ⟨u, .performed ops j op u hs hop (perform_ok.1 hu), rfl⟩
    · obtain rfl := Host.Outcome.next.inj h
      exact .of_same rfl
    · cases h

theorem sbCheckStep_leavesData {i : Inst} {b : Byte} {k : Cont} (h : sbCheckStep i b k s = .next t) :
    LeavesData m s t := by
  unfold sbCheckStep at h
  split at h
  · obtain rfl := Host.Outcome.next.inj h
    exact .of_same rfl
  · rename_i e u hu
    obtain rfl := Host.Outcome.next.inj h
    obtain ⟨-, -, rfl⟩ := testBitOp_ok.1 hu
    exact ⟨_, .sampled _, rfl⟩

theorem sbPollStep_leavesData {i : Inst} {b : Byte} {k : Cont} (h : sbPollStep i b k s = .next t) :
    LeavesData m s t := by
  unfold sbPollStep at h
  split at h
  · obtain rfl := Host.Outcome.next.inj h
    exact .of_same rfl
  · rename_i f u hu
    obtain rfl := Host.Outcome.next.inj h
    obtain ⟨-, -, rfl⟩ := testBitOp_ok.1 hu
    exact ⟨_, .sampled _, rfl⟩

theorem sbWriteStep_leavesData {i : Inst} {b : Byte} {k : Cont} (hs : s.seq = .sbWrite i b k)
    (h : sbWriteStep i b k s = .next t) : LeavesData m s t := by
  unfold sbWriteStep at h
  split at h
  · obtain rfl := Host.Outcome.next.inj h
    exact .of_same rfl
  · rename_i u hu
    obtain ⟨-, rfl⟩ := txWriteOp_ok.1 hu
    refine ⟨_, .transmitted i b k hs, ?_⟩
    cases k with
    | done => obtain rfl := Host.Outcome.next.inj h; exact rfl
    | next p => obtain rfl := Host.Outcome.next.inj h; exact rfl

theorem ssFetchStep_leavesData {i : Inst} {p : Addr} (h : ssFetchStep i p s = .next t) : LeavesData m s t := by
  unfold ssFetchStep at h
  split at h
  · refine ⟨_, .sampled (.mr p (s.readByte p)), ?_⟩
    simp only at h
    split at h
    · obtain rfl := Host.Outcome.next.inj h; exact rfl
    · obtain rfl := Host.Outcome.next.inj h; exact rfl
  · cases h

theorem blockStep_leavesData (h : blockStep s = .next t) : LeavesData m s t := by
  unfold blockStep at h
  split at h
  · exact idleStep_leavesData ‹_› h
  · exact execStep_leavesData ‹_› h
  · exact sbCheckStep_leavesData h
  · exact sbPollStep_leavesData h
  · exact sbWriteStep_leavesData ‹_› h
  · exact ssFetchStep_leavesData h
  · cases h

/-- Fairness gives its TxReady only to a poll under `TXIFG_FAIR` (R225). -/
theorem fairTxReady_eq_some {i : Inst} (h : fairTxReady s = some i) :
    ∃ b k, s.seq = .sbPoll i b k ∧ s.params.txifgFair = true := by
  unfold fairTxReady at h
  split at h
  · rename_i i' b k hs
    split at h
    · rename_i hc
      obtain rfl := Option.some.inj h
      simp only [Bool.and_eq_true] at hc
      obtain ⟨⟨hfair, -⟩, -⟩ := hc
      exact ⟨b, k, hs, hfair⟩
    · cases h
  all_goals cases h

/-- THE DATA OF A STEP: one agent touches it, the one the schedule names, or with an empty schedule the block or fairness. -/
theorem step_leavesData (h : step s = .next t) : LeavesData s.env.head? { s with env := s.env.tail } t := by
  unfold step turn at h
  split at h
  · rename_i i rest he
    obtain rfl := Host.Outcome.next.inj h
    rw [he]
    split
    · exact ⟨_, .ready i (.inl rfl), rfl⟩
    · exact .of_same rfl
  · rename_i i rest he
    obtain rfl := Host.Outcome.next.inj h
    rw [he]
    split
    · rename_i hd
      exact ⟨_, .done i hd (.inl rfl), rfl⟩
    · exact .of_same rfl
  · rename_i rest he
    obtain rfl := Host.Outcome.next.inj h
    rw [he]
    exact ⟨_, .reset rfl, rfl⟩
  · rename_i rest he
    rw [he]
    exact blockStep_leavesData h
  · rename_i he
    have hs : ({ s with env := s.env.tail } : State) = s := by rw [he, List.tail_nil, ← he]
    rw [hs, he]
    split at h
    · rename_i i hf
      obtain rfl := Host.Outcome.next.inj h
      obtain ⟨b, k, hseq, hfair⟩ := fairTxReady_eq_some hf
      exact ⟨_, .ready i (.inr (.inr ⟨b, k, hseq, rfl, hfair⟩)), rfl⟩
    · exact blockStep_leavesData h

end

/-! ### The machine invariant -/

/-- Registers, ports and memory stay canonical whatever the agent does. -/
theorem DataStep.canonical {m : Option EnvMove} {s u : State} (h : DataStep m s u) (hc : Canonical s) : Canonical u := by
  obtain ⟨huart, hgpio, hmem⟩ := hc
  have hu : ∀ i, (s.u i).wf = true := (UartBank.wf_iff _).1 huart
  have hwrite : ∀ i r mask v, (s.writeU i r mask v).uart.wf = true := fun i r mask v =>
    UartBank.wf_put _ _ _ huart (UartRegs.wf_write _ _ _ _ (hu i))
  cases h with
  | none => exact ⟨huart, hgpio, hmem⟩
  | ready i _ => exact ⟨hwrite _ _ _ _, hgpio, hmem⟩
  | done i _ _ => exact ⟨UartBank.wf_put _ _ _ huart (UartRegs.wf_busy _ _ (hu i)), hgpio, hmem⟩
  | reset _ => exact ⟨huart, hgpio, hmem⟩
  | hostUart i r mask v _ _ => exact ⟨hwrite _ _ _ _, hgpio, hmem⟩
  | hostGpio a r mask v _ _ =>
    have hport : (s.port a).wf = true := s.port_wf a hgpio
    have hreg : ((s.port a).get r).wf = true := (GpioPort.wf_iff _).1 hport r
    refine ⟨?_, s.gpio_wf_putPort a _ hgpio (GpioPort.wf_put _ _ _ hport (Reg.wf_write _ _ _ hreg)), ?_⟩
    · rwa [Machine.hostGpio, State.putPort_uart]
    · rwa [Machine.hostGpio, State.putPort_mem]
  | hostMem a b _ _ => exact ⟨huart, hgpio, Memory.wf_put _ _ _ hmem⟩
  | performed ops j op u _ _ hw =>
    obtain ⟨huart', hgpio'⟩ := hw.canonical huart hgpio
    obtain ⟨-, -, -, -, hmem', -⟩ := hw.frame
    exact ⟨huart', hgpio', hmem' ▸ hmem⟩
  | sampled e => exact ⟨huart, hgpio, hmem⟩
  | transmitted i b k _ => exact ⟨UartBank.wf_put _ _ _ huart (UartRegs.wf_transmit _ _ (hu i)), hgpio, hmem⟩

theorem step_canonical {s t : State} (h : step s = .next t) (hc : Canonical s) : Canonical t := by
  obtain ⟨u, hu, hsame⟩ := step_leavesData h
  have hcu : Canonical u := hu.canonical hc
  rwa [Canonical, hsame.uart, hsame.gpio, hsame.mem]

/-- Every move keeps the fault record in step with `seq`: only a fault raised sets a bit, and it enters FAULTED. -/
theorem Move.faultRecordOk {s t : State} (h : Move s t) (hok : FaultRecordOk s) : FaultRecordOk t := by
  cases h with
  | ready i rest _ _ => exact hok
  | done i rest _ _ => exact hok
  | reset => exact faultRecordOk_running (by simp) rfl
  | wait => exact hok
  | entered i ws rest q hs _ _ hq =>
    exact faultRecordOk_running (entryOf_seq hq).1 (hok.clear (by simp [hs]))
  | rejected ws rest c code hs _ =>
    exact FaultRecordOk.raise (s := { s with program := rest, cmd := c }) hok (by simp [hs]) _ _
  | hostUart i r mask v rest _ _ => exact hok
  | hostGpio a r mask v rest _ _ => exact hok.congr (State.putPort_seq _ _ _) (State.putPort_flt _ _ _)
  | hostMem a b rest _ _ => exact hok
  | performed ops j op u hs _ hw =>
    obtain ⟨-, -, -, hflt, -⟩ := hw.frame
    exact faultRecordOk_running (by simp) (hflt.trans (hok.clear (by simp [hs])))
  | finished ops j hs _ => exact faultRecordOk_running (by simp) (hok.clear (by simp [hs]))
  | raised p r _ hf => exact hok.raise hf p r
  | checked i b k e hs _ _ => exact faultRecordOk_running (by cases e <;> simp) (hok.clear (by simp [hs]))
  | polled i b k f hs _ _ => exact faultRecordOk_running (by cases f <;> simp) (hok.clear (by simp [hs]))
  | wrote i b k hs _ q c hq =>
    refine faultRecordOk_running ?_ (hok.clear (by simp [hs]))
    obtain ⟨-, rfl, -⟩ | ⟨p, -, rfl, -⟩ := hq <;> simp
  | terminated i p hs _ _ => exact faultRecordOk_running (by simp) (hok.clear (by simp [hs]))
  | fetched i p hs _ _ => exact faultRecordOk_running (by simp) (hok.clear (by simp [hs]))

/-- A micro-operation of the spec's lists that accesses the bus: one of `listOp`, and no `LatchDesc`. -/
def busListOp (op : MicroOp) : Prop := listOp op = true ∧ ∀ d, op ≠ .latchDesc d

theorem pinOps_bus (a : Addr) (m : Byte) : ∀ op ∈ pinOps a m, busListOp op := by
  simp [pinOps, busListOp, listOp]

theorem clockOps_bus (t : Inst) (c : Byte) : ∀ op ∈ clockOps t c, busListOp op := by
  unfold clockOps
  split <;> simp [busListOp, listOp, isConfigReg]

theorem parityOps_bus (t : Inst) (p : Bool) : ∀ op ∈ parityOps t p, busListOp op := by
  cases p <;> simp [parityOps, busListOp, listOp, isConfigReg]

theorem baudOps_bus (t : Inst) (k : Byte) : ∀ op ∈ baudOps t k, busListOp op := by
  unfold baudOps
  split <;> simp [busListOp, listOp, isConfigReg]

/-- A list of one write to CTLW0, BRW or MCTLW. -/
theorem bitWrite_bus (t : Inst) {r : UReg} (hr : isConfigReg r = true) (b : Fin 16) (v : Bool) :
    ∀ op ∈ [MicroOp.bitWrite t r b v], busListOp op := by
  simp [busListOp, listOp, hr]

theorem fieldWrite_bus (t : Inst) {r : UReg} (hr : isConfigReg r = true) (mask v : Half) :
    ∀ op ∈ [MicroOp.fieldWrite t r mask v], busListOp op := by
  simp [busListOp, listOp, hr]

theorem initOps_bus (p : Params) (d : Descriptor) : ∀ op ∈ initOps p d, busListOp op := by
  simp only [initOps, List.forall_mem_append]
  and_intros
  exacts [bitWrite_bus _ rfl _ _, pinOps_bus _ _, clockOps_bus _ _, bitWrite_bus _ rfl _ _, bitWrite_bus _ rfl _ _,
    parityOps_bus _ _, baudOps_bus _ _, bitWrite_bus _ rfl _ _, bitWrite_bus _ rfl _ _, bitWrite_bus _ rfl _ _,
    bitWrite_bus _ rfl _ _, bitWrite_bus _ rfl _ _, bitWrite_bus _ rfl _ _]

/-- The lists of the commands (R92): a constructor's is one `LatchDesc`, every other one accesses the bus only. -/
theorem entryOf_exec {s : State} {i : Instr} {ops : List MicroOp} {j : Nat} (h : entryOf s i = some (.exec ops j)) :
    j = 0 ∧ ((∃ d, ops = [.latchDesc d] ∧ (i = .construct d ∨ i = .constructDefault)) ∨ ∀ op ∈ ops, busListOp op) := by
  cases i with
  | construct d => cases h; exact ⟨rfl, .inl ⟨d, rfl, .inl rfl⟩⟩
  | constructDefault => cases h; exact ⟨rfl, .inl ⟨_, rfl, .inr rfl⟩⟩
  | initializeCmd =>
    obtain ⟨d, -, hd⟩ := Option.map_eq_some_iff.1 h
    cases hd
    exact ⟨rfl, .inr (initOps_bus _ _)⟩
  | configurePins a m => cases h; exact ⟨rfl, .inr (pinOps_bus _ _)⟩
  | applyBaud t k => cases h; exact ⟨rfl, .inr (baudOps_bus _ _)⟩
  | setClock t c => cases h; exact ⟨rfl, .inr (clockOps_bus _ _)⟩
  | setParity t p => cases h; exact ⟨rfl, .inr (parityOps_bus _ _)⟩
  | clearFlags t => cases h; exact ⟨rfl, .inr (fieldWrite_bus _ rfl _ _)⟩
  | sendByte t b => cases h
  | sendString t p => cases h
  | _ => cases h; exact ⟨rfl, .inr (bitWrite_bus _ rfl _ _)⟩

theorem entryOf_listOp {s : State} {i : Instr} {ops : List MicroOp} {j : Nat} (h : entryOf s i = some (.exec ops j)) :
    j = 0 ∧ ∀ op ∈ ops, listOp op = true := by
  obtain ⟨hj, ⟨d, rfl, -⟩ | hbus⟩ := entryOf_exec h
  · exact ⟨hj, by simp [listOp]⟩
  · exact ⟨hj, fun op hop => (hbus op hop).1⟩

/-- Every entry state is in order: a list is entered at its start. -/
theorem sequencerOk_entered {s t : State} {i : Instr} {q : Seq} (h : entryOf s i = some q) (hq : t.seq = q) :
    SequencerOk t := by
  cases q with
  | idle => exact absurd rfl (entryOf_seq h).2
  | faulted => exact absurd rfl (entryOf_seq h).1
  | exec ops j =>
    obtain ⟨rfl, hops⟩ := entryOf_listOp h
    exact (sequencerOk_exec hq).2 ⟨Nat.zero_le _, hops⟩
  | sbCheck i b k => rw [SequencerOk, hq]; trivial
  | sbPoll i b k => rw [SequencerOk, hq]; trivial
  | sbWrite i b k => rw [SequencerOk, hq]; trivial
  | ssFetch i p => rw [SequencerOk, hq]; trivial

/-- Every move keeps the index in its list and the lists the spec's. -/
theorem Move.sequencerOk {s t : State} (h : Move s t) (hok : SequencerOk s) : SequencerOk t := by
  cases h with
  | ready i rest _ _ => exact hok
  | done i rest _ _ => exact hok
  | reset => exact rfl
  | wait => exact hok
  | entered i ws rest q _ _ _ hq => exact sequencerOk_entered hq rfl
  | rejected ws rest c code _ _ => exact rfl
  | hostUart i r mask v rest _ _ => exact hok
  | hostGpio a r mask v rest _ _ => exact hok.congr (State.putPort_seq _ _ _) (State.putPort_cmd _ _ _)
  | hostMem a b rest _ _ => exact hok
  | performed ops j op u hs hop _ =>
    obtain ⟨-, hops⟩ := (sequencerOk_exec hs).1 hok
    obtain ⟨hlt, -⟩ := List.getElem?_eq_some_iff.1 hop
    exact (sequencerOk_exec rfl).2 ⟨hlt, hops⟩
  | finished ops j _ _ => exact rfl
  | raised p r _ _ => exact rfl
  | checked i b k e _ _ _ => cases e <;> trivial
  | polled i b k f _ _ _ => cases f <;> trivial
  | wrote i b k _ _ q c hq =>
    obtain ⟨-, rfl, rfl⟩ | ⟨p, -, rfl, -⟩ := hq
    · exact rfl
    · trivial
  | terminated i p _ _ _ => exact rfl
  | fetched i p _ _ _ => trivial

/-- Settles O50: the data of a step stay canonical, and its move keeps the fault record and the sequencer's list in order. -/
theorem everyStepKeepsTheInvariant : Obligations.EveryStepKeepsTheInvariant := by
  intro s t ⟨hcanonical, hfault, hseq⟩ h
  have hmove := step_move h
  exact ⟨step_canonical h hcanonical, hmove.faultRecordOk hfault, hmove.sequencerOk hseq⟩

/-! ### What happens only in IDLE, and what only the constructors write -/

/-- Outside IDLE no move takes a line of the program (R26). -/
theorem Move.program_eq {s t : State} (h : Move s t) (hs : s.seq ≠ .idle) : t.program = s.program := by
  cases h with
  | ready i rest _ hr => exact hr.resolve_right hs
  | done i rest _ hr => exact hr.resolve_right hs
  | entered i ws rest q hidle _ _ _ => exact absurd hidle hs
  | rejected ws rest c code hidle _ => exact absurd hidle hs
  | hostUart i r mask v rest hidle _ => exact absurd hidle hs
  | hostGpio a r mask v rest hidle _ => exact absurd hidle hs
  | hostMem a b rest hidle _ => exact absurd hidle hs
  | performed ops j op u _ _ hw =>
    obtain ⟨-, -, -, -, -, -, hprogram, -⟩ := hw.frame
    exact hprogram
  | _ => rfl

/-- Settles O10: acceptance asks for IDLE, and every move that takes a line starts there. -/
theorem commandsAreAcceptedOnlyInIdle : Obligations.CommandsAreAcceptedOnlyInIdle := by
  refine ⟨fun i s hs t h => ?_, fun s t h hs => (step_move h).program_eq hs⟩
  rw [exec_busy i s hs] at h
  cases h

/-- Of the micro-operations only `LatchDesc` writes the descriptor. -/
theorem Wrote.desc {s t : State} {op : MicroOp} (h : Wrote s op t) :
    t.desc = s.desc ∨ ∃ d, op = .latchDesc d ∧ t.desc = some d := by
  cases h with
  | latchDesc d => exact .inr ⟨d, rfl, rfl⟩
  | _ => exact .inl (by simp)

/-- The descriptor is block reset's and `LatchDesc`'s to change (R23, R240). -/
theorem DataStep.desc {m : Option EnvMove} {s u : State} (h : DataStep m s u) :
    u.desc = s.desc ∨ m = some .blockReset ∨
      ∃ ops j d, s.seq = .exec ops j ∧ ops[j]? = some (.latchDesc d) ∧ u.desc = some d := by
  cases h with
  | reset hm => exact .inr (.inl hm)
  | performed ops j op u hs hop hw =>
    obtain hsame | ⟨d, rfl, hd⟩ := hw.desc
    · exact .inl hsame
    · exact .inr (.inr ⟨ops, j, d, hs, hop, hd⟩)
  | hostGpio a r mask v _ _ => exact .inl (State.putPort_desc _ _ _)
  | _ => exact .inl rfl

/-- A command whose acceptance enters a list with a `LatchDesc` is a constructor (R100, R101). -/
theorem exec_latchDesc {i : Instr} {s t : State} {ops : List MicroOp} {j : Nat} {d : Descriptor} (h : exec i s = .next t)
    (hs : t.seq = .exec ops j) (hd : MicroOp.latchDesc d ∈ ops) : i = .construct d ∨ i = .constructDefault := by
  obtain ⟨-, ⟨q, hq, rfl⟩ | ⟨-, -, rfl⟩⟩ := exec_eq_next h
  · obtain rfl : q = .exec ops j := hs
    obtain ⟨-, ⟨d', rfl, hi⟩ | hbus⟩ := entryOf_exec hq
    · obtain rfl : d = d' := by simpa using hd
      exact hi
    · exact absurd rfl ((hbus _ hd).2 d)
  · cases hs

/-- Settles O13: of the agents only block reset and a performed `LatchDesc` touch the descriptor, and the lists with a
`LatchDesc` are the constructors'. -/
theorem onlyConstructorsWriteTheDescriptor : Obligations.OnlyConstructorsWriteTheDescriptor := by
  refine ⟨fun s t h hne => ?_, fun i s t ops j d => exec_latchDesc⟩
  obtain ⟨u, hu, hsame⟩ := step_leavesData h
  rw [hsame.desc] at hne ⊢
  exact hu.desc.resolve_left hne

/-! ### Memory and TXIE are the host's to write -/

/-- Only a host write in IDLE changes a byte of memory, its own (R13, R44). -/
theorem DataStep.readByte {m : Option EnvMove} {s u : State} (h : DataStep m s u) (a : Addr) :
    u.readByte a = s.readByte a ∨ (s.seq = .idle ∧ ∃ b, s.program.head? = some (.hostMem a b)) := by
  cases h with
  | hostMem a' b hs hp =>
    by_cases ha : a = a'
    · subst ha
      exact .inr ⟨hs, b, hp⟩
    · exact .inl (State.readByte_writeByte_ne s b ha)
  | hostGpio a' r mask v _ _ => exact .inl (by rw [State.readByte, Machine.hostGpio, State.putPort_mem, State.readByte])
  | performed ops j op u _ _ hw =>
    obtain ⟨-, -, -, -, hmem, -⟩ := hw.frame
    exact .inl (by rw [State.readByte, hmem, State.readByte])
  | _ => exact .inl rfl

/-- A micro-operation of the spec's lists leaves IE (R35, R70). -/
theorem uartEffect_ie_of_listOp {op : MicroOp} (h : listOp op = true) (i : Inst) (b : Nat) (x : Option Bool) :
    uartEffect op i .ie b x = x := by
  have hne : ∀ {r : UReg}, isConfigReg r = true → UReg.ie ≠ r := by
    rintro r hr rfl
    cases hr
  cases op with
  | bitWrite j r k v => simp [uartEffect, hne h]
  | fieldWrite j r mask v => simp [uartEffect, hne h]
  | regWrite j r v => simp [uartEffect, hne h]
  | _ => rfl

/-- Only a host write of IE in IDLE changes a bit of IE, where lists hold only the spec's micro-operations (R35). -/
theorem DataStep.ie {m : Option EnvMove} {s u : State} (h : DataStep m s u) (hok : SequencerOk s) (i : Inst) (b : Nat) :
    uartBit u i .ie b = uartBit s i .ie b ∨
      (s.seq = .idle ∧ ∃ mask v, s.program.head? = some (.hostUart i .ie mask v)) := by
  cases h with
  | ready j _ => exact .inl (by simp [txReady, uartBit_writeU])
  | done j _ _ =>
    refine .inl ?_
    by_cases hj : i = j
    · subst hj
      rw [uartBit, txDone, State.u_putU_same]
      rfl
    · rw [uartBit, txDone, State.u_putU_ne _ _ hj]
      rfl
  | hostUart j r mask v hs hp =>
    by_cases hw : i = j ∧ UReg.ie = r.toUReg
    · obtain ⟨rfl, hr⟩ := hw
      obtain rfl : r = .ie := by cases r <;> first | rfl | cases hr
      exact .inr ⟨hs, mask, v, hp⟩
    · refine .inl ?_
      rw [Machine.hostUart, uartBit_writeU, if_neg fun hc => hw ⟨hc.1, hc.2.1⟩]
  | hostGpio a r mask v _ _ => exact .inl (uartBit_putPort _ _ _ _ _ _)
  | performed ops j op u hs hop hw =>
    have hlist : listOp op = true := ((sequencerOk_exec hs).1 hok).2 op (List.mem_of_getElem? hop)
    exact .inl (by rw [hw.uartBit, uartEffect_ie_of_listOp hlist])
  | transmitted j c k _ => exact .inl (by rw [uartBit_transmit rfl]; simp)
  | _ => exact .inl rfl

/-- Settles O44: the one agent that touches memory or IE is the host, in IDLE, with that write as the next line. -/
theorem blockNeverWritesMemoryOrTxie : Obligations.BlockNeverWritesMemoryOrTxie := by
  intro s t hok h
  obtain ⟨u, hu, hsame⟩ := step_leavesData h
  refine ⟨fun a hne => ?_, fun i hne => ?_⟩
  · rw [hsame.readByte] at hne
    exact (hu.readByte a).resolve_left hne
  · rw [hsame.u] at hne
    exact (hu.ie hok i 1).resolve_left hne

/-! ### BUSY -/

/-- BUSY of a UART changes only by `TxWrite` on it, which sets it, and by TxDone of it (R37, R224). -/
theorem DataStep.busy {m : Option EnvMove} {s u : State} (h : DataStep m s u) (i : Inst) :
    (u.u i).busy = (s.u i).busy ∨
    ((u.u i).busy = true ∧ (∃ b k, s.seq = .sbWrite i b k) ∧ u.txlog.length = s.txlog.length + 1) ∨
    ((u.u i).busy = false ∧ (m = some (.txDone i) ∨ s.seq = .idle ∧ s.program.head? = some (.txDone i)) ∧
      txDoneEnabled s i = true ∧ u.txlog = s.txlog) := by
  cases h with
  | ready j _ => exact .inl (busy_writeU _ _ _ _ _ _)
  | done j he hj =>
    by_cases hi : i = j
    · subst hi
      exact .inr (.inr ⟨by rw [txDone, State.u_putU_same], hj, he, rfl⟩)
    · exact .inl (by rw [txDone, State.u_putU_ne _ _ hi])
  | hostUart j r mask v _ _ => exact .inl (busy_writeU _ _ _ _ _ _)
  | hostGpio a r mask v _ _ => exact .inl (by rw [Machine.hostGpio, State.u_putPort])
  | performed ops j op u _ _ hw => exact .inl (hw.busy i)
  | transmitted j c k hs =>
    by_cases hi : i = j
    · subst hi
      refine .inr (.inl ⟨?_, ⟨c, k, hs⟩, by simp⟩)
      obtain ⟨-, hbusy, -⟩ := (s.u i).transmit_spec c
      rw [State.u, UartBank.get_put_same, hbusy]
    · exact .inl (by rw [State.u, UartBank.get_put_ne _ _ hi, State.u])
  | _ => exact .inl rfl

/-- Settles O45: the two agents that change BUSY are `TxWrite` and an enabled TxDone. -/
theorem busyMarksATransmissionInFlight : Obligations.BusyMarksATransmissionInFlight := by
  intro s t i h
  obtain ⟨u, hu, hsame⟩ := step_leavesData h
  rw [hsame.u, hsame.txlog]
  obtain hkept | ⟨hset, hseq, hlog⟩ | ⟨hclear, hagent, he, hlog⟩ := hu.busy i
  · rw [hkept]
    exact ⟨fun h0 h1 => absurd (h0.symm.trans h1) (by simp), fun h1 h0 => absurd (h1.symm.trans h0) (by simp)⟩
  · exact ⟨fun _ _ => ⟨hseq, hlog⟩, fun _ h0 => absurd (hset.symm.trans h0) (by simp)⟩
  · refine ⟨fun _ h1 => absurd (hclear.symm.trans h1) (by simp), fun _ _ => ⟨hagent, ?_, hlog⟩⟩
    simp only [txDoneEnabled, Bool.and_eq_true, decide_eq_true_eq] at he
    exact he.2

/-! ### The records -/

/-- A micro-operation appends at most one entry to the trace (R13, R46). -/
theorem Wrote.trace {s t : State} {op : MicroOp} (h : Wrote s op t) :
    t.trace = s.trace ∨ ∃ e, t.trace = s.trace ++ [e] := by
  cases h with
  | latchDesc d => exact .inl rfl
  | gpioClr a r m _ => exact .inr ⟨_, by rw [State.log_trace, State.putPort_trace]⟩
  | gpioSet a r m _ => exact .inr ⟨_, by rw [State.log_trace, State.putPort_trace]⟩
  | _ => exact .inr ⟨_, rfl⟩

/-- Settles O48: only an access of the block appends, and only `TxWrite` to the transmit log. -/
theorem recordsOnlyGrow : Obligations.RecordsOnlyGrow := by
  intro s t h hm
  obtain ⟨u, hu, hsame⟩ := step_leavesData h
  rw [hsame.trace, hsame.txlog]
  cases hu with
  | reset hr => exact absurd hr hm
  | hostGpio a r mask v _ _ => exact .inl ⟨State.putPort_trace _ _ _, State.putPort_txlog _ _ _⟩
  | performed ops j op u _ _ hw =>
    obtain ⟨-, -, -, -, -, hlog, -⟩ := hw.frame
    obtain htrace | ⟨e, he⟩ := hw.trace
    · exact .inl ⟨htrace, hlog⟩
    · exact .inr (.inl ⟨e, he, hlog⟩)
  | sampled e => exact .inr (.inl ⟨e, rfl, rfl⟩)
  | transmitted i b k _ => exact .inr (.inr ⟨i, b, _, _, rfl, rfl, rfl, rfl⟩)
  | _ => exact .inl ⟨rfl, rfl⟩

/-! ### The power-on values and the baud table -/

@[simp] theorem UartBank.get_all (u : UartRegs) (i : Inst) : (UartBank.all u).get i = u := by
  rcases inst_cases i with h | h | h | h <;> subst h <;> rfl

theorem resetPor_u (i : Inst) : State.resetPor.u i = .porDefaults := UartBank.get_all _ i

/-- A register with every bit defined. -/
theorem Reg.bit?_allOnes {w : Nat} (v : BitVec w) {b : Nat} (h : b < w) :
    (Reg.mk v (BitVec.allOnes w)).bit? b = some (v.getLsbD b) := by
  simp [Reg.bit?, h]

@[simp] theorem Reg.bit?_unwritten (w b : Nat) : (Reg.unwritten w).bit? b = none := by
  simp [Reg.unwritten, Reg.bit?]

theorem GpioPort.get_unwritten (r : GReg) : GpioPort.unwritten.get r = .unwritten 8 := by
  cases r <;> rfl

/-- Settles O2: each UART holds the power-on register file, and no port is listed. -/
theorem porLaunchHoldsThePowerOnValues : Obligations.PorLaunchHoldsThePowerOnValues := by
  intro i
  simp only [uartBit, resetPor_u]
  refine ⟨fun b hb => ⟨?_, ?_, ?_⟩, fun b hb => ?_, rfl, rfl, rfl, fun a r b => ?_⟩
  · refine (Reg.bit?_allOnes _ hb).trans (congrArg some ?_)
    simp
  · exact (Reg.bit?_allOnes _ hb).trans (congrArg some BitVec.getLsbD_zero)
  · exact (Reg.bit?_allOnes _ hb).trans (congrArg some BitVec.getLsbD_zero)
  · interval_cases b <;> rfl
  · show (GpioPort.unwritten.get r).bit? b = none
    rw [GpioPort.get_unwritten, Reg.bit?_unwritten]

/-- Settles O15: the table's five rows, and the packing of each. -/
theorem baudTableHoldsTheFiveEntries : Obligations.BaudTableHoldsTheFiveEntries := by
  refine ⟨by decide, fun k hk => ?_⟩
  interval_cases k <;> decide

end Sys2Proof.Machine

/-! `20_memory.md`, the classes of micro-operations the guards tell apart (R70). -/

namespace Sys2Proof.Machine

theorem isConfigReg_iff_mem {r : UReg} : isConfigReg r = true ↔ r ∈ [UReg.ctlw0, .brw, .mctlw] := by
  cases r <;> decide

theorem MicroOp.isSwrstWrite_bitWrite_iff {i : Inst} {r : UReg} {b : Fin 16} {v : Bool} :
    (MicroOp.bitWrite i r b v).isSwrstWrite = true ↔ r = .ctlw0 ∧ b = 0 := by
  simp [isSwrstWrite]

theorem MicroOp.isConfigWrite_bitWrite_iff {i : Inst} {r : UReg} {b : Fin 16} {v : Bool} :
    (MicroOp.bitWrite i r b v).isConfigWrite = true ↔ isConfigReg r = true ∧ ¬(r = .ctlw0 ∧ b = 0) := by
  rw [← isSwrstWrite_bitWrite_iff (i := i) (v := v), Bool.not_eq_true, isConfigWrite, Bool.and_eq_true, Bool.not_eq_true']

theorem MicroOp.isSetterWrite_of_isConfigWrite {op : MicroOp} (h : op.isConfigWrite = true) : op.isSetterWrite = true :=
  Bool.or_eq_true_iff.2 (.inl h)

theorem MicroOp.isSetterWrite_of_isSwrstWrite {op : MicroOp} (h : op.isSwrstWrite = true) : op.isSetterWrite = true :=
  Bool.or_eq_true_iff.2 (.inr h)

/-- Settles O38: SWRST is the one bit of a configuration register that only the setter class takes in. -/
theorem writeClasses : Obligations.WriteClasses := by
  intro i r b v mask x d a g m
  refine ⟨?_, ?_, fun hr => ?_, fun hr => ?_, fun op hop => ?_⟩
  · exact MicroOp.isSetterWrite_of_isSwrstWrite (MicroOp.isSwrstWrite_bitWrite_iff.2 ⟨rfl, rfl⟩)
  · exact Bool.eq_false_iff.2 fun hc => (MicroOp.isConfigWrite_bitWrite_iff.1 hc).2 ⟨rfl, rfl⟩
  · have hconfig : (MicroOp.bitWrite i r b v).isConfigWrite = true := by
      rw [MicroOp.isConfigWrite_bitWrite_iff]
      obtain ⟨rfl, hb⟩ | rfl | rfl := hr
      · exact ⟨rfl, fun h => hb h.2⟩
      · exact ⟨rfl, nofun⟩
      · exact ⟨rfl, nofun⟩
    exact ⟨hconfig, MicroOp.isSetterWrite_of_isConfigWrite hconfig⟩
  · have hfield : (MicroOp.fieldWrite i r mask x).isConfigWrite = true := isConfigReg_iff_mem.2 hr
    have hreg : (MicroOp.regWrite i r x).isConfigWrite = true := isConfigReg_iff_mem.2 hr
    exact ⟨hfield, MicroOp.isSetterWrite_of_isConfigWrite hfield, hreg, MicroOp.isSetterWrite_of_isConfigWrite hreg⟩
  · simp only [List.mem_cons, List.not_mem_nil, or_false] at hop
    rcases hop with rfl | rfl | rfl <;> exact ⟨rfl, rfl⟩

end Sys2Proof.Machine

/-! `30_encoding.md`, the two directions of the round trip: the rows' masks read as fields (R86, R87), the fields read as
formats (R81 to R84), and words that decode as exactly the words the encoder gives. -/

namespace Sys2Proof

open Safety Laws.Opcode

/-! ### A row's mask as the fields it requires to be 0 -/

/-- The mask that takes in the field of `len` bits from bit `start`. -/
def fieldMask (start len : Nat) : Word := (BitVec.allOnes len).setWidth 32 <<< start

/-- The mask of a row: its opcode, and the fields (start, length) that must be 0 (R86). -/
def rowMask : List (Nat × Nat) → Word
  | [] => fieldMask 0 8
  | (start, len) :: fields => fieldMask start len ||| rowMask fields

@[simp] theorem getElem_fieldMask (start len : Nat) {b : Nat} (hb : b < 32) :
    (fieldMask start len)[b] = decide (start ≤ b ∧ b - start < len) := by
  by_cases h : start ≤ b
  · simp [fieldMask, h]
  · simp [fieldMask, h, Nat.not_le.1 h]

theorem and_fieldMask_eq_zero_iff (w : Word) (start len : Nat) :
    w &&& fieldMask start len = 0 ↔ w.extractLsb' start len = 0 := by
  rw [extract_eq_zero_iff]
  constructor
  · intro h b hb
    by_cases hlt : start + b < 32
    · have hbit : (w &&& fieldMask start len)[start + b] = (0 : Word)[start + b] := by rw [h]
      simpa [hlt, hb] using hbit
    · exact BitVec.getLsbD_of_ge _ _ (by omega)
  · intro h
    refine BitVec.eq_of_getElem_eq fun b hlt => ?_
    by_cases hb : start ≤ b ∧ b - start < len
    · have hbit := h (b - start) hb.2
      rw [Nat.add_sub_cancel' hb.1, BitVec.getLsbD_eq_getElem hlt] at hbit
      simp [hbit]
    · simp [hb]

theorem and_opcodeMask (w : Word) : w &&& fieldMask 0 8 = (opcodeOf w).setWidth 32 :=
  BitVec.eq_of_getElem_eq fun b hb => by simp [opcodeOf, BitVec.getLsbD_eq_getElem hb, Bool.and_comm]

/-- A word agrees with a row's mask exactly when the fields the mask takes in beside the opcode are 0. -/
theorem and_rowMask_eq_opcode_iff (w : Word) {fields : List (Nat × Nat)} (h : ∀ f ∈ fields, 8 ≤ f.1) :
    w &&& rowMask fields = (opcodeOf w).setWidth 32 ↔ ∀ f ∈ fields, w.extractLsb' f.1 f.2 = 0 := by
  induction fields with
  | nil => simp [rowMask, and_opcodeMask]
  | cons f fields ih =>
    rw [List.forall_mem_cons, ← ih fun g hg => h g (by simp [hg]), ← and_fieldMask_eq_zero_iff, rowMask,
      BitVec.and_or_distrib_left, ← and_opcodeMask]
    constructor
    · intro hor
      -- The opcode has no bit in the field, so `w` has none there either.
      have hzero : w &&& fieldMask f.1 f.2 = 0 := by
        have hf := h f (by simp)
        refine BitVec.eq_of_getElem_eq fun b hb => ?_
        have hbit : (w &&& fieldMask f.1 f.2 ||| w &&& rowMask fields)[b] = (w &&& fieldMask 0 8)[b] := by rw [hor]
        by_cases hin : f.1 ≤ b ∧ b - f.1 < f.2
        · have hout : ¬b < 8 := by omega
          simp [hin, hout] at hbit
          simp [hbit]
        · simp [hin]
      rw [hzero] at hor
      exact ⟨hzero, by simpa using hor⟩
    · rintro ⟨hzero, heq⟩
      rw [hzero, heq]
      exact BitVec.zero_or

/-! ### What a whole command's words must be to decode -/

/-- A mask that differs between the setter modes asks for INST 0 under FIXED_PRIMARY only (R87). -/
theorem and_byMode_eq_opcode_iff (m : SetterMode) (w : Word) {fields : List (Nat × Nat)} (h : ∀ f ∈ fields, 8 ≤ f.1) :
    w &&& byMode m (rowMask ((8, 2) :: fields)) (rowMask fields) = (opcodeOf w).setWidth 32 ↔
      (∀ f ∈ fields, w.extractLsb' f.1 f.2 = 0) ∧ (m = .operand ∨ w.extractLsb' 8 2 = 0) := by
  cases m with
  | fixedPrimary =>
    rw [byMode, and_rowMask_eq_opcode_iff w (by simpa using h), List.forall_mem_cons]
    simp [and_comm]
  | operand => rw [byMode, and_rowMask_eq_opcode_iff w h]; simp

theorem ushiftRight_eight_eq_zero_iff (w : Word) : w >>> 8 = 0 ↔ w.extractLsb' 8 24 = 0 := by
  rw [extract_eq_zero_iff]
  constructor
  · intro h b hb
    simpa using congrArg (·.getLsbD b) h
  · intro h
    refine BitVec.eq_of_getLsbD_eq fun b _ => ?_
    by_cases hb : b < 24
    · simpa using h b hb
    · simp [BitVec.getLsbD_of_ge w (8 + b) (by omega)]

section
variable (m : SetterMode) (w : Word)

/-- The mask of CONSTRUCT (R86). -/
theorem and_constructMask_iff :
    w &&& 0x00F000FF = (opcodeOf w).setWidth 32 ↔ w.extractLsb' 20 4 = 0 :=
  (and_rowMask_eq_opcode_iff w (fields := [(20, 4)]) (by decide)).trans (by simp)

/-- The mask of a command with no operand in w0 (R86). -/
theorem and_bareMask_iff :
    w &&& 0xFFFFFFFF = (opcodeOf w).setWidth 32 ↔
      w.extractLsb' 10 14 = 0 ∧ w.extractLsb' 24 8 = 0 ∧ w.extractLsb' 8 2 = 0 :=
  (and_rowMask_eq_opcode_iff w (fields := [(10, 14), (24, 8), (8, 2)]) (by decide)).trans (by simp)

/-- The mask of a command with INST and no V (R86). -/
theorem and_instMask_iff :
    w &&& 0xFFFFFCFF = (opcodeOf w).setWidth 32 ↔ w.extractLsb' 10 14 = 0 ∧ w.extractLsb' 24 8 = 0 :=
  (and_rowMask_eq_opcode_iff w (fields := [(10, 14), (24, 8)]) (by decide)).trans (by simp)

/-- The mask of SEND_BYTE (R86). -/
theorem and_sendByteMask_iff :
    w &&& 0x00FFFCFF = (opcodeOf w).setWidth 32 ↔ w.extractLsb' 10 14 = 0 :=
  (and_rowMask_eq_opcode_iff w (fields := [(10, 14)]) (by decide)).trans (by simp)

/-- The masks of a setter of a byte (R86, R87). -/
theorem and_byteSetterMask_iff :
    w &&& byMode m 0x00FFFFFF 0x00FFFCFF = (opcodeOf w).setWidth 32 ↔
      w.extractLsb' 10 14 = 0 ∧ (m = .operand ∨ w.extractLsb' 8 2 = 0) :=
  (and_byMode_eq_opcode_iff m w (fields := [(10, 14)]) (by decide)).trans (by simp)

/-- The masks of a one-bit setter (R84, R86, R87). -/
theorem and_bitSetterMask_iff :
    w &&& byMode m 0xFEFFFFFF 0xFEFFFCFF = (opcodeOf w).setWidth 32 ↔
      w.extractLsb' 10 14 = 0 ∧ w.extractLsb' 25 7 = 0 ∧ (m = .operand ∨ w.extractLsb' 8 2 = 0) :=
  (and_byMode_eq_opcode_iff m w (fields := [(10, 14), (25, 7)]) (by decide)).trans (by simp [and_assoc])

/-- The masks of CLEAR_FLAGS (R86, R87). -/
theorem and_clearFlagsMask_iff :
    w &&& byMode m 0xFFFFFFFF 0xFFFFFCFF = (opcodeOf w).setWidth 32 ↔
      w.extractLsb' 10 14 = 0 ∧ w.extractLsb' 24 8 = 0 ∧ (m = .operand ∨ w.extractLsb' 8 2 = 0) :=
  (and_byMode_eq_opcode_iff m w (fields := [(10, 14), (24, 8)]) (by decide)).trans (by simp [and_assoc])

end

/-- Legality by fields is agreement with the row's mask and `w2[31:8] = 0` (R83, R86), which a command without a third word
meets of itself. -/
theorem legalByFields_iff_mask {m : SetterMode} {w0 w2 : Word} (h : commandLength w0 ≠ 3 → w2 >>> 8 = 0) :
    legalByFields m w0 w2 ↔
      (∃ mask, w0Mask m (opcodeOf w0) = some mask ∧ w0 &&& mask = (opcodeOf w0).setWidth 32) ∧ w2 >>> 8 = 0 := by
  rw [ushiftRight_eight_eq_zero_iff] at h ⊢
  unfold commandLength at h
  unfold legalByFields w0Mask
  rw [show w0.extractLsb' 0 8 = opcodeOf w0 from rfl]
  -- In each row the two sides ask for the same fields of w0, by the lemma of its mask; `h` settles w2 where it is not asked for.
  split
  all_goals simp_all only [Option.some.injEq, exists_eq_left', and_constructMask_iff, and_bareMask_iff, and_instMask_iff,
    and_sendByteMask_iff, and_byteSetterMask_iff, and_bitSetterMask_iff, and_clearFlagsMask_iff, and_assoc, ne_eq,
    Nat.reduceEqDiff, not_false_eq_true, forall_const, and_true, reduceCtorEq, false_and, exists_false]

theorem isOneCommand_cons {w0 : Word} {ext : List Word} :
    isOneCommand (w0 :: ext) = true ↔ ext.length + 1 = commandLength w0 := by
  simp [isOneCommand]

/-- `w2[31:8]` is 0 of itself in a command without a third word. -/
theorem thirdWord_of_isOneCommand {w0 : Word} {ext : List Word} (hone : isOneCommand (w0 :: ext) = true)
    (hlen : commandLength w0 ≠ 3) : ext.getD 1 0 >>> 8 = 0 := by
  have hmax : commandLength w0 ≤ 3 := by unfold commandLength; split <;> decide
  have hext : ext.length ≤ 1 := by have := isOneCommand_cons.1 hone; omega
  rw [List.getD_eq_default ext 0 hext]
  rfl

/-- The decoder by fields (R86 to R90): one whole command, legal, with its operands read. -/
theorem decode_cons_eq_ok_iff {m : SetterMode} {w0 : Word} {ext : List Word} {i : Instr} :
    decode m (w0 :: ext) = .ok i ↔ isOneCommand (w0 :: ext) = true ∧ legalByFields m w0 (ext.getD 1 0) ∧
      readOperands w0 (ext.getD 0 0) (ext.getD 1 0) = some i := by
  rw [decode_eq_ok]
  constructor
  · rintro ⟨w, e, mask, hw, hone, hmask, hand, hz, hread⟩
    obtain ⟨rfl, rfl⟩ := List.cons.inj hw
    exact ⟨hone, (legalByFields_iff_mask (thirdWord_of_isOneCommand hone)).2 ⟨⟨mask, hmask, hand⟩, hz⟩, hread⟩
  · rintro ⟨hone, hlegal, hread⟩
    obtain ⟨⟨mask, hmask, hand⟩, hz⟩ := (legalByFields_iff_mask (thirdWord_of_isOneCommand hone)).1 hlegal
    exact ⟨w0, ext, mask, rfl, hone, hmask, hand, hz, hread⟩

/-- Settles O7: legal fields make the opcode a row's, so the operands can be read. -/
theorem decodesExactlyWhenFieldsAreLegal : Obligations.DecodesExactlyWhenFieldsAreLegal := by
  intro m w0 ext hone
  constructor
  · rintro ⟨i, hi⟩
    obtain ⟨-, hlegal, -⟩ := decode_cons_eq_ok_iff.1 hi
    exact hlegal
  · intro hlegal
    obtain ⟨⟨mask, hmask, -⟩, -⟩ := (legalByFields_iff_mask (thirdWord_of_isOneCommand hone)).1 hlegal
    have hread : (readOperands w0 (ext.getD 0 0) (ext.getD 1 0)).isSome = true := by
      rw [readOperands_isSome m, hmask, Option.isSome_some]
    obtain ⟨i, hi⟩ := Option.isSome_iff_exists.1 hread
    exact ⟨i, decode_cons_eq_ok_iff.2 ⟨hone, hlegal, hi⟩⟩

/-! ### Words that are a format of their fields -/

theorem formatF0_eq_iff {op : Byte} {inst : Inst} {v : Byte} {w : Word} :
    formatF0 op inst v = w ↔
      opcodeOf w = op ∧ w.extractLsb' 10 14 = 0 ∧ instField w = inst ∧ valueField w = v := by
  constructor
  · rintro rfl
    obtain ⟨hop, hinst, hv, hrsv⟩ := formatF0_fields op inst v
    exact ⟨hop, hrsv, hinst, hv⟩
  · rintro ⟨rfl, hrsv, rfl, rfl⟩
    exact formatF0_of_fields w hrsv

theorem valueField_eq_bitValue_iff {w : Word} {v : Bool} :
    valueField w = bitValue v ↔ w.extractLsb' 25 7 = 0 ∧ valueBit w = v := by
  constructor
  · intro h
    have hupper : w.extractLsb' 25 7 = (valueField w).extractLsb' 1 7 :=
      BitVec.eq_of_getLsbD_eq fun b hb => by simp [valueField, ← Nat.add_assoc, show 1 + b < 8 by omega]
    have hlow : valueBit w = (valueField w).getLsbD 0 := by simp [valueBit, valueField]
    rw [hupper, hlow, h]
    cases v <;> exact ⟨rfl, rfl⟩
  · rintro ⟨hupper, rfl⟩
    exact (bitValue_of_field w hupper).symm

theorem maskWord_eq_iff {mask : Byte} {w : Word} :
    maskWord mask = w ↔ w.extractLsb' 8 24 = 0 ∧ w.extractLsb' 0 8 = mask := by
  rw [← ushiftRight_eight_eq_zero_iff]
  constructor
  · rintro rfl
    obtain ⟨hmask, hz⟩ := maskWord_fields mask
    exact ⟨hz, hmask⟩
  · rintro ⟨hz, rfl⟩
    exact maskWord_of_fields w hz

/-- The three words of CONSTRUCT (R82, R83). -/
theorem constructWords_eq_iff {d : Descriptor} {w0 w1 w2 : Word} :
    formatFC d = w0 ∧ d.portAddress = w1 ∧ maskWord d.pinMask = w2 ↔
      opcodeOf w0 = 0x01 ∧ w0.extractLsb' 20 4 = 0 ∧ w2.extractLsb' 8 24 = 0 ∧ descriptorOf w0 w1 w2 = d := by
  constructor
  · rintro ⟨rfl, rfl, rfl⟩
    obtain ⟨hop, hrsv, hd⟩ := formatFC_fields d
    obtain ⟨hz, -⟩ := maskWord_eq_iff.1 (rfl : maskWord d.pinMask = _)
    exact ⟨hop, hrsv, hz, hd⟩
  · rintro ⟨hop, hrsv, hz, rfl⟩
    exact ⟨formatFC_of_fields w0 w1 w2 hop hrsv, rfl, maskWord_eq_iff.2 ⟨hz, rfl⟩⟩

/-! ### The round trip -/

/-- A command read from a word has the word's opcode for its row's. -/
theorem opcodeOf_of_readOperands {w0 w1 w2 : Word} {i : Instr} (h : readOperands w0 w1 w2 = some i) :
    opcodeOf w0 = rowOpcode i := by
  unfold readOperands at h
  split at h
  all_goals
    rename_i hop
    cases h <;> exact BitVec.eq_of_toNat_eq hop

/-- Under FIXED_PRIMARY a command with a setter target has INST 0 (R87). -/
theorem wf_iff {m : SetterMode} {i : Instr} : i.wf m = true ↔ m = .operand ∨ ∀ inst ∈ i.setterInst, inst = 0 := by
  cases m <;> simp [Instr.wf, Option.all_eq_true]

/-- Words with the opcode of a command's row decode to it exactly when they are its encoding: the fields the row asks to be 0
and the operands it reads make up every bit (R81 to R87). -/
theorem decode_eq_ok_iff_encode_of_opcode {m : SetterMode} {w0 : Word} {ext : List Word} {i : Instr}
    (hop : opcodeOf w0 = rowOpcode i) : decode m (w0 :: ext) = .ok i ↔ encode i = w0 :: ext ∧ i.wf m = true := by
  have hop' : w0.extractLsb' 0 8 = rowOpcode i := hop
  have hinst : w0.extractLsb' 8 2 = instField w0 := rfl
  have hvalue : w0.extractLsb' 24 8 = valueField w0 := rfl
  rw [decode_cons_eq_ok_iff, isOneCommand_cons, wf_iff]
  unfold commandLength legalByFields readOperands
  simp only [hop', hop, hinst, hvalue]
  -- Only a list of as many words as the row says can be either side; then the fields decide.
  cases i
  case construct d =>
    rcases ext with _ | ⟨w1, _ | ⟨w2, _ | ⟨w3, ext⟩⟩⟩
    case cons.cons.nil =>
      have hwords := constructWords_eq_iff (d := d) (w0 := w0) (w1 := w1) (w2 := w2)
      simp [rowOpcode, encode, Instr.setterInst, hwords, and_assoc, show opcodeOf w0 = 0x01 from hop]
    all_goals simp [rowOpcode, encode]
  case configurePins port mask =>
    rcases ext with _ | ⟨w1, _ | ⟨w2, _ | ⟨w3, ext⟩⟩⟩
    case cons.cons.nil =>
      simp only [encode, List.cons.injEq, formatF0_eq_iff, maskWord_eq_iff, hop]
      constructor
      · rintro ⟨-, hlegal, hread⟩
        cases hread
        simp_all [rowOpcode, Instr.setterInst]
      · rintro ⟨⟨hformat, hport, hmask, -⟩, -⟩
        simp_all [rowOpcode]
    all_goals simp [rowOpcode, encode]
  case sendString inst ptr =>
    rcases ext with _ | ⟨w1, _ | ⟨w2, ext⟩⟩
    case cons.nil =>
      simp only [encode, List.cons.injEq, formatF0_eq_iff, hop]
      constructor
      · rintro ⟨-, hlegal, hread⟩
        cases hread
        simp_all [rowOpcode, Instr.setterInst]
      · rintro ⟨⟨hformat, hptr, -⟩, -⟩
        simp_all [rowOpcode]
    all_goals simp [rowOpcode, encode]
  -- The rows of one word, in format F0.
  all_goals
    simp only [encode, List.cons.injEq, formatF0_eq_iff, valueField_eq_bitValue_iff, hop]
    constructor
    · rintro ⟨hlen, hlegal, hread⟩
      obtain rfl : ext = [] := by simpa [rowOpcode] using hlen
      cases hread
      simp_all [rowOpcode, Instr.setterInst]
    · rintro ⟨⟨hformat, rfl⟩, hmode⟩
      simp_all [rowOpcode, Instr.setterInst]

/-- The words of a command begin with its row's opcode (R85). -/
theorem encode_eq_cons (i : Instr) : ∃ w0 ext, encode i = w0 :: ext ∧ opcodeOf w0 = rowOpcode i := by
  cases i with
  | construct d =>
    obtain ⟨hop, -⟩ := formatFC_fields d
    exact ⟨_, _, rfl, hop⟩
  | _ => exact ⟨_, _, rfl, (formatF0_fields _ _ _).1⟩

/-- Decode and encode agree: words decode to a command exactly when they are its encoding and it is well formed. -/
theorem decode_eq_ok_iff_encode {m : SetterMode} {ws : List Word} {i : Instr} :
    decode m ws = .ok i ↔ encode i = ws ∧ i.wf m = true := by
  obtain ⟨w, e, henc, hrow⟩ := encode_eq_cons i
  constructor
  · intro h
    obtain ⟨w0, ext, -, rfl, -, -, -, -, hread⟩ := decode_eq_ok.1 h
    exact (decode_eq_ok_iff_encode_of_opcode (opcodeOf_of_readOperands hread)).1 h
  · rintro ⟨rfl, hwf⟩
    rw [henc]
    exact (decode_eq_ok_iff_encode_of_opcode hrow).2 ⟨henc, hwf⟩

/-- Settles O4, by the agreement of decode and encode at the command's own words. -/
theorem decodeOfEncodeIsTheCommand : Obligations.DecodeOfEncodeIsTheCommand :=
  fun _ _ hwf => decode_eq_ok_iff_encode.2 ⟨rfl, hwf⟩

/-- Settles O5, by the agreement of decode and encode. -/
theorem encodeOfDecodeIsTheWords : Obligations.EncodeOfDecodeIsTheWords :=
  fun _ _ _ h => decode_eq_ok_iff_encode.1 h

end Sys2Proof

/-! ### Acceptance in a step -/

namespace Sys2Proof.Machine

open Sys2Proof.Safety

/-- Settles O11: acceptance enters the command's first state or, for INITIALIZE with no descriptor, records NO_DESCRIPTOR. -/
theorem acceptanceChangesOnlyTheSequencer : Obligations.AcceptanceChangesOnlyTheSequencer := by
  intro i s t h
  obtain ⟨-, ⟨q, -, rfl⟩ | ⟨hi, hd, rfl⟩⟩ := exec_eq_next h
  · exact ⟨rfl, .inl rfl⟩
  · exact ⟨rfl, .inr ⟨hi, hd, rfl⟩⟩

/-- A line of legal words is taken and executed as the command they decode to (R91). -/
theorem idleStep_legal {s : State} {ws : List Word} {rest : List Line} {i : Instr} (hp : s.program = .command ws :: rest)
    (hd : decode s.params.setterMode ws = .ok i) : idleStep s = exec i { s with program := rest } := by
  have hpresent : present ws { s with program := rest } = exec i { s with program := rest } := by
    simp only [present, hd]
  rw [idleStep, hp, ← hpresent]
  exact if_pos rfl

theorem blockStep_idle {s : State} (hs : s.seq = .idle) : blockStep s = idleStep s := by
  rw [blockStep, hs]

/-- Settles O9: in IDLE the block's step takes the next line, whichever way the block comes to move. -/
theorem stepRunsTheDecodedCommand : Obligations.StepRunsTheDecodedCommand := by
  intro s ws rest i hs hp hd
  refine ⟨fun he => (step_idle he hs).trans (idleStep_legal hp hd), fun es he => ?_⟩
  calc step s
    _ = blockStep { s with env := es } := step_run he
    _ = idleStep { s with env := es } := blockStep_idle hs
    _ = exec i { s with program := rest, env := es } := idleStep_legal hp hd

/-! ### The setter target -/

theorem setterTarget_fixedPrimary {p : Params} (h : p.setterMode = .fixedPrimary) (inst : Inst) :
    setterTarget p inst = 0 := by
  rw [setterTarget, h]
  rfl

theorem setterTarget_operand {p : Params} (h : p.setterMode = .operand) (inst : Inst) : setterTarget p inst = inst := by
  rw [setterTarget, h]

theorem clockOps_target (t : Inst) (c : Byte) : ∀ op ∈ clockOps t c, uartTarget op = some t := by
  rw [clockOps_eq]
  split <;> simp [uartTarget]

theorem parityOps_target (t : Inst) (p : Bool) : ∀ op ∈ parityOps t p, uartTarget op = some t := by
  cases p <;> simp [parityOps, uartTarget]

theorem baudOps_target (t : Inst) (k : Byte) : ∀ op ∈ baudOps t k, uartTarget op = some t := by
  rw [baudOps_eq]
  split <;> simp [uartTarget]

/-- A command with a setter target enters a list of UART writes to it (R87, R161). -/
theorem entryOf_setter {s : State} {i : Instr} {inst : Inst} (h : i.setterInst = some inst) :
    ∃ ops, entryOf s i = some (.exec ops 0) ∧ ∀ op ∈ ops, uartTarget op = some (setterTarget s.params inst) := by
  cases i with
  | applyBaud _ k => cases h; exact ⟨_, rfl, baudOps_target _ _⟩
  | setClock _ c => cases h; exact ⟨_, rfl, clockOps_target _ _⟩
  | setParity _ p => cases h; exact ⟨_, rfl, parityOps_target _ _⟩
  | _ => cases h <;> exact ⟨_, rfl, List.forall_mem_singleton.2 rfl⟩

/-- Settles O52: the list entered writes the setter target alone, which the mode decides. -/
theorem settersActOnTheirTarget : Obligations.SettersActOnTheirTarget := by
  refine ⟨fun p inst => ?_, fun s i inst hs hi => ?_⟩
  · cases hm : p.setterMode with
    | fixedPrimary => exact setterTarget_fixedPrimary hm inst
    | operand => exact setterTarget_operand hm inst
  · obtain ⟨ops, hentry, hops⟩ := entryOf_setter (s := s) hi
    refine ⟨ops, by rw [exec_idle i s hs, hentry], fun op hop => ⟨fun hm => ?_, fun hm => ?_⟩⟩
    · rw [hops op hop, setterTarget_fixedPrimary hm]
    · rw [hops op hop, setterTarget_operand hm]

end Sys2Proof.Machine

/-! ### The constructors -/

namespace Sys2Proof.Machine

/-- The preset of R102 as a literal: only the port and the mask come from the parameters. -/
theorem defaultDesc_eq (p : Params) :
    defaultDesc p =
      ⟨0, p.defaultPort, p.defaultPinMask, 2, false, false, false, 4, false, false, true, false, false⟩ := rfl

/-- A command that enters `EXEC([LatchDesc(d)], 0)` (R100, R101): accepted in IDLE, and back there two steps later with `d`
stored. -/
theorem latch_command_runs {s : State} {i : Instr} {d : Descriptor} (hs : s.seq = .idle) (he : s.env = [])
    (hq : entryOf s i = some (.exec [.latchDesc d] 0)) :
    ∃ t, exec i s = .next t ∧ t.seq = .exec [.latchDesc d] 0 ∧
      Sys2Proof.core.run 2 t = .next { s with desc := some d, cmd := [] } := by
  have hlatch : WroteAll s [.latchDesc d] { s with desc := some d } := .single (.latchDesc d)
  obtain ⟨haccept, hrun⟩ := command_runs hs he hq hlatch
  exact ⟨_, haccept, rfl, hrun⟩

/-- Settles O12: both constructors enter a list of one `LatchDesc`, which has no guard. -/
theorem constructorsStoreTheDescriptor : Obligations.ConstructorsStoreTheDescriptor := by
  intro s d hs he
  refine ⟨latch_command_runs hs he rfl, ?_⟩
  obtain ⟨t, haccept, -, hrun⟩ := latch_command_runs (i := .constructDefault) hs he rfl
  rw [defaultDesc_eq] at hrun
  exact ⟨t, haccept, hrun⟩

end Sys2Proof.Machine

/-! `41_sequencer.md`, INITIALIZE's list: between its two writes of SWRST stand the pin routing and the setter steps, none of
which touches a reset bit (R121 to R123). -/

namespace Sys2Proof.Machine

open Sys2Proof.Safety

/-- Steps 3 to 12 of INITIALIZE (R121): the field writes to the setter target `t`. -/
def initSetterOps (t : Inst) (d : Descriptor) : List MicroOp :=
  clockOps t (d.clockSource.setWidth 8) ++ bitOrderOps t d.bitOrder ++ stopBitsOps t d.stopBits ++
    parityOps t d.parityMode ++ baudOps t d.baudIndex ++ charLenOps t d.characterLength ++ syncOps t d.syncMode ++
    oversampleOps t d.oversample ++ rxeieOps t d.rxErrorInterrupt ++ brkieOps t d.breakInterrupt

/-- Steps 2 to 12 of INITIALIZE (R121): the pin routing and the setter steps. -/
def initBody (p : Params) (d : Descriptor) : List MicroOp :=
  pinOps d.portAddress d.pinMask ++ initSetterOps (setterTarget p d.inst) d

/-- Steps 1 and 13 are the two writes of the reset bit of the descriptor's UART (R121, R122). -/
theorem initOps_eq (p : Params) (d : Descriptor) :
    initOps p d = [.bitWrite d.inst .ctlw0 0 true] ++ initBody p d ++ [.bitWrite d.inst .ctlw0 0 false] := by
  simp only [initOps, initBody, initSetterOps, List.append_assoc]

/-- The micro-operation writes the reset bit of no UART. -/
def LeavesReset (op : MicroOp) : Prop :=
  op.isSwrstWrite = false ∧ ∀ i x, uartEffect op i .ctlw0 0 x = x

theorem pinOps_leavesReset (a : Addr) (m : Byte) : ∀ op ∈ pinOps a m, LeavesReset op := by
  simp [pinOps, LeavesReset, uartEffect, MicroOp.isSwrstWrite]

/-- Of the bits of the configuration registers only CTLW0 bit 0 is a reset bit (R31, R70). -/
theorem bitWrite_leavesReset (t : Inst) {r : UReg} (hr : isConfigReg r = true) {b : Fin 16} (v : Bool)
    (hb : ¬(r = .ctlw0 ∧ b = 0)) : LeavesReset (.bitWrite t r b v) := by
  refine ⟨Bool.eq_false_iff.2 fun h => hb (MicroOp.isSwrstWrite_bitWrite_iff.1 h), fun i x => ?_⟩
  rw [uartEffect_bitWrite _ _ _ _ hr, if_neg]
  rintro ⟨-, hreg, hbit⟩
  exact hb ⟨hreg.symm, Fin.ext hbit.symm⟩

theorem clockOps_leavesReset (t : Inst) (c : Byte) : ∀ op ∈ clockOps t c, LeavesReset op := by
  rw [clockOps_eq]
  split
  · refine List.forall_mem_singleton.2 ⟨rfl, fun i x => ?_⟩
    rw [uartEffect_fieldWrite _ _ _ _ rfl]
    simp
  · exact List.forall_mem_nil _

theorem parityOps_leavesReset (t : Inst) (p : Bool) : ∀ op ∈ parityOps t p, LeavesReset op := by
  have hpen : ∀ v, LeavesReset (.bitWrite t .ctlw0 15 v) := fun v => bitWrite_leavesReset t rfl v (by decide)
  have hpar : LeavesReset (.bitWrite t .ctlw0 14 false) := bitWrite_leavesReset t rfl false (by decide)
  cases p with
  | false => exact List.forall_mem_singleton.2 (hpen false)
  | true => exact List.forall_mem_cons.2 ⟨hpen true, List.forall_mem_singleton.2 hpar⟩

theorem baudOps_leavesReset (t : Inst) (k : Byte) : ∀ op ∈ baudOps t k, LeavesReset op := by
  rw [baudOps_eq]
  split <;> simp [LeavesReset, uartEffect, MicroOp.isSwrstWrite]

theorem initSetterOps_leavesReset (t : Inst) (d : Descriptor) : ∀ op ∈ initSetterOps t d, LeavesReset op := by
  have hbit : ∀ {b : Fin 16} (v : Bool), b ≠ 0 → ∀ op ∈ [MicroOp.bitWrite t .ctlw0 b v], LeavesReset op :=
    fun v hb => List.forall_mem_singleton.2 (bitWrite_leavesReset t rfl v fun h => hb h.2)
  have hos16 : ∀ op ∈ oversampleOps t d.oversample, LeavesReset op :=
    List.forall_mem_singleton.2 (bitWrite_leavesReset t rfl _ (by decide))
  simp only [initSetterOps, List.forall_mem_append]
  and_intros
  exacts [clockOps_leavesReset _ _, hbit _ (by decide), hbit _ (by decide), parityOps_leavesReset _ _,
    baudOps_leavesReset _ _, hbit _ (by decide), hbit _ (by decide), hos16, hbit _ (by decide), hbit _ (by decide)]

theorem initBody_leavesReset (p : Params) (d : Descriptor) : ∀ op ∈ initBody p d, LeavesReset op :=
  List.forall_mem_append.2 ⟨pinOps_leavesReset _ _, initSetterOps_leavesReset _ _⟩

/-! ### The reset bit is held -/

/-- The first micro-operation of the list sets the reset bit, and every one before the last keeps it. -/
theorem initOps_holds_reset {p : Params} {d : Descriptor} {j : Nat} {op : MicroOp} {x : Option Bool}
    (hop : (initOps p d)[j]? = some op) (hj : j + 1 < (initOps p d).length) (hx : 1 ≤ j → x = some true) :
    uartEffect op d.inst .ctlw0 0 x = some true := by
  rw [initOps_eq] at hop hj
  simp only [List.length_append, List.length_singleton] at hj
  cases j with
  | zero =>
    obtain rfl : MicroOp.bitWrite d.inst .ctlw0 0 true = op := by simpa using hop
    rw [uartEffect_bitWrite _ _ _ _ rfl, if_pos ⟨rfl, rfl, rfl⟩]
  | succ j =>
    have hbody : (initBody p d)[j]? = some op := by
      rw [List.append_assoc, List.singleton_append, List.getElem?_cons_succ,
        List.getElem?_append_left (by omega)] at hop
      exact hop
    obtain ⟨-, hkeeps⟩ := initBody_leavesReset p d op (List.mem_of_getElem? hbody)
    rw [hkeeps, hx (by omega)]

theorem initHoldsReset_of_index_zero {s : State} (h : ∀ ops j, s.seq = .exec ops j → j = 0) : InitHoldsReset s := by
  intro d j hs hj
  have := h _ _ hs
  omega

theorem initHoldsReset_of_not_exec {s : State} (h : ∀ ops j, s.seq ≠ .exec ops j) : InitHoldsReset s :=
  initHoldsReset_of_index_zero fun ops j hs => absurd hs (h ops j)

/-- TxReady writes IFG, and TxDone only BUSY: the reset bits stay (R224). -/
theorem uartBit_txReady_ctlw0 (s : State) (i j : Inst) (b : Nat) :
    uartBit (txReady i s) j .ctlw0 b = uartBit s j .ctlw0 b := by
  rw [txReady, uartBit_writeU, if_neg (by simp)]

theorem uartBit_txDone (s : State) (i j : Inst) (r : UReg) (b : Nat) :
    uartBit (txDone i s) j r b = uartBit s j r b := by
  unfold txDone uartBit
  by_cases hj : j = i
  · subst hj
    rw [State.u_putU_same]
    cases r <;> rfl
  · rw [State.u_putU_ne _ _ hj]

/-- A move inside INITIALIZE's list is an event, which leaves CTLW0, or the micro-operation at the index (R123). -/
theorem Move.initHoldsReset {s t : State} (h : Move s t) (hold : InitHoldsReset s) : InitHoldsReset t := by
  cases h with
  | ready i rest _ _ =>
    intro d j hs hj hlt
    rw [uartBit_txReady_ctlw0]
    exact hold d j hs hj hlt
  | done i rest _ _ =>
    intro d j hs hj hlt
    rw [uartBit_txDone]
    exact hold d j hs hj hlt
  | wait => exact hold
  | entered i ws rest q _ _ _ hq =>
    refine initHoldsReset_of_index_zero fun ops j hs => ?_
    obtain rfl : q = .exec ops j := hs
    exact (entryOf_exec hq).1
  | performed ops j op u hs hop hw =>
    intro d k hseq hk hlt
    obtain ⟨hparams, -⟩ := hw.frame
    obtain ⟨hops, rfl⟩ : ops = initOps s.params d ∧ j + 1 = k := by simpa [hparams] using hseq
    subst hops
    have hlt' : j + 1 < (initOps s.params d).length := by simpa [hparams] using hlt
    show uartBit u d.inst .ctlw0 0 = some true
    rw [hw.uartBit]
    exact initOps_holds_reset hop hlt' fun hj => hold d j hs hj (by omega)
  | hostUart i r mask v rest hs _ => exact initHoldsReset_of_not_exec fun ops j h => nomatch hs.symm.trans h
  | hostGpio a r mask v rest hs _ =>
    exact initHoldsReset_of_not_exec fun ops j => by simp [Machine.hostGpio, hs]
  | hostMem a b rest hs _ => exact initHoldsReset_of_not_exec fun ops j h => nomatch hs.symm.trans h
  | checked i b k e _ _ _ => exact initHoldsReset_of_not_exec fun ops j => by cases e <;> simp
  | polled i b k f _ _ _ => exact initHoldsReset_of_not_exec fun ops j => by cases f <;> simp
  | wrote i b k _ _ q c hq =>
    refine initHoldsReset_of_not_exec fun ops j => ?_
    obtain ⟨-, rfl, -⟩ | ⟨p, -, rfl, -⟩ := hq <;> simp
  | _ => exact initHoldsReset_of_not_exec fun ops j => nofun

/-- Settles O27: the list's first micro-operation sets the bit, no other before the last writes it, and no event does. -/
theorem resetBitIsHeldThroughInitialize : Obligations.ResetBitIsHeldThroughInitialize :=
  fun _ _ hold h => (step_move h).initHoldsReset hold

end Sys2Proof.Machine

/-! `41_sequencer.md`, sample words, pin routing and the baud rate (R125 to R133). -/

namespace Sys2Proof.Machine

open Sys2Proof.Safety

/-- Settles O6: the decoder computes each of the words. -/
theorem sampleWordsDecode : Obligations.SampleWordsDecode := ⟨rfl, rfl, rfl, rfl, rfl, rfl, rfl, rfl⟩

/-! ### Operands out of range -/

/-- A command that enters an empty list is back in IDLE one step later, with nothing written. -/
theorem empty_command_runs {s : State} {i : Instr} (hs : s.seq = .idle) (he : s.env = [])
    (hq : entryOf s i = some (.exec [] 0)) :
    ∃ t, exec i s = .next t ∧ t.seq = .exec [] 0 ∧ Sys2Proof.core.run 1 t = .next { s with cmd := [] } := by
  obtain ⟨haccept, hrun⟩ := command_runs hs he hq (.nil s)
  exact ⟨_, haccept, rfl, hrun⟩

/-- Settles O17: outside the table's five rows and the three clock codes the list is empty. -/
theorem outOfRangeOperandsAreSilentNoOps : Obligations.OutOfRangeOperandsAreSilentNoOps := by
  intro s inst v hs he
  refine ⟨fun hv => empty_command_runs hs he ?_, fun hv => empty_command_runs hs he ?_⟩
  · rw [entryOf, baudOps_eq, if_neg (by omega)]
  · rw [entryOf, clockOps_eq, if_neg (by omega)]

/-! ### Pin routing -/

/-- A GPIO write replaces its register and traces the value stored (R68). -/
theorem Wrote.gpioClr_eq {s t : State} {a : Addr} {r : GReg} {m : Byte} (h : Wrote s (.gpioClr a r m) t) :
    ∃ x, t = (s.putPort a ((s.port a).put r x)).log (.gc a r x) := by
  cases h
  exact ⟨_, rfl⟩

theorem Wrote.gpioSet_eq {s t : State} {a : Addr} {r : GReg} {m : Byte} (h : Wrote s (.gpioSet a r m) t) :
    ∃ x, t = (s.putPort a ((s.port a).put r x)).log (.gs a r x) := by
  cases h
  exact ⟨_, rfl⟩

/-- `PinOps` writes no UART and no other port, and traces what each of the three registers holds at the end (R126): each is
written once. -/
theorem WroteAll.pinOps_frame {s t : State} {a : Addr} {m : Byte} (h : WroteAll s (pinOps a m) t) :
    t.uart = s.uart ∧ (∀ b, b ≠ a → t.port b = s.port b) ∧
      t.trace = s.trace ++ [.gc a .dir (t.port a).dir, .gc a .sel1 (t.port a).sel1, .gs a .sel0 (t.port a).sel0] := by
  obtain _ | ⟨hdir, _ | ⟨hsel1, _ | ⟨hsel0, _ | _⟩⟩⟩ := h
  obtain ⟨x, rfl⟩ := hdir.gpioClr_eq
  obtain ⟨y, rfl⟩ := hsel1.gpioClr_eq
  obtain ⟨z, rfl⟩ := hsel0.gpioSet_eq
  refine ⟨by simp, fun b hb => by simp [State.port_putPort_ne _ _ hb], ?_⟩
  simp [GpioPort.put]

/-- Each bit of each port after `PinOps` (R126). -/
theorem pinOps_gpioEffect (a : Addr) (m : Byte) (b : Addr) (r : GReg) (k : Nat) (x : Option Bool) :
    (pinOps a m).foldl (fun x op => gpioEffect op b r k x) x =
      if b = a ∧ m.getLsbD k = true then some (decide (r = .sel0)) else x := by
  cases r <;> simp [pinOps, gpioEffect]

/-- Settles O14: the port exists, so `PinOps` is performed whole. -/
theorem configurePinsRoutesTheMaskedPins : Obligations.ConfigurePinsRoutesTheMaskedPins := by
  intro s a m hs he hport
  obtain ⟨t, hall⟩ := exists_wroteAll_pins a m hport
  obtain ⟨haccept, hrun⟩ := command_runs hs he (i := .configurePins a m) rfl hall
  obtain ⟨huart, hother, htrace⟩ := hall.pinOps_frame
  obtain ⟨hframe, -⟩ := hall.registersOnly fun op hop => (pinOps_bus a m op hop).2
  have hbit : ∀ r k, gpioBit t a r k = if m.getLsbD k = true then some (decide (r = .sel0)) else gpioBit s a r k :=
    fun r k => by rw [hall.gpioBit, pinOps_gpioEffect]; simp
  refine ⟨_, _, haccept, rfl, hrun, ?_, hbit .dir, hbit .sel1, hbit .sel0, hother, htrace⟩
  rw [huart] at hframe
  exact congrArg (fun x : State => { x with cmd := [] }) hframe

/-! ### The baud rate -/

/-- `MODVAL` bit by bit (R131, R132): OS16 at 0, zeros at 3:1, BRF at 7:4, BRS at 15:8. -/
theorem modval_getLsbD (k b : Nat) (hb : b < 16) :
    (modval k).getLsbD b =
      if b = 0 then true else if b < 4 then false else if b < 8 then (baudBRF k).getLsbD (b - 4)
        else (baudBRS k).getLsbD (b - 8) := by
  have hfirst : 8 ≤ b → (baudBRF k).getLsbD (b - 4) = false := fun h => BitVec.getLsbD_of_ge _ _ (by omega)
  simp only [modval, BitVec.getLsbD_or, BitVec.getLsbD_shiftLeft, BitVec.getLsbD_setWidth, hb, decide_true,
    Bool.true_and]
  split_ifs with h0 h4 h8
  · simp [h0]
  · simp [h0, h4, show b < 8 by omega]
  · simp [h0, h4, h8, show b - 4 < 16 by omega]
  · simp [h0, h4, h8, hfirst (by omega), show b - 8 < 16 by omega]

/-- Each bit of each register after `BaudOps` (R130). -/
theorem baudOps_uartEffect (t : Inst) (k : Byte) (j : Inst) (r : UReg) {b : Nat} (hb : b < 16) (x : Option Bool) :
    (baudOps t k).foldl (fun x op => uartEffect op j r b x) x =
      if j = t ∧ r = .brw ∧ k.toNat < 5 then some ((baudBR k.toNat).getLsbD b)
      else if j = t ∧ r = .mctlw ∧ k.toNat < 5 then some ((modval k.toNat).getLsbD b) else x := by
  have hwrite : ∀ q v y, isConfigReg q = true →
      uartEffect (.regWrite t q v) j r b y = if j = t ∧ r = q then some (v.getLsbD b) else y :=
    fun q v y hq => uartEffect_regWrite t q v hq j r b hb y
  rw [baudOps_eq]
  split
  · rename_i hk
    rw [List.foldl_cons, List.foldl_cons, List.foldl_nil, hwrite _ _ _ rfl, hwrite _ _ _ rfl]
    cases r <;> simp [hk]
  · rename_i hk
    simp [hk]

theorem Wrote.regWrite_trace {s t : State} {i : Inst} {r : UReg} {v : Half} (h : Wrote s (.regWrite i r v) t) :
    t.trace = s.trace ++ [.rw i r v] := by
  cases h
  rfl

/-- `BaudOps` of an index of the table traces the divisor, then the modulation (R130). -/
theorem WroteAll.baudOps_trace {s u : State} {t : Inst} {k : Byte} (hk : k.toNat < 5) (h : WroteAll s (baudOps t k) u) :
    u.trace = s.trace ++ [.rw t .brw (baudBR k.toNat), .rw t .mctlw (modval k.toNat)] := by
  rw [baudOps_eq, if_pos hk] at h
  obtain _ | ⟨hdiv, _ | ⟨hmod, _ | _⟩⟩ := h
  rw [hmod.regWrite_trace, hdiv.regWrite_trace, List.append_assoc, List.singleton_append]

/-- Writes to a UART that admits configuration, none of its reset bit, are performed whole. -/
theorem exists_wroteAll_setter {s : State} {i : Inst} {ops : List MicroOp} (h : ConfigOk s i)
    (htarget : ∀ op ∈ ops, uartTarget op = some i) (hreset : ∀ op ∈ ops, LeavesReset op) :
    ∃ t, WroteAll s ops t ∧ ConfigOk t i :=
  exists_wroteAll_config ops h fun op hop => ⟨htarget op hop, (hreset op hop).2 i⟩

/-- Settles O16: the guards pass for both writes, whose bits are the table's. -/
theorem applyBaudWritesTheTableEntry : Obligations.ApplyBaudWritesTheTableEntry := by
  intro s inst k hs he hk hok
  obtain ⟨t, hall, -⟩ := exists_wroteAll_setter hok (baudOps_target _ k) (baudOps_leavesReset _ k)
  obtain ⟨haccept, hrun⟩ := command_runs hs he (i := .applyBaud inst k) rfl hall
  have hlength : (baudOps (setterTarget s.params inst) k).length = 2 := by rw [baudOps_eq, if_pos hk]; rfl
  have hframe := hall.uartOnly fun op hop => by rw [baudOps_target _ k op hop, Option.isSome_some]
  rw [hlength] at hrun
  have htrace := hall.baudOps_trace hk
  refine ⟨_, _, haccept, hrun, congrArg (fun x : State => { x with cmd := [] }) hframe, htrace, fun j r b hb => ?_,
    hall.busy⟩
  refine (hall.uartBit j r b).trans ?_
  rw [baudOps_uartEffect _ _ _ _ hb]
  simp only [hk, and_true, modval_getLsbD _ _ hb]

end Sys2Proof.Machine

/-! ### The list INITIALIZE enters -/

namespace Sys2Proof.Machine

open Sys2Proof.Safety

/-- Each optional step adds its micro-operations to the thirteen (R121). -/
theorem initOps_length (p : Params) (d : Descriptor) :
    (initOps p d).length = 13 + (if d.clockSource.toNat < 3 then 1 else 0) + (if d.parityMode then 1 else 0) +
      (if d.baudIndex.toNat < 5 then 2 else 0) := by
  have hclock : ∀ t, (clockOps t (d.clockSource.setWidth 8)).length = if d.clockSource.toNat < 3 then 1 else 0 := by
    intro t
    rw [clockOps_eq, BitVec.toNat_setWidth_of_le (show 2 ≤ 8 by omega)]
    split <;> rfl
  have hparity : ∀ t, (parityOps t d.parityMode).length = 1 + if d.parityMode then 1 else 0 := by
    intro t
    cases d.parityMode <;> rfl
  have hbaud : ∀ t, (baudOps t d.baudIndex).length = if d.baudIndex.toNat < 5 then 2 else 0 := by
    intro t
    rw [baudOps_eq]
    split <;> rfl
  simp only [initOps, List.length_append, hclock, hparity, hbaud, pinOps, bitOrderOps, stopBitsOps, charLenOps, syncOps,
    oversampleOps, rxeieOps, brkieOps, List.length_cons, List.length_nil]
  omega

/-- Settles O26: the list is `initOps`, whose steps between the two reset writes are `initBody`. -/
theorem initializeEntersTheThirteenSteps : Obligations.InitializeEntersTheThirteenSteps := by
  intro s d T hs hd hT
  obtain rfl : setterTarget s.params d.inst = T := by
    obtain ⟨hm, rfl⟩ | ⟨hm, rfl⟩ := hT
    · exact setterTarget_fixedPrimary hm _
    · exact setterTarget_operand hm _
  have hlength := initOps_length s.params d
  have hwhole := initOps_eq s.params d
  refine ⟨initOps s.params d, ?_, ?_, hlength, ?_, ?_, ?_, ?_, ?_⟩
  · rw [exec_idle _ s hs, entryOf, hd]
    rfl
  · have hcode : ∀ c : BitVec 2, (c.setWidth 8).setWidth 16 = c.setWidth 16 := by decide
    rw [initOps, clockOps_eq, baudOps_eq, BitVec.toNat_setWidth_of_le (show 2 ≤ 8 by omega), hcode]
    rfl
  · rw [hlength, Nat.add_assoc, Nat.add_assoc]
    exact Nat.le_add_right _ _
  · rw [hlength]
    split_ifs <;> omega
  · rw [hwhole]
    rfl
  · rw [hwhole, List.getLast?_concat]
  · rw [hwhole, List.append_assoc, List.singleton_append, List.tail_cons, List.dropLast_concat]
    exact fun op hop => (initBody_leavesReset _ _ op hop).1

/-! ### What INITIALIZE leaves -/

/-- Each bit of each register after `ClockOps` (R150). -/
theorem clockOps_uartEffect (t : Inst) (c : Byte) (j : Inst) (r : UReg) {b : Nat} (hb : b < 16) (x : Option Bool) :
    (clockOps t c).foldl (fun x op => uartEffect op j r b x) x =
      if j = t ∧ r = .ctlw0 ∧ (b = 6 ∨ b = 7) ∧ c.toNat < 3 then some (c.getLsbD (b - 6)) else x := by
  have hmask : (0x00C0#16).getLsbD b = decide (b = 6 ∨ b = 7) :=
    (by decide : ∀ b : Fin 16, (0x00C0#16).getLsbD b.val = decide (b.val = 6 ∨ b.val = 7)) ⟨b, hb⟩
  have hvalue : b = 6 ∨ b = 7 → (c.setWidth 16 <<< 6).getLsbD b = c.getLsbD (b - 6) := by
    rintro (rfl | rfl) <;> simp
  rw [clockOps_eq]
  split
  · rename_i hc
    rw [List.foldl_cons, List.foldl_nil, uartEffect_fieldWrite _ _ _ _ rfl, BitVec.ofNat_eq_ofNat, hmask]
    by_cases hk : b = 6 ∨ b = 7
    · simp [hk, hc, hvalue hk]
    · simp [hk]
  · rename_i hc
    simp [hc]

/-- Each bit of each register after `ParityOps` (R153). -/
theorem parityOps_uartEffect (t : Inst) (p : Bool) (j : Inst) (r : UReg) (b : Nat) (x : Option Bool) :
    (parityOps t p).foldl (fun x op => uartEffect op j r b x) x =
      if j = t ∧ r = .ctlw0 ∧ b = 15 then some p
      else if j = t ∧ r = .ctlw0 ∧ b = 14 ∧ p = true then some false else x := by
  cases p with
  | false => simp [parityOps, uartEffect_bitWrite t .ctlw0 _ _ rfl]
  | true =>
    simp only [parityOps, if_true, List.foldl_cons, List.foldl_nil, uartEffect_bitWrite t .ctlw0 _ _ rfl]
    split_ifs <;> simp_all

/-- What the descriptor `d` makes bit `b` of register `r` of the setter target (R121, R124); `none` where it is kept. -/
def initField (d : Descriptor) (r : UReg) (b : Nat) : Option Bool :=
  match r with
  | .ctlw0 =>
    if b = 13 then some d.bitOrder else if b = 11 then some d.stopBits else if b = 15 then some d.parityMode
    else if b = 14 ∧ d.parityMode = true then some false else if b = 12 then some d.characterLength
    else if b = 8 then some d.syncMode else if b = 5 then some d.rxErrorInterrupt
    else if b = 4 then some d.breakInterrupt
    else if (b = 6 ∨ b = 7) ∧ d.clockSource.toNat < 3 then some (d.clockSource.getLsbD (b - 6)) else none
  | .brw => if d.baudIndex.toNat < 5 then some ((baudBR d.baudIndex.toNat).getLsbD b) else none
  | .mctlw =>
    if b = 0 then some d.oversample
    else if d.baudIndex.toNat < 5 then some ((modval d.baudIndex.toNat).getLsbD b) else none
  | .txbuf => none
  | .ie => none
  | .ifg => none

/-- A bit written holds its value, whatever it was; a bit kept is as before. -/
theorem ite_some_or {c : Prop} [Decidable c] (v : Bool) (x y : Option Bool) :
    (if c then some v else y).or x = if c then some v else y.or x := by
  split <;> rfl

/-- Each bit of each register after the setter steps (R121, R124). -/
theorem initSetterOps_uartEffect (t : Inst) (d : Descriptor) (j : Inst) (r : UReg) {b : Nat} (hb : b < 16)
    (x : Option Bool) :
    (initSetterOps t d).foldl (fun x op => uartEffect op j r b x) x = if j = t then (initField d r b).or x else x := by
  simp only [initSetterOps, List.foldl_append, clockOps_uartEffect _ _ _ _ hb, parityOps_uartEffect,
    baudOps_uartEffect _ _ _ _ hb, bitOrderOps, stopBitsOps, charLenOps, syncOps, oversampleOps, rxeieOps, brkieOps,
    List.foldl_cons, List.foldl_nil, uartEffect_bitWrite t .ctlw0 _ _ rfl, uartEffect_bitWrite t .mctlw _ _ rfl,
    BitVec.toNat_setWidth_of_le (show 2 ≤ 8 by omega)]
  by_cases hj : j = t
  · cases r with
    | ctlw0 => interval_cases b <;> simp [hj, initField, ite_some_or]
    | _ => simp [hj, initField, ite_some_or]
  · simp [hj]


/-- Each bit of each register after INITIALIZE's list: step 13 clears the descriptor's reset bit, and the setter target holds
the descriptor's fields (R121, R124). -/
theorem initOps_uartEffect (p : Params) (d : Descriptor) (j : Inst) (r : UReg) {b : Nat} (hb : b < 16)
    (x : Option Bool) :
    (initOps p d).foldl (fun x op => uartEffect op j r b x) x =
      if j = d.inst ∧ r = .ctlw0 ∧ b = 0 then some false
      else if j = setterTarget p d.inst then (initField d r b).or x else x := by
  have hpins : ∀ y, (pinOps d.portAddress d.pinMask).foldl (fun x op => uartEffect op j r b x) y = y := fun _ => rfl
  simp only [initOps_eq, initBody, List.foldl_append, List.foldl_cons, List.foldl_nil, hpins,
    initSetterOps_uartEffect _ _ _ _ hb, uartEffect_bitWrite _ .ctlw0 _ _ rfl, Fin.val_zero]
  by_cases hreset : j = d.inst ∧ r = .ctlw0 ∧ b = 0
  · rw [if_pos hreset, if_pos hreset]
  · simp only [if_neg hreset]

/-- UART writes leave every port. -/
theorem foldl_gpioEffect_uart {ops : List MicroOp} (h : ∀ op ∈ ops, (uartTarget op).isSome = true) (a : Addr) (r : GReg)
    (k : Nat) (x : Option Bool) : ops.foldl (fun x op => gpioEffect op a r k x) x = x := by
  induction ops with
  | nil => rfl
  | cons op ops ih =>
    obtain ⟨hop, hops⟩ := List.forall_mem_cons.1 h
    have heffect : gpioEffect op a r k x = x := by
      cases op with
      | gpioClr _ _ _ => cases hop
      | gpioSet _ _ _ => cases hop
      | _ => rfl
    rw [List.foldl_cons, heffect, ih hops]

theorem initSetterOps_target (t : Inst) (d : Descriptor) : ∀ op ∈ initSetterOps t d, uartTarget op = some t := by
  have hbit : ∀ {r : UReg} {b : Fin 16} {v : Bool}, ∀ op ∈ [MicroOp.bitWrite t r b v], uartTarget op = some t :=
    List.forall_mem_singleton.2 rfl
  simp only [initSetterOps, List.forall_mem_append]
  and_intros
  exacts [clockOps_target _ _, hbit, hbit, parityOps_target _ _, baudOps_target _ _, hbit, hbit, hbit, hbit, hbit]

/-- Each bit of each port after INITIALIZE's list: only step 2 writes one (R126). -/
theorem initOps_gpioEffect (p : Params) (d : Descriptor) (a : Addr) (r : GReg) (k : Nat) (x : Option Bool) :
    (initOps p d).foldl (fun x op => gpioEffect op a r k x) x =
      if a = d.portAddress ∧ d.pinMask.getLsbD k = true then some (decide (r = .sel0)) else x := by
  have hreset : ∀ v y, gpioEffect (.bitWrite d.inst .ctlw0 0 v) a r k y = y := fun _ _ => rfl
  have hsetters : ∀ y, (initSetterOps (setterTarget p d.inst) d).foldl (fun x op => gpioEffect op a r k x) y = y :=
    foldl_gpioEffect_uart (fun op hop => by rw [initSetterOps_target _ _ op hop, Option.isSome_some]) a r k
  simp only [initOps_eq, initBody, List.foldl_append, List.foldl_cons, List.foldl_nil, hreset, hsetters,
    pinOps_gpioEffect]

/-- Micro-operations that write no reset bit keep what configuration writes need. -/
theorem WroteAll.configOk {s t : State} {ops : List MicroOp} {i : Inst} (h : WroteAll s ops t) (hi : ConfigOk s i)
    (hreset : ∀ op ∈ ops, LeavesReset op) : ConfigOk t i := by
  induction h with
  | nil s => exact hi
  | cons hw _ ih =>
    obtain ⟨hop, hops⟩ := List.forall_mem_cons.1 hreset
    exact ih (hw.configOk hi (hop.2 i)) hops

/-- Step 1 of INITIALIZE makes its own UART admit configuration, and leaves another that does as it is (R122). -/
theorem Wrote.configOk_of_setReset {s t : State} {i j : Inst} (h : Wrote s (.bitWrite i .ctlw0 0 true) t)
    (hi : SetterOk s i) (hj : j = i ∨ ConfigOk s j) : ConfigOk t j := by
  by_cases hij : j = i
  · subst hij
    refine ⟨h.setterOk hi, .inr ?_⟩
    rw [swrst_eq_uartBit, h.uartBit, uartEffect_bitWrite _ _ _ _ rfl, if_pos ⟨rfl, rfl, rfl⟩]
  · refine h.configOk (hj.resolve_left hij) fun x => ?_
    rw [uartEffect_bitWrite _ _ _ _ rfl, if_neg fun hc => hij hc.1]

/-- INITIALIZE's list is performed whole where the port exists, the descriptor's UART is not transmitting, and the setter target
is that UART or admits configuration (R120, R218). -/
theorem exists_wroteAll_init {s : State} {d : Descriptor} (hport : validPort s.params d.portAddress = true)
    (hinst : SetterOk s d.inst)
    (htarget : setterTarget s.params d.inst = d.inst ∨ ConfigOk s (setterTarget s.params d.inst)) :
    ∃ t, WroteAll s (initOps s.params d) t := by
  obtain ⟨s₁, hset⟩ := wrote_of_guard rfl (writeGuard_of_setterOk hinst true)
  obtain ⟨hparams, -⟩ := hset.frame
  obtain ⟨s₂, hpins⟩ := exists_wroteAll_pins (s := s₁) d.portAddress d.pinMask (by rw [hparams]; exact hport)
  have hconfig := hpins.configOk (hset.configOk_of_setReset hinst htarget) (pinOps_leavesReset _ _)
  obtain ⟨s₃, hsetters, -⟩ :=
    exists_wroteAll_setter hconfig (initSetterOps_target _ d) (initSetterOps_leavesReset _ d)
  have hwhole := (WroteAll.single hset).append (hpins.append hsetters)
  obtain ⟨s₄, hclear⟩ := wrote_of_guard rfl (writeGuard_of_setterOk (hwhole.setterOk hinst) false)
  rw [initOps_eq]
  exact ⟨s₄, hwhole.append (.single hclear)⟩

/-- Settles O28: the list is performed whole, and each bit of each register is what the list makes of it. -/
theorem initializeConfiguresTheTarget : Obligations.InitializeConfiguresTheTarget := by
  intro s d hs he hd hport hinst _ htarget
  obtain ⟨t, hall⟩ := exists_wroteAll_init hport hinst htarget
  obtain ⟨haccept, hrun⟩ := command_runs hs he (i := .initializeCmd) (by rw [entryOf, hd]; rfl) hall
  obtain ⟨hframe, htrace⟩ := hall.registersOnly fun op hop => (initOps_bus _ _ op hop).2
  have hgpio : ∀ a r k, gpioBit t a r k =
      if a = d.portAddress ∧ d.pinMask.getLsbD k = true then some (decide (r = .sel0)) else gpioBit s a r k :=
    fun a r k => by rw [hall.gpioBit, initOps_gpioEffect]
  refine ⟨_, _, _, haccept, rfl, hrun, congrArg (fun x : State => { x with cmd := [] }) hframe, htrace,
    fun j r b hb => ?_, hall.busy, fun a => hgpio a .dir, fun a => hgpio a .sel1, fun a => hgpio a .sel0⟩
  refine (hall.uartBit j r b).trans ?_
  rw [initOps_uartEffect _ _ _ _ hb]
  by_cases hreset : j = d.inst ∧ r = .ctlw0 ∧ b = 0
  · rw [if_pos hreset, if_pos hreset]
  rw [if_neg hreset, if_neg hreset]
  by_cases hj : j = setterTarget s.params d.inst
  · rw [if_pos hj, if_neg (not_not.2 hj)]
    cases r with
    | ctlw0 => interval_cases b <;> simp [initField, ite_some_or]
    | _ => simp only [initField, ite_some_or, Option.none_or]
  · rw [if_neg hj, if_pos hj]

end Sys2Proof.Machine

/-! `42_field_setters.md`, the nine field setters (R150 to R159): their lists are writes to the setter target, none of its reset
bit, so that where configuration is admitted each is performed whole. -/

namespace Sys2Proof.Machine

open Sys2Proof.Safety

/-! ### A command with a setter target -/

/-- CLEAR_FLAGS takes in no reset bit (R195). -/
theorem clearFlags_leavesReset (p : Params) (t : Inst) :
    ∀ op ∈ [MicroOp.fieldWrite t .ctlw0 (clearFlagsMask p) 0], LeavesReset op := by
  refine List.forall_mem_singleton.2 ⟨rfl, fun i x => ?_⟩
  have hmask : (clearFlagsMask p).getLsbD 0 = false := by
    unfold clearFlagsMask
    split <;> rfl
  rw [uartEffect_fieldWrite _ _ _ _ rfl, hmask, if_neg (by simp)]

/-- A command with a setter target enters a list that writes no reset bit (R87). -/
theorem entryOf_setter_leavesReset {s : State} {i : Instr} {inst : Inst} {ops : List MicroOp} {j : Nat}
    (hi : i.setterInst = some inst) (hq : entryOf s i = some (.exec ops j)) : ∀ op ∈ ops, LeavesReset op := by
  have hbit : ∀ {t : Inst} {r : UReg} {b : Fin 16} {v : Bool}, isConfigReg r = true → ¬(r = .ctlw0 ∧ b = 0) →
      ∀ op ∈ [MicroOp.bitWrite t r b v], LeavesReset op :=
    fun hr hb => List.forall_mem_singleton.2 (bitWrite_leavesReset _ hr _ hb)
  cases i with
  | applyBaud _ k => cases hq; exact baudOps_leavesReset _ _
  | setClock _ c => cases hq; exact clockOps_leavesReset _ _
  | setParity _ p => cases hq; exact parityOps_leavesReset _ _
  | clearFlags _ => cases hq; exact clearFlags_leavesReset _ _
  | _ => cases hi <;> cases hq <;> exact hbit rfl (by decide)

/-- A command with a setter target that admits configuration: accepted in IDLE, and back there with its list performed whole,
which leaves all but the UART registers and the trace (R87, R25). -/
theorem setter_runs {s : State} {i : Instr} {inst : Inst} {ops : List MicroOp} (hs : s.seq = .idle) (he : s.env = [])
    (hok : ConfigOk s (setterTarget s.params inst)) (hi : i.setterInst = some inst)
    (hq : entryOf s i = some (.exec ops 0)) :
    ∃ t u : State, exec i s = .next t ∧ Sys2Proof.core.run (ops.length + 1) t = .next u ∧
      u = { s with uart := u.uart, trace := u.trace, cmd := [] } ∧ WroteAll { s with cmd := [] } ops u := by
  have htarget : ∀ op ∈ ops, uartTarget op = some (setterTarget s.params inst) := by
    obtain ⟨ops', hq', htarget⟩ := entryOf_setter (s := s) hi
    obtain rfl : ops' = ops := by simpa [hq] using hq'.symm
    exact htarget
  obtain ⟨w, hall, -⟩ := exists_wroteAll_setter hok htarget (entryOf_setter_leavesReset hi hq)
  obtain ⟨haccept, hrun⟩ := command_runs hs he hq hall
  have hframe := hall.uartOnly fun op hop => by rw [htarget op hop, Option.isSome_some]
  exact ⟨_, _, haccept, hrun, congrArg (fun x : State => { x with cmd := [] }) hframe, hall.withCmd []⟩

theorem Wrote.bitWrite_trace {s t : State} {i : Inst} {r : UReg} {b : Fin 16} {v : Bool}
    (h : Wrote s (.bitWrite i r b v) t) : t.trace = s.trace ++ [.bw i r b v] := by
  cases h
  rfl

/-- A `FieldWrite` traces the register as it leaves it (R64). -/
theorem Wrote.fieldWrite_trace {s t : State} {i : Inst} {r : UReg} {m v : Half} (h : Wrote s (.fieldWrite i r m v) t) :
    t.trace = s.trace ++ [.fw i r m ((t.u i).get r)] := by
  cases h
  rw [State.u_log, State.u_writeU_same]
  rfl

/-! ### The clock source -/

/-- A UART register has 16 bits (R8). -/
theorem uartBit_of_ge (s : State) (i : Inst) (r : UReg) {b : Nat} (hb : 16 ≤ b) : uartBit s i r b = none := by
  rw [uartBit, Reg.bit?, BitVec.getLsbD_of_ge _ _ hb]
  rfl

/-- `ClockOps` of a code below 3 traces CTLW0 as it leaves it (R64, R150). -/
theorem WroteAll.clockOps_trace {s u : State} {t : Inst} {c : Byte} (hc : c.toNat < 3)
    (h : WroteAll s (clockOps t c) u) : u.trace = s.trace ++ [.fw t .ctlw0 0x00C0 ((u.u t).get .ctlw0)] := by
  rw [clockOps_eq, if_pos hc] at h
  obtain _ | ⟨hfield, _ | _⟩ := h
  exact hfield.fieldWrite_trace

/-- Each bit of each register after `ClockOps` of a code below 3 (R150). -/
theorem WroteAll.clockOps_uartBit {s u : State} {t : Inst} {c : Byte} (hc : c.toNat < 3)
    (h : WroteAll s (clockOps t c) u) (j : Inst) (r : UReg) (b : Nat) :
    Safety.uartBit u j r b =
      if j = t ∧ r = .ctlw0 ∧ b = 6 then some (c.getLsbD 0)
      else if j = t ∧ r = .ctlw0 ∧ b = 7 then some (c.getLsbD 1) else Safety.uartBit s j r b := by
  by_cases hb : b < 16
  · rw [h.uartBit, clockOps_uartEffect _ _ _ _ hb]
    by_cases h6 : b = 6
    · simp [h6, hc]
    · by_cases h7 : b = 7
      · simp [h7, hc]
      · simp [h6, h7]
  · have hge := Nat.le_of_not_lt hb
    rw [uartBit_of_ge _ _ _ hge, uartBit_of_ge _ _ _ hge, if_neg (by omega), if_neg (by omega)]

/-- Settles O18: the list is one `FieldWrite` of SSEL, whose two bits are the code's. -/
theorem setClockReplacesTheClockField : Obligations.SetClockReplacesTheClockField := by
  intro s inst c hs he hc hok
  obtain ⟨t, u, haccept, hrun, hframe, hall⟩ := setter_runs hs he hok (i := .setClock inst c) rfl rfl
  have hlength : (clockOps (setterTarget s.params inst) c).length = 1 := by rw [clockOps_eq, if_pos hc]; rfl
  rw [hlength] at hrun
  have htrace := hall.clockOps_trace hc
  have hbits := hall.clockOps_uartBit hc
  exact ⟨t, u, haccept, hrun, hframe, htrace, hbits, hall.busy⟩

/-! ### The one-bit setters -/

/-- A command with a setter target whose list is one `BitWrite` (R151 to R158): it leaves that bit the value, and every other bit
as it was. -/
theorem bit_setter_runs {s : State} {i : Instr} {inst : Inst} {r : UReg} {b : Fin 16} {v : Bool} (hs : s.seq = .idle)
    (he : s.env = []) (hok : ConfigOk s (setterTarget s.params inst)) (hr : isConfigReg r = true)
    (hi : i.setterInst = some inst) (hq : entryOf s i = some (.exec [.bitWrite (setterTarget s.params inst) r b v] 0)) :
    ∃ t u, exec i s = .next t ∧ Sys2Proof.core.run 2 t = .next u ∧
      u = { s with uart := u.uart, trace := u.trace, cmd := [] } ∧
      u.trace = s.trace ++ [.bw (setterTarget s.params inst) r b v] ∧
      (∀ j q k, uartBit u j q k =
        if j = setterTarget s.params inst ∧ q = r ∧ k = b.val then some v else uartBit s j q k) ∧
      ∀ j, (u.u j).busy = (s.u j).busy := by
  obtain ⟨t, u, haccept, hrun, hframe, hall⟩ := setter_runs hs he hok hi hq
  obtain _ | ⟨hbit, _ | _⟩ := hall
  exact ⟨t, u, haccept, hrun, hframe, hbit.bitWrite_trace,
    fun j q k => (hbit.uartBit j q k).trans (uartEffect_bitWrite _ _ _ _ hr _ _ _ _), hbit.busy⟩

/-- Settles O19: the list of each of the seven is one `BitWrite` of its bit. -/
theorem oneBitSettersWriteTheirBit : Obligations.OneBitSettersWriteTheirBit := by
  intro s inst v hs he hok p hp
  simp only [List.mem_cons, List.not_mem_nil, or_false] at hp
  obtain rfl | rfl | rfl | rfl | rfl | rfl | rfl := hp <;> exact bit_setter_runs hs he hok rfl rfl rfl

/-! ### Parity -/

/-- `ParityOps` traces PEN, and PAR when it enables parity (R153). -/
theorem WroteAll.parityOps_trace {s u : State} {t : Inst} {p : Bool} (h : WroteAll s (parityOps t p) u) :
    u.trace = s.trace ++
      if p then [.bw t .ctlw0 15 true, .bw t .ctlw0 14 false] else [.bw t .ctlw0 15 false] := by
  cases p with
  | false =>
    obtain _ | ⟨hpen, _ | _⟩ := h
    exact hpen.bitWrite_trace
  | true =>
    obtain _ | ⟨hpen, _ | ⟨hpar, _ | _⟩⟩ := h
    rw [hpar.bitWrite_trace, hpen.bitWrite_trace, List.append_assoc]
    rfl

/-- Settles O20: both lists write PEN, and only the one that enables parity goes on to clear PAR. -/
theorem setParityHasTwoStepSemantics : Obligations.SetParityHasTwoStepSemantics := by
  intro s inst v hs he hok
  obtain ⟨t, u, haccept, hrun, hframe, hall⟩ := setter_runs hs he hok (i := .setParity inst v) rfl rfl
  have hlength : (parityOps (setterTarget s.params inst) v).length + 1 = if v then 3 else 2 := by cases v <;> rfl
  rw [hlength] at hrun
  exact ⟨t, u, haccept, hrun, hframe, hall.parityOps_trace,
    fun j r b => (hall.uartBit j r b).trans (parityOps_uartEffect _ _ _ _ _ _), hall.busy⟩

/-! ### Performing a setter twice -/

/-- A micro-operation gives a bit a value whatever it was, or leaves it (R46). -/
theorem exists_uartEffect_eq_or (op : MicroOp) (j : Inst) (r : UReg) (b : Nat) :
    ∃ y : Option Bool, ∀ x, uartEffect op j r b x = y.or x := by
  have hwrite : ∀ (c : Prop) [Decidable c] (v : Bool),
      ∃ y : Option Bool, ∀ x, (if c then some v else x) = y.or x := fun c _ v =>
    ⟨if c then some v else none, fun x => by rw [ite_some_or, Option.none_or]⟩
  cases op with
  | bitWrite i q k v => exact hwrite _ _
  | fieldWrite i q m v => exact hwrite _ _
  | regWrite i q v => exact hwrite _ _
  | _ => exact ⟨none, fun x => rfl⟩

/-- A list of micro-operations, too, gives a bit a value whatever it was, or leaves it. -/
theorem exists_foldl_uartEffect_eq_or (ops : List MicroOp) (j : Inst) (r : UReg) (b : Nat) :
    ∃ y : Option Bool, ∀ x, ops.foldl (fun x op => uartEffect op j r b x) x = y.or x := by
  induction ops with
  | nil => exact ⟨none, fun x => rfl⟩
  | cons op ops ih =>
    obtain ⟨first, hfirst⟩ := exists_uartEffect_eq_or op j r b
    obtain ⟨rest, hrest⟩ := ih
    exact ⟨rest.or first, fun x => by rw [List.foldl_cons, hrest, hfirst, Option.or_assoc]⟩

/-- A list performed twice leaves each bit as performed once. -/
theorem WroteAll.uartBit_twice {s t s' t' : State} {ops : List MicroOp} (h : WroteAll s ops t) (h' : WroteAll s' ops t')
    (j : Inst) (r : UReg) (b : Nat) (hs : Safety.uartBit s' j r b = Safety.uartBit t j r b) :
    Safety.uartBit t' j r b = Safety.uartBit t j r b := by
  obtain ⟨y, hy⟩ := exists_foldl_uartEffect_eq_or ops j r b
  rw [h'.uartBit, hs, h.uartBit, hy, hy, ← Option.or_assoc, Option.or_self]

theorem entryOf_congr {s u : State} (hp : u.params = s.params) (hd : u.desc = s.desc) (i : Instr) :
    entryOf u i = entryOf s i := by
  cases i <;> simp only [entryOf, hp, hd]

/-- A command with a setter target, performed twice (R159). -/
theorem setter_twice {s : State} {i : Instr} {inst : Inst} (hs : s.seq = .idle) (he : s.env = [])
    (hok : ConfigOk s (setterTarget s.params inst)) (hi : i.setterInst = some inst) :
    ∃ n t u t' u', exec i s = .next t ∧ Sys2Proof.core.run n t = .next u ∧ u.seq = .idle ∧
      exec i u = .next t' ∧ Sys2Proof.core.run n t' = .next u' ∧ u'.seq = .idle ∧
      ∀ j r b, uartBit u' j r b = uartBit u j r b := by
  obtain ⟨ops, hq, -⟩ := entryOf_setter (s := s) hi
  obtain ⟨t, u, haccept, hrun, hframe, hall⟩ := setter_runs hs he hok hi hq
  obtain ⟨hparams, hseq, -, -, -, -, -, henv⟩ := hall.frame
  have hdesc : u.desc = s.desc := by rw [hframe]
  have hconfig : ConfigOk u (setterTarget u.params inst) := by
    rw [hparams]
    exact hall.configOk hok (entryOf_setter_leavesReset hi hq)
  obtain ⟨t', u', haccept', hrun', -, hall'⟩ :=
    setter_runs (hseq.trans hs) (henv.trans he) hconfig hi ((entryOf_congr hparams hdesc i).trans hq)
  obtain ⟨-, hseq', -⟩ := hall'.frame
  exact ⟨_, t, u, t', u', haccept, hrun, hseq.trans hs, haccept', hrun', hseq'.trans (hseq.trans hs),
    fun j r b => hall.uartBit_twice hall' j r b rfl⟩

/-- Settles O23: each of the nine is a command with a setter target. -/
theorem settersAreIdempotent : Obligations.SettersAreIdempotent := by
  intro s inst c v hs he hok i hi
  refine setter_twice hs he hok ?_
  simp only [List.mem_cons, List.not_mem_nil, or_false] at hi
  obtain rfl | rfl | rfl | rfl | rfl | rfl | rfl | rfl | rfl := hi <;> rfl

/-! ### Odd parity -/

theorem clockOps_noOddParity (t : Inst) (c : Byte) : ∀ op ∈ clockOps t c, writesOddParity op = false := by
  rw [clockOps_eq]
  split
  · exact List.forall_mem_singleton.2 rfl
  · exact List.forall_mem_nil _

theorem parityOps_noOddParity (t : Inst) (p : Bool) : ∀ op ∈ parityOps t p, writesOddParity op = false := by
  cases p <;> simp [parityOps, writesOddParity]

theorem baudOps_noOddParity (t : Inst) (k : Byte) : ∀ op ∈ baudOps t k, writesOddParity op = false := by
  rw [baudOps_eq]
  split <;> simp [writesOddParity]

theorem pinOps_noOddParity (a : Addr) (m : Byte) : ∀ op ∈ pinOps a m, writesOddParity op = false := by
  simp [pinOps, writesOddParity]

/-- PAR is bit 14 of CTLW0 (R31). -/
theorem bitWrite_noOddParity (t : Inst) {r : UReg} {b : Fin 16} (v : Bool) (hb : ¬(r = .ctlw0 ∧ b = 14)) :
    ∀ op ∈ [MicroOp.bitWrite t r b v], writesOddParity op = false := by
  refine List.forall_mem_singleton.2 ?_
  rw [writesOddParity, ← Bool.decide_and, decide_eq_false hb, Bool.false_and]

theorem initOps_noOddParity (p : Params) (d : Descriptor) : ∀ op ∈ initOps p d, writesOddParity op = false := by
  have hbit : ∀ {t : Inst} {r : UReg} {b : Fin 16} {v : Bool}, ¬(r = .ctlw0 ∧ b = 14) →
      ∀ op ∈ [MicroOp.bitWrite t r b v], writesOddParity op = false := bitWrite_noOddParity _ _
  simp only [initOps, List.forall_mem_append]
  and_intros
  exacts [hbit (by decide), pinOps_noOddParity _ _, clockOps_noOddParity _ _, hbit (by decide), hbit (by decide),
    parityOps_noOddParity _ _, baudOps_noOddParity _ _, hbit (by decide), hbit (by decide), hbit (by decide),
    hbit (by decide), hbit (by decide), hbit (by decide)]

/-- No command enters a list that writes odd parity (R153). -/
theorem entryOf_noOddParity {s : State} {i : Instr} {ops : List MicroOp} {j : Nat}
    (h : entryOf s i = some (.exec ops j)) : ∀ op ∈ ops, writesOddParity op = false := by
  cases i with
  | construct d => cases h; exact List.forall_mem_singleton.2 rfl
  | constructDefault => cases h; exact List.forall_mem_singleton.2 rfl
  | initializeCmd =>
    obtain ⟨d, -, hd⟩ := Option.map_eq_some_iff.1 h
    cases hd
    exact initOps_noOddParity _ _
  | configurePins a m => cases h; exact pinOps_noOddParity _ _
  | applyBaud t k => cases h; exact baudOps_noOddParity _ _
  | setClock t c => cases h; exact clockOps_noOddParity _ _
  | setParity t p => cases h; exact parityOps_noOddParity _ _
  | clearFlags t => cases h; exact List.forall_mem_singleton.2 (by simp [writesOddParity])
  | sendByte t b => cases h
  | sendString t p => cases h
  | _ => cases h; exact bitWrite_noOddParity _ _ (by decide)

theorem noOddParityPending_of_not_exec {s : State} (h : ∀ ops j, s.seq ≠ .exec ops j) : NoOddParityPending s :=
  fun ops j hs => absurd hs (h ops j)

/-- Every move keeps the list in progress, leaves it, or enters one of a command. -/
theorem Move.noOddParityPending {s t : State} (h : Move s t) (hold : NoOddParityPending s) : NoOddParityPending t := by
  cases h with
  | ready i rest _ _ => exact hold
  | done i rest _ _ => exact hold
  | wait => exact hold
  | entered i ws rest q _ _ _ hq =>
    intro ops j hs
    obtain rfl : q = .exec ops j := hs
    exact entryOf_noOddParity hq
  | performed ops j op u hs _ _ =>
    intro ops' j' hs'
    obtain ⟨rfl, -⟩ : ops = ops' ∧ j + 1 = j' := by simpa using hs'
    exact hold ops j hs
  | hostUart i r mask v rest _ _ => exact hold
  | hostGpio a r mask v rest _ _ =>
    have hseq := State.putPort_seq { s with program := rest } a
    exact fun ops j hs => hold ops j ((hseq _).symm.trans hs)
  | hostMem a b rest _ _ => exact hold
  | checked i b k e _ _ _ => exact noOddParityPending_of_not_exec fun ops j => by cases e <;> simp
  | polled i b k f _ _ _ => exact noOddParityPending_of_not_exec fun ops j => by cases f <;> simp
  | wrote i b k _ _ q c hq =>
    refine noOddParityPending_of_not_exec fun ops j => ?_
    obtain ⟨-, rfl, -⟩ | ⟨p, -, rfl, -⟩ := hq <;> simp
  | _ => exact noOddParityPending_of_not_exec fun ops j => nofun

/-- A bit of CTLW0 is changed only by a host write of that register in IDLE, or by a micro-operation of the list in progress
(R31, R226). -/
theorem DataStep.ctlw0 {m : Option EnvMove} {s u : State} (h : DataStep m s u) (i : Inst) (b : Nat) :
    uartBit u i .ctlw0 b = uartBit s i .ctlw0 b ∨
      (s.seq = .idle ∧ ∃ mask v, s.program.head? = some (.hostUart i .ctlw0 mask v)) ∨
      ∃ ops j, s.seq = .exec ops j ∧
        ∃ op ∈ ops, uartBit u i .ctlw0 b = uartEffect op i .ctlw0 b (uartBit s i .ctlw0 b) := by
  cases h with
  | ready j _ => exact .inl (uartBit_txReady_ctlw0 s j i b)
  | done j _ _ => exact .inl (uartBit_txDone s j i .ctlw0 b)
  | hostUart j r mask v hs hp =>
    by_cases hw : i = j ∧ UReg.ctlw0 = r.toUReg
    · obtain ⟨rfl, hr⟩ := hw
      obtain rfl : r = .ctlw0 := by cases r <;> first | rfl | cases hr
      exact .inr (.inl ⟨hs, mask, v, hp⟩)
    · refine .inl ?_
      rw [Machine.hostUart, uartBit_writeU, if_neg fun hc => hw ⟨hc.1, hc.2.1⟩]
  | hostGpio a r mask v _ _ => exact .inl (uartBit_putPort _ _ _ _ _ _)
  | performed ops j op u hs hop hw => exact .inr (.inr ⟨ops, j, hs, op, List.mem_of_getElem? hop, hw.uartBit i .ctlw0 b⟩)
  | transmitted j c k _ => exact .inl (by rw [uartBit_transmit rfl]; simp)
  | _ => exact .inl rfl

/-- A micro-operation that does not write odd parity leaves PAR 1 only where it was (R31). -/
theorem uartEffect_par_eq_true {op : MicroOp} (h : writesOddParity op = false) {i : Inst} {x : Option Bool}
    (hx : uartEffect op i .ctlw0 14 x = some true) : x = some true := by
  cases op with
  | bitWrite j r k v =>
    obtain ⟨⟨-, rfl, -⟩, hv⟩ | ⟨-, hx⟩ := ite_eq_iff.1 hx
    · rw [Option.some.injEq, bitAt_getLsbD, Bool.and_eq_true, decide_eq_true_eq] at hv
      obtain ⟨hk, rfl⟩ := hv
      simp [writesOddParity, Fin.ext_iff, ← hk] at h
    · exact hx
  | fieldWrite j r mask v =>
    obtain ⟨⟨-, rfl, hmask⟩, hv⟩ | ⟨-, hx⟩ := ite_eq_iff.1 hx
    · rw [modelled_of_config rfl] at hmask
      rw [writesOddParity, hmask, Option.some.inj hv] at h
      cases h
    · exact hx
  | regWrite j r v =>
    obtain ⟨⟨-, rfl, -⟩, hv⟩ | ⟨-, hx⟩ := ite_eq_iff.1 hx
    · rw [writesOddParity, Option.some.inj hv] at h
      cases h
    · exact hx
  | _ => exact hx

/-- Settles O24: PAR rises by a host write or a micro-operation of the list, and no list holds one that writes 1 to it. -/
theorem oddParityIsUnreachable : Obligations.OddParityIsUnreachable := by
  intro s t hold h
  refine ⟨(step_move h).noOddParityPending hold, fun i hi => ?_⟩
  obtain ⟨u, hu, hsame⟩ := step_leavesData h
  have hpar : uartBit u i .ctlw0 14 = some true := by rwa [uartBit, hsame.u] at hi
  obtain hkept | hhost | ⟨ops, j, hs, op, hop, heffect⟩ := hu.ctlw0 i 14
  · exact .inl (hkept.symm.trans hpar)
  · exact .inr hhost
  · exact .inl (uartEffect_par_eq_true (hold ops j hs op hop) (heffect.symm.trans hpar))

end Sys2Proof.Machine

/-! `43_transmit_and_helpers.md`, ENABLE, DISABLE and CLEAR_FLAGS (R190, R191, R195, R196): lists of one write. -/

namespace Sys2Proof.Machine

open Sys2Proof.Safety

/-- A command whose list is one `BitWrite` of SWRST, on a UART that is not transmitting (R63, R70): it leaves the reset bit
the value, and every other bit as it was. -/
theorem resetBit_command_runs {s : State} {i : Instr} {inst : Inst} {v : Bool} (hs : s.seq = .idle) (he : s.env = [])
    (hok : SetterOk s inst) (hq : entryOf s i = some (.exec [.bitWrite inst .ctlw0 0 v] 0)) :
    ∃ t u, exec i s = .next t ∧ Sys2Proof.core.run 2 t = .next u ∧
      u = { s with uart := u.uart, trace := u.trace, cmd := [] } ∧ u.trace = s.trace ++ [.bw inst .ctlw0 0 v] ∧
      (∀ j r b, uartBit u j r b = if j = inst ∧ r = .ctlw0 ∧ b = 0 then some v else uartBit s j r b) ∧
      ∀ j, (u.u j).busy = (s.u j).busy := by
  have hwrote : Wrote s (.bitWrite inst .ctlw0 0 v) _ := .bitWrite _ _ _ _ (writeGuard_of_setterOk hok v)
  obtain ⟨haccept, hrun⟩ := command_runs hs he hq (.single hwrote)
  exact ⟨_, _, haccept, hrun, rfl, rfl, fun j r b => uartBit_bitWrite s inst j .ctlw0 r 0 v b rfl, hwrote.busy⟩

/-- Settles O21: the list of each of the two is one `BitWrite` of SWRST, which only BUSY and a missing UART guard. -/
theorem enableAndDisableWriteTheResetBit : Obligations.EnableAndDisableWriteTheResetBit := by
  intro s i hs he hok p hp
  simp only [List.mem_cons, List.not_mem_nil, or_false] at hp
  obtain rfl | rfl := hp <;> exact resetBit_command_runs hs he hok rfl

theorem clearFlagsMask_eq (p : Params) :
    clearFlagsMask p = if p.clearTarget = .modeField then 0x063E else 0x013E := by
  unfold clearFlagsMask
  cases p.clearTarget <;> rfl

/-- The bits of `CF_MASK` (R195, R196). -/
theorem clearFlagsMask_getLsbD (p : Params) (b : Nat) :
    (clearFlagsMask p).getLsbD b = true ↔ b ∈ [1, 2, 3, 4, 5] ∨ (p.clearTarget = .modeField ∧ b ∈ [9, 10]) ∨
      (p.clearTarget = .syncBit ∧ b = 8) := by
  by_cases hb : b < 16
  · rw [clearFlagsMask_eq]
    cases p.clearTarget <;> interval_cases b <;> decide
  · rw [BitVec.getLsbD_of_ge _ _ (Nat.le_of_not_lt hb)]
    simp only [Bool.false_eq_true, List.mem_cons, List.not_mem_nil, or_false, false_iff]
    omega

/-- Settles O22: the list is one `FieldWrite` of zeros under `CF_MASK`. -/
theorem clearFlagsZeroesItsBits : Obligations.ClearFlagsZeroesItsBits := by
  intro s inst hs he hok
  obtain ⟨t, u, haccept, hrun, hframe, hall⟩ := setter_runs hs he hok (i := .clearFlags inst) rfl rfl
  obtain _ | ⟨hfield, _ | _⟩ := hall
  refine ⟨t, u, haccept, hrun, hframe, ?_, fun j r b => ?_, hfield.busy⟩
  · rw [← clearFlagsMask_eq]
    exact hfield.fieldWrite_trace
  · rw [hfield.uartBit, uartEffect_fieldWrite _ _ _ _ rfl]
    simp only [clearFlagsMask_getLsbD, BitVec.ofNat_eq_ofNat, BitVec.getLsbD_zero]
    rfl

end Sys2Proof.Machine

/-! `43_transmit_and_helpers.md`, the transmission states (R180 to R185): one rule for each of the block's steps where
its guards pass, SEND_BYTE and polling. -/

namespace Sys2Proof.Machine

open Sys2Proof.Safety

/-! ### The block's steps of a transmission -/

theorem run_of_step {s t u : State} {n : Nat} (h : step s = .next t) (hr : Sys2Proof.core.run n t = .next u) :
    Sys2Proof.core.run (n + 1) s = .next u := (run_succ n h).trans hr

/-- The state after the transmit-buffer write of a byte (R67), before the sequencer moves on. -/
def State.afterTxWrite (s : State) (i : Inst) (b : Byte) : State :=
  { s with
    uart := s.uart.put i ((s.u i).transmit b)
    txlog := s.txlog ++ [⟨i, b, (s.u i).txifg, (s.u i).swrst⟩]
    trace := s.trace ++ [.tx i b] }

theorem sbCheckStep_of_txie {s : State} {i : Inst} {b : Byte} {k : Cont} {e : Bool} (hi : s.hasInst i = true)
    (he : (s.u i).txie = some e) :
    sbCheckStep i b k s =
      .next { s.log (.tb i .ie 1 e) with seq := if e then .sbWrite i b k else .sbPoll i b k } := by
  have hread : testBitOp i .ie 1 s = .ok (e, s.log (.tb i .ie 1 e)) := testBitOp_ok.2 ⟨hi, he, rfl⟩
  rw [sbCheckStep, hread]

theorem sbPollStep_of_txifg {s : State} {i : Inst} {b : Byte} {k : Cont} {f : Bool} (hi : s.hasInst i = true)
    (hf : (s.u i).txifg = some f) :
    sbPollStep i b k s =
      .next { s.log (.tb i .ifg 1 f) with seq := if f then .sbWrite i b k else .sbPoll i b k } := by
  have hread : testBitOp i .ifg 1 s = .ok (f, s.log (.tb i .ifg 1 f)) := testBitOp_ok.2 ⟨hi, hf, rfl⟩
  rw [sbPollStep, hread]

theorem sbWriteStep_done {s : State} {i : Inst} {b : Byte} (hi : s.hasInst i = true) :
    sbWriteStep i b .done s = .next (s.afterTxWrite i b).toIdle := by
  have hwrite : txWriteOp i b s = .ok (s.afterTxWrite i b) := txWriteOp_ok.2 ⟨hi, rfl⟩
  rw [sbWriteStep, hwrite]

theorem sbWriteStep_next {s : State} {i : Inst} {b : Byte} {p : Addr} (hi : s.hasInst i = true) :
    sbWriteStep i b (.next p) s = .next { s.afterTxWrite i b with seq := .ssFetch i p } := by
  have hwrite : txWriteOp i b s = .ok (s.afterTxWrite i b) := txWriteOp_ok.2 ⟨hi, rfl⟩
  rw [sbWriteStep, hwrite]

theorem ssFetchStep_terminator {s : State} {i : Inst} {p : Addr} (ha : memAdmit s.params p = true)
    (hc : s.readByte p = 0) : ssFetchStep i p s = .next (s.log (.mr p 0)).toIdle := by
  simp only [ssFetchStep, ha, hc, if_true]

theorem ssFetchStep_character {s : State} {i : Inst} {p : Addr} {c : Byte} (ha : memAdmit s.params p = true)
    (hc : s.readByte p = c) (hz : c ≠ 0) :
    ssFetchStep i p s = .next { s.log (.mr p c) with seq := .sbCheck i c (.next (p + 1)) } := by
  simp only [ssFetchStep, ha, hc, hz, if_true, if_false]

/-! ### SEND_BYTE -/

theorem busy_of_transmit {s t : State} {i : Inst} {b : Byte} (ht : t.uart = s.uart.put i ((s.u i).transmit b)) (j : Inst) :
    (t.u j).busy = if j = i then true else (s.u j).busy := by
  rw [State.u, ht]
  split
  · rename_i hj
    rw [hj, UartBank.get_put_same]
    rfl
  · rename_i hj
    rw [UartBank.get_put_ne _ _ hj, State.u]

/-- Settles O30: SB_CHECK goes straight to SB_WRITE, which no flag guards. -/
theorem sendByteWritesAtOnceInInterruptMode : Obligations.SendByteWritesAtOnceInInterruptMode := by
  intro s i b hs he hi htxie
  refine ⟨_, _, State.accept_idle _ _ hs, rfl, run_of_step (.trans (step_sbCheck he rfl) (sbCheckStep_of_txie hi htxie))
    (run_of_step (.trans (step_sbWrite he rfl) (sbWriteStep_done hi)) (run_zero _)), ?_⟩
  exact ⟨by rw [hs]; rfl, rfl, List.append_assoc _ _ _, uartBit_transmit rfl, busy_of_transmit rfl⟩

/-- Settles O31: SB_CHECK goes to SB_POLL, whose one read finds TXIFG 1. -/
theorem sendBytePollsThenWrites : Obligations.SendBytePollsThenWrites := by
  intro s i b hs he hi htxie htxifg
  have hset : (s.u i).txifg ≠ some false := by simp [htxifg]
  refine ⟨_, _, State.accept_idle _ _ hs, run_of_step (.trans (step_sbCheck he rfl) (sbCheckStep_of_txie hi htxie))
    (run_of_step (.trans (step_sbPoll he rfl (.inr hset)) (sbPollStep_of_txifg hi htxifg))
      (run_of_step (.trans (step_sbWrite he rfl) (sbWriteStep_done hi)) (run_zero _))), ?_⟩
  refine ⟨by rw [hs]; rfl, ?_, ?_, uartBit_transmit rfl, busy_of_transmit rfl⟩
  · rw [← htxifg]
    rfl
  · simp [State.afterTxWrite]

/-! ### Polling -/

/-- A poll that reads 0 leaves all but the trace (R182). -/
theorem step_poll_clear {s : State} {i : Inst} {b : Byte} {k : Cont} (hs : s.seq = .sbPoll i b k) (he : s.env = [])
    (hi : s.hasInst i = true) (htxifg : (s.u i).txifg = some false) (hfair : s.params.txifgFair = false) :
    step s = .next (s.log (.tb i .ifg 1 false)) := by
  rw [step_sbPoll he hs (.inl hfair), sbPollStep_of_txifg hi htxifg]
  simp [State.log, hs]

/-- Settles O32: each step is a poll that reads 0 and comes back to SB_POLL. -/
theorem pollingAClearFlagHangs : Obligations.PollingAClearFlagHangs := by
  intro (s : State) i b k n hs he hi htxifg hfair
  induction n generalizing s with
  | zero => rw [List.replicate_zero, List.append_nil]; exact run_zero s
  | succ n ih =>
    have hrest := ih (s.log (.tb i .ifg 1 false)) hs he hi htxifg hfair
    rw [State.log_trace, List.append_assoc, List.singleton_append, ← List.replicate_succ] at hrest
    exact run_of_step (step_poll_clear hs he hi htxifg hfair) hrest

end Sys2Proof.Machine

/-! `43_transmit_and_helpers.md`, SEND_STRING in interrupt mode (R185, R186): the run by induction on the characters, and of the
register writes the last one. -/

namespace Sys2Proof.Machine

open Sys2Proof.Safety

/-- The data memory holds the characters `l` from `p` on, and after them the terminator (R185). -/
def StringAt (s : State) (p : Addr) (l : List Byte) : Prop := HoldsString s p (l ++ [0]) ∧ ∀ c ∈ l, c ≠ 0

theorem stringAt_nil {s : State} {p : Addr} :
    StringAt s p [] ↔ memAdmit s.params p = true ∧ s.readByte p = 0 := by
  simp [StringAt, HoldsString]

theorem stringAt_cons {s : State} {p : Addr} {c : Byte} {l : List Byte} :
    StringAt s p (c :: l) ↔ memAdmit s.params p = true ∧ s.readByte p = c ∧ c ≠ 0 ∧ StringAt s (p + 1) l := by
  simp only [StringAt, List.cons_append, HoldsString, List.forall_mem_cons]
  tauto

theorem StringAt.congr {s t : State} {p : Addr} {l : List Byte} (h : StringAt s p l) (hp : t.params = s.params)
    (hm : t.mem = s.mem) : StringAt t p l := ⟨holdsString_congr hp hm h.1, h.2⟩

theorem Reg.write_write_same {w : Nat} (r : Reg w) (mask v v' : BitVec w) :
    (r.write mask v).write mask v' = r.write mask v' := by
  simp only [Reg.write, Reg.mk.injEq]
  constructor
  · ext b
    simp only [BitVec.getElem_or, BitVec.getElem_and, BitVec.getElem_not]
    cases mask[b] <;> simp
  · rw [BitVec.or_assoc, BitVec.or_self]

/-- Of two transmit-buffer writes the later one stands (R67). -/
theorem UartRegs.transmit_transmit (u : UartRegs) (b c : Byte) : (u.transmit b).transmit c = u.transmit c := by
  simp [UartRegs.transmit, UartRegs.write, UartRegs.put, UartRegs.get, Reg.write_write_same]

/-- The register files after the transmit-buffer writes of a string: those of its last character (R67). -/
def UartBank.afterString (k : UartBank) (i : Inst) (l : List Byte) : UartBank :=
  match l.getLast? with
  | none => k
  | some c => k.put i ((k.get i).transmit c)

theorem UartBank.afterString_cons (k : UartBank) (i : Inst) (c : Byte) (l : List Byte) :
    k.afterString i (c :: l) = (k.put i ((k.get i).transmit c)).afterString i l := by
  rw [UartBank.afterString, UartBank.afterString, List.getLast?_cons]
  cases l.getLast? with
  | none => rfl
  | some d => simp [UartRegs.transmit_transmit]

/-- The state a SEND_STRING of `l` from `p` leaves in interrupt mode (R185, R186), with no event meanwhile. -/
def State.afterString (s : State) (i : Inst) (p : Addr) (l : List Byte) : State :=
  { s with
    seq := .idle
    cmd := []
    uart := s.uart.afterString i l
    txlog := s.txlog ++ stringLog i (s.u i).txifg (s.u i).swrst l
    trace := s.trace ++ stringTrace i p l }

theorem State.afterString_nil (s : State) (i : Inst) (p : Addr) : s.afterString i p [] = (s.log (.mr p 0)).toIdle := by
  simp [State.afterString, stringLog, stringTrace, UartBank.afterString, State.toIdle, State.log]

/-- The three steps of a character: its read, the read of TXIE and its write. -/
def State.afterCharacter (s : State) (i : Inst) (p : Addr) (c : Byte) : State :=
  { ((s.log (.mr p c)).log (.tb i .ie 1 true)).afterTxWrite i c with seq := .ssFetch i (p + 1) }

theorem State.u_afterCharacter (s : State) (i : Inst) (p : Addr) (c : Byte) :
    (s.afterCharacter i p c).u i = (s.u i).transmit c := UartBank.get_put_same _ _ _

theorem State.afterString_cons (s : State) (i : Inst) (p : Addr) (c : Byte) (l : List Byte) :
    s.afterString i p (c :: l) = (s.afterCharacter i p c).afterString i (p + 1) l := by
  obtain ⟨htxifg, -, -, hswrst⟩ := (s.u i).transmit_spec c
  simp only [State.afterString, State.u_afterCharacter, htxifg, hswrst, UartBank.afterString_cons, stringLog, stringTrace]
  simp [State.afterCharacter, State.afterTxWrite, State.log, State.u]

/-- A string in interrupt mode (R185, R180): three steps for each character, and one for the terminator. -/
theorem run_string {i : Inst} (l : List Byte) : ∀ {s : State} {p : Addr}, s.env = [] → s.seq = .ssFetch i p →
    s.hasInst i = true → (s.u i).txie = some true → StringAt s p l →
    Sys2Proof.core.run (3 * l.length + 1) s = .next (s.afterString i p l) := by
  induction l with
  | nil =>
    intro s p he hs hi htxie hstring
    obtain ⟨ha, hz⟩ := stringAt_nil.1 hstring
    rw [State.afterString_nil]
    exact run_of_step (.trans (step_ssFetch he hs) (ssFetchStep_terminator ha hz)) (run_zero _)
  | cons c l ih =>
    intro s p he hs hi htxie hstring
    obtain ⟨ha, hc, hz, hrest⟩ := stringAt_cons.1 hstring
    have htxie' : ((s.afterCharacter i p c).u i).txie = some true := by
      rw [State.u_afterCharacter]
      exact htxie
    rw [State.afterString_cons]
    refine run_of_step (.trans (step_ssFetch he hs) (ssFetchStep_character ha hc hz))
      (run_of_step (.trans (step_sbCheck he rfl) (sbCheckStep_of_txie hi htxie))
        (run_of_step (.trans (step_sbWrite he rfl) (sbWriteStep_next hi)) ?_))
    exact ih he rfl hi htxie' (hrest.congr rfl rfl)

theorem map_stringLog (i : Inst) (l : List Byte) : ∀ f w : Option Bool,
    (stringLog i f w l).map (fun e => (e.inst, e.byte)) = l.map fun c => (i, c) := by
  induction l with
  | nil => exact fun f w => rfl
  | cons c l ih => exact fun f w => congrArg ((i, c) :: ·) (ih _ _)

/-- Settles O34: the run by induction on the characters; of the register writes the last character's stands. -/
theorem sendStringCompletesInInterruptMode : Obligations.SendStringCompletesInInterruptMode := by
  intro s i p bytes hs he hi htxie hholds hnonzero
  have hstring : StringAt s p bytes := ⟨hholds, hnonzero⟩
  refine ⟨_, _, State.accept_idle _ _ hs, rfl, run_string bytes he rfl hi htxie (hstring.congr rfl rfl), ?_⟩
  refine ⟨by rw [hs]; rfl, ?_, rfl, rfl, ?_⟩
  · exact List.map_append.trans (congrArg (sent s ++ ·) (map_stringLog i bytes _ _))
  · cases hlast : bytes.getLast? with
    | none =>
      obtain rfl := List.getLast?_eq_none_iff.1 hlast
      exact ⟨fun _ _ _ => rfl, fun j => (if_neg fun h => h.2 rfl).symm, fun _ _ => rfl⟩
    | some c =>
      have huart : s.uart.afterString i bytes = s.uart.put i ((s.u i).transmit c) := by
        rw [UartBank.afterString, hlast, State.u]
      have hne : bytes ≠ [] := by
        rintro rfl
        cases hlast
      refine ⟨uartBit_transmit huart, fun j => ?_, fun j hj => ?_⟩
      · rw [busy_of_transmit huart]
        simp [hne]
      · exact (congrArg (·.get j) huart).trans (UartBank.get_put_ne _ _ hj)

end Sys2Proof.Machine

/-! `43_transmit_and_helpers.md`, no overrun under polling (R183): what enters SB_WRITE, and what the transmit log records. -/

namespace Sys2Proof.Machine

open Sys2Proof.Safety

theorem pollOk_iff {s : State} : PollOk s ↔
    ∀ i b k, s.seq = .sbWrite i b k → (s.u i).txie = some false → (s.u i).txifg = some true := by
  unfold PollOk
  split <;> simp_all

theorem pollOk_of_not_write {s : State} (h : ∀ i b k, s.seq ≠ .sbWrite i b k) : PollOk s :=
  pollOk_iff.2 fun i b k hs => absurd hs (h i b k)

/-- TxReady leaves TXIE, and TXIFG 1 or as it was (R224). -/
theorem flags_txReady (s : State) (i j : Inst) :
    ((txReady i s).u j).txie = (s.u j).txie ∧
      ((txReady i s).u j).txifg = if j = i then some true else (s.u j).txifg := by
  simp [txie_eq_uartBit, txifg_eq_uartBit, txReady, uartBit_writeU, UReg.modelled]

/-- TxDone leaves both flags (R224). -/
theorem flags_txDone (s : State) (i j : Inst) :
    ((txDone i s).u j).txie = (s.u j).txie ∧ ((txDone i s).u j).txifg = (s.u j).txifg := by
  simp only [txie_eq_uartBit, txifg_eq_uartBit, uartBit_txDone, and_self]

/-- No command is accepted into SB_WRITE (R92). -/
theorem entryOf_ne_sbWrite {s : State} {c : Instr} {i : Inst} {b : Byte} {k : Cont} :
    entryOf s c ≠ some (.sbWrite i b k) := by
  cases c <;> simp [entryOf]

/-- SB_WRITE is entered by a read of TXIE 1 or of TXIFG 1 only, and no event clears TXIFG (R181, R182, R224). -/
theorem Move.pollOk {s t : State} (h : Move s t) (hok : PollOk s) : PollOk t := by
  cases h with
  | ready i rest _ _ =>
    refine pollOk_iff.2 fun j b k hs htxie => ?_
    obtain ⟨hie, hifg⟩ := flags_txReady { s with program := rest } i j
    rw [hifg]
    split
    · rfl
    · exact pollOk_iff.1 hok j b k hs (hie.symm.trans htxie)
  | done i rest _ _ =>
    refine pollOk_iff.2 fun j b k hs htxie => ?_
    obtain ⟨hie, hifg⟩ := flags_txDone { s with program := rest } i j
    exact hifg.trans (pollOk_iff.1 hok j b k hs (hie.symm.trans htxie))
  | wait => exact hok
  | entered c ws rest q _ _ _ hq =>
    refine pollOk_of_not_write fun i b k hs => entryOf_ne_sbWrite (hq.trans (congrArg some hs))
  | checked i b k e _ _ he =>
    refine pollOk_iff.2 fun j b' k' hs htxie => ?_
    cases e with
    | false => cases hs
    | true =>
      cases hs
      cases he.symm.trans htxie
  | polled i b k f _ _ hf =>
    refine pollOk_iff.2 fun j b' k' hs _ => ?_
    cases f with
    | false => cases hs
    | true =>
      cases hs
      exact hf
  | wrote i b k _ _ q _ hq =>
    obtain ⟨-, rfl, -⟩ | ⟨p, -, rfl, -⟩ := hq <;> exact pollOk_of_not_write fun _ _ _ => by simp
  | hostUart i r mask v rest hs _ => exact pollOk_of_not_write fun _ _ _ => by simp [Machine.hostUart, hs]
  | hostGpio a r mask v rest hs _ => exact pollOk_of_not_write fun _ _ _ => by simp [Machine.hostGpio, hs]
  | hostMem a b rest hs _ => exact pollOk_of_not_write fun _ _ _ => by simp [hs]
  | _ => exact pollOk_of_not_write fun _ _ _ => by simp [State.rejectCommand]

/-- The transmit log grows only by the write of SB_WRITE, which records the flags it finds, and only block reset clears it
(R45, R67, R240). -/
theorem Move.txlog {s t : State} (h : Move s t) :
    t.txlog = s.txlog ∨ t.txlog = [] ∨
      ∃ i b k, s.seq = .sbWrite i b k ∧ t.txlog = s.txlog ++ [⟨i, b, (s.u i).txifg, (s.u i).swrst⟩] := by
  cases h with
  | reset => exact .inr (.inl rfl)
  | wrote i b k hs _ _ _ _ => exact .inr (.inr ⟨i, b, k, hs, rfl⟩)
  | hostGpio a r mask v rest _ _ => exact .inl (State.putPort_txlog _ _ _)
  | performed ops j op u _ _ hw =>
    obtain ⟨-, -, -, -, -, htxlog, -⟩ := hw.frame
    exact .inl htxlog
  | _ => exact .inl rfl

/-- Settles O36: the entry that a step appends records TXIFG as SB_WRITE finds it, which the invariant says is 1. -/
theorem pollingNeverOverruns : Obligations.PollingNeverOverruns := by
  intro s t hok h
  have hmove := step_move h
  refine ⟨hmove.pollOk hok, fun e hlog htxie => ?_⟩
  obtain hsame | hcleared | ⟨i, b, k, hs, hentry⟩ := hmove.txlog
  · simp [hlog] at hsame
  · simp [hlog] at hcleared
  · obtain rfl : e = _ := by simpa [hlog] using hentry
    exact pollOk_iff.1 hok i b k hs htxie

end Sys2Proof.Machine

/-! `43_transmit_and_helpers.md`, SEND_STRING under any schedule without block reset (R186, R225): every step carries the
string on or faults, and under fairness a budget of steps falls. -/

namespace Sys2Proof.Machine

open Sys2Proof.Safety

/-! ### The agents of a step but block reset -/

/-- An event of the environment (R224), or one that is not enabled and does not occur. -/
inductive Event (s : State) : State → Prop where
  | ready (i : Inst) : Event s (txReady i s)
  | done (i : Inst) : Event s (txDone i s)
  | dropped : Event s s

/-- The block polls a clear TXIFG of UART `i` (R182, R225). -/
def PollsClear (s : State) (i : Inst) : Prop := (∃ b k, s.seq = .sbPoll i b k) ∧ (s.u i).txifg = some false

theorem fairTxReady_eq_some_iff {s : State} {i : Inst} :
    fairTxReady s = some i ↔ s.params.txifgFair = true ∧ s.hasInst i = true ∧ PollsClear s i := by
  unfold fairTxReady PollsClear
  split
  · rename_i j b k hs
    constructor
    · intro h
      obtain ⟨hc, hj⟩ := Option.ite_none_right_eq_some.1 h
      obtain rfl := Option.some.inj hj
      simp only [Bool.and_eq_true, decide_eq_true_eq] at hc
      exact ⟨hc.1.1, hc.1.2, ⟨b, k, hs⟩, hc.2⟩
    · rintro ⟨hfair, hi, ⟨b', k', hs'⟩, htxifg⟩
      obtain ⟨rfl, -, -⟩ : j = i ∧ b = b' ∧ k = k' := by simpa [hs] using hs'
      simp [hfair, hi, htxifg]
  all_goals simp_all

/-- Without block reset a step is an event or the block's; with an empty schedule it is the block's unless fairness gives a poll
of a clear flag its TxReady (R76, R225). -/
theorem step_block_or_event {s : State} (hreset : EnvMove.blockReset ∉ s.env) :
    (step s = blockStep { s with env := s.env.tail } ∧
      (s.env = [] → s.params.txifgFair = true → ∀ i, s.hasInst i = true → ¬ PollsClear s i)) ∨
    ∃ t, Event { s with env := s.env.tail } t ∧ step s = .next t ∧
      (s.env = [] → ∃ i, PollsClear s i ∧ t = txReady i { s with env := s.env.tail }) := by
  cases he : s.env with
  | nil =>
    have hs : s = { s with env := [].tail } := by rw [List.tail_nil, ← he]
    cases hf : fairTxReady s with
    | none =>
      refine .inl ⟨?_, fun _ hfair i hi hpoll => ?_⟩
      · rw [← hs, step, turn, he]
        simp only [hf]
      · cases hf.symm.trans (fairTxReady_eq_some_iff.2 ⟨hfair, hi, hpoll⟩)
    | some i =>
      obtain ⟨-, -, hpoll⟩ := fairTxReady_eq_some_iff.1 hf
      refine .inr ⟨_, .ready i, ?_, fun _ => ⟨i, hpoll, rfl⟩⟩
      rw [← hs, step, turn, he]
      simp only [hf]
  | cons m es =>
    have hturn : step s = turn s := rfl
    cases m with
    | run => exact .inl ⟨step_run he, nofun⟩
    | blockReset => simp [he] at hreset
    | txReady i =>
      refine .inr ?_
      rw [hturn, turn, he]
      simp only
      split
      · exact ⟨_, .ready i, rfl, nofun⟩
      · exact ⟨_, .dropped, rfl, nofun⟩
    | txDone i =>
      refine .inr ?_
      rw [hturn, turn, he]
      simp only
      split
      · exact ⟨_, .done i, rfl, nofun⟩
      · exact ⟨_, .dropped, rfl, nofun⟩

theorem Event.seq {s t : State} (h : Event s t) : t.seq = s.seq := by cases h <;> rfl

theorem Move.env {s t : State} (h : Move s t) : t.env = s.env := by
  cases h with
  | hostGpio a r mask v rest _ _ => exact State.putPort_env _ _ _
  | performed ops j op u _ _ hw =>
    obtain ⟨-, -, -, -, -, -, -, henv⟩ := hw.frame
    exact henv
  | _ => rfl

/-- Every step takes one entry of the schedule. -/
theorem step_env {s t : State} (h : step s = .next t) : t.env = s.env.tail := (step_move h).env

theorem step_keeps_noReset {s t : State} (h : step s = .next t) (hreset : EnvMove.blockReset ∉ s.env) :
    EnvMove.blockReset ∉ t.env := fun hmem => hreset (List.mem_of_mem_tail (step_env h ▸ hmem))

/-- Without block reset a run does not leave FAULTED (R211). -/
theorem run_faulted {s u : State} {n : Nat} (hs : s.seq = .faulted) (hreset : EnvMove.blockReset ∉ s.env)
    (h : Sys2Proof.core.run n s = .next u) : u.seq = .faulted := by
  refine (run_keeps (P := fun s => s.seq = .faulted ∧ EnvMove.blockReset ∉ s.env) ?_ ⟨hs, hreset⟩ h).1
  rintro s t ⟨hs, hreset⟩ hstep
  refine ⟨?_, step_keeps_noReset hstep hreset⟩
  obtain ⟨hblock, -⟩ | ⟨t', hevent, hnext, -⟩ := step_block_or_event hreset
  · rw [hblock, blockStep, hs] at hstep
    cases hstep
  · obtain rfl := Host.Outcome.next.inj (hstep.symm.trans hnext)
    exact hevent.seq.trans hs

/-! ### A string in progress -/

/-- In sequencer state `q` a SEND_STRING on UART `i` has the characters `l` still to write (R24, R185); in IDLE none. -/
inductive ToSend (s : State) (i : Inst) : Seq → List Byte → Prop where
  | idle : ToSend s i .idle []
  | fetch {p : Addr} {l : List Byte} (h : StringAt s p l) : ToSend s i (.ssFetch i p) l
  | check {c : Byte} {p : Addr} {l : List Byte} (h : StringAt s p l) : ToSend s i (.sbCheck i c (.next p)) (c :: l)
  | poll {c : Byte} {p : Addr} {l : List Byte} (h : StringAt s p l) : ToSend s i (.sbPoll i c (.next p)) (c :: l)
  | write {c : Byte} {p : Addr} {l : List Byte} (h : StringAt s p l) : ToSend s i (.sbWrite i c (.next p)) (c :: l)

theorem ToSend.congr {s t : State} {i : Inst} {q : Seq} {l : List Byte} (h : ToSend s i q l) (hp : t.params = s.params)
    (hm : t.mem = s.mem) : ToSend t i q l := by
  cases h with
  | idle => exact .idle
  | fetch h => exact .fetch (h.congr hp hm)
  | check h => exact .check (h.congr hp hm)
  | poll h => exact .poll (h.congr hp hm)
  | write h => exact .write (h.congr hp hm)

/-- From `s` with `l` to send to `t` with `l'` to send: no character is lost, doubled or reordered, and nothing changes but what
a transmission changes (R186). -/
structure Carries (i : Inst) (s : State) (l : List Byte) (t : State) (l' : List Byte) : Prop where
  toSend : ToSend t i t.seq l'
  sent : sent t ++ l'.map (fun c => (i, c)) = sent s ++ l.map (fun c => (i, c))
  frame : t = { s with
    seq := t.seq, cmd := t.cmd, uart := t.uart, txlog := t.txlog, trace := t.trace, env := t.env }

theorem Carries.trans {i : Inst} {s t u : State} {l l' l'' : List Byte} (h : Carries i s l t l')
    (h' : Carries i t l' u l'') : Carries i s l u l'' :=
  ⟨h'.toSend, h'.sent.trans h.sent, by rw [h'.frame, h.frame]⟩

/-- What SB_CHECK, SB_POLL and SB_WRITE ask of UART `i` passes: it exists, and both flags hold a value (R215, R232). -/
structure FlagsReadable (s : State) (i : Inst) : Prop where
  hasInst : s.hasInst i = true
  txie : (s.u i).txie ≠ none
  txifg : (s.u i).txifg ≠ none

/-- How many steps of an empty schedule the characters `l` still take at most (R185, R225): of each the read of its byte, the
read of TXIE, TxReady and a poll where TXIFG is clear, and the write; and the read of the terminator. -/
def stepsLeft (s : State) (i : Inst) (l : List Byte) : Nat :=
  match s.seq with
  | .idle => 0
  | .ssFetch _ _ => 5 * l.length + 1
  | .sbCheck _ _ _ => 5 * l.tail.length + 5
  | .sbPoll _ _ _ => 5 * l.tail.length + if (s.u i).txifg = some true then 3 else 4
  | .sbWrite _ _ _ => 5 * l.tail.length + 2
  | .exec _ _ => 0
  | .faulted => 0

theorem stepsLeft_sbCheck {s : State} {i j : Inst} {b : Byte} {k : Cont} {l : List Byte} (hs : s.seq = .sbCheck j b k) :
    stepsLeft s i l = 5 * l.tail.length + 5 := by
  rw [stepsLeft, hs]

theorem stepsLeft_sbWrite {s : State} {i j : Inst} {b : Byte} {k : Cont} {l : List Byte} (hs : s.seq = .sbWrite j b k) :
    stepsLeft s i l = 5 * l.tail.length + 2 := by
  rw [stepsLeft, hs]

theorem stepsLeft_sbPoll {s : State} {i j : Inst} {b : Byte} {k : Cont} {l : List Byte} (hs : s.seq = .sbPoll j b k) :
    stepsLeft s i l = 5 * l.tail.length + if (s.u i).txifg = some true then 3 else 4 := by
  rw [stepsLeft, hs]

theorem stepsLeft_sbPoll_le {s : State} {i j : Inst} {b : Byte} {k : Cont} {l : List Byte} (hs : s.seq = .sbPoll j b k) :
    stepsLeft s i l ≤ 5 * l.tail.length + 4 := by
  rw [stepsLeft_sbPoll hs]
  split <;> omega

/-- An event carries the string on: it changes no more than TXIFG and BUSY. -/
theorem Event.carries {s t : State} {i : Inst} {l : List Byte} (h : Event s t) (hsend : ToSend s i s.seq l) :
    Carries i s l t l := by
  cases h with
  | ready j => exact ⟨hsend.congr rfl rfl, rfl, rfl⟩
  | done j => exact ⟨hsend.congr rfl rfl, rfl, rfl⟩
  | dropped => exact ⟨hsend, rfl, rfl⟩

theorem Event.flags {s t : State} (h : Event s t) (i : Inst) :
    (t.u i).txie = (s.u i).txie ∧ ((t.u i).txifg = (s.u i).txifg ∨ (t.u i).txifg = some true) := by
  cases h with
  | ready j =>
    obtain ⟨hie, hifg⟩ := flags_txReady s j i
    refine ⟨hie, ?_⟩
    rw [hifg]
    split
    · exact .inr rfl
    · exact .inl rfl
  | done j =>
    obtain ⟨hie, hifg⟩ := flags_txDone s j i
    exact ⟨hie, .inl hifg⟩
  | dropped => exact ⟨rfl, .inl rfl⟩

theorem Event.params {s t : State} (h : Event s t) : t.params = s.params := by cases h <;> rfl

theorem Event.flagsReadable {s t : State} {i : Inst} (h : Event s t) (hr : FlagsReadable s i) : FlagsReadable t i := by
  obtain ⟨hi, htxie, htxifg⟩ := hr
  obtain ⟨hie, hifg⟩ := h.flags i
  refine ⟨by rwa [State.hasInst, h.params], hie ▸ htxie, ?_⟩
  obtain hkept | hset := hifg
  · exact hkept ▸ htxifg
  · simp [hset]

/-- No event takes the string back. -/
theorem Event.stepsLeft_le {s t : State} {i : Inst} (h : Event s t) (l : List Byte) :
    stepsLeft t i l ≤ stepsLeft s i l := by
  obtain ⟨-, hifg⟩ := h.flags i
  rw [stepsLeft, stepsLeft, h.seq]
  cases s.seq with
  | sbPoll j b k =>
    obtain hkept | hset := hifg
    · rw [hkept]
    · simp only [hset, if_true]
      split <;> omega
  | _ => exact Nat.le_refl _

theorem FlagsReadable.congr {s t : State} {i : Inst} (h : FlagsReadable s i) (hp : t.params = s.params)
    (hu : t.uart = s.uart) : FlagsReadable t i := by
  obtain ⟨hi, htxie, htxifg⟩ := h
  constructor
  · rwa [State.hasInst, hp]
  · rwa [State.u, hu]
  · rwa [State.u, hu]

/-- A step in which the flags stay readable and fewer steps are left than before, unless it polls a clear TXIFG. -/
def Progress (i : Inst) (s : State) (l : List Byte) (t : State) (l' : List Byte) : Prop :=
  FlagsReadable s i → FlagsReadable t i ∧
    (stepsLeft t i l' < stepsLeft s i l ∨ (PollsClear s i ∧ stepsLeft t i l' = stepsLeft s i l))

/-- What the block's step of a string answers: the string is carried on, or a guard of the flags raises a fault. -/
def StringStep (i : Inst) (s : State) (l : List Byte) (answer : Out) : Prop :=
  (∃ p r, answer = .next (s.raise p r) ∧ ¬ FlagsReadable s i) ∨
    ∃ t l', answer = .next t ∧ Carries i s l t l' ∧ Progress i s l t l'

section
variable {s : State} {i : Inst} {c : Byte} {p : Addr} {l : List Byte}

theorem ssFetchStep_stringStep (hs : s.seq = .ssFetch i p) (h : StringAt s p l) :
    StringStep i s l (ssFetchStep i p s) := by
  refine .inr ?_
  cases l with
  | nil =>
    obtain ⟨ha, hz⟩ := stringAt_nil.1 h
    refine ⟨_, [], ssFetchStep_terminator ha hz, ⟨.idle, rfl, rfl⟩, fun hr => ⟨hr.congr rfl rfl, .inl ?_⟩⟩
    simp [stepsLeft, hs]
  | cons c l =>
    obtain ⟨ha, hc, hz, hrest⟩ := stringAt_cons.1 h
    refine ⟨_, c :: l, ssFetchStep_character ha hc hz, ⟨.check (hrest.congr rfl rfl), rfl, rfl⟩,
      fun hr => ⟨hr.congr rfl rfl, .inl ?_⟩⟩
    simp only [stepsLeft, hs, List.tail_cons, List.length_cons]
    omega

theorem sbCheckStep_stringStep (hs : s.seq = .sbCheck i c (.next p)) (h : StringAt s p l) :
    StringStep i s (c :: l) (sbCheckStep i c (.next p) s) := by
  unfold sbCheckStep
  cases hread : testBitOp i .ie 1 s with
  | error r =>
    refine .inl ⟨_, r, rfl, fun hr => ?_⟩
    obtain ⟨e, he⟩ := Option.ne_none_iff_exists'.1 hr.txie
    cases hread.symm.trans (testBitOp_ok.2 ⟨hr.hasInst, he, rfl⟩)
  | ok x =>
    obtain ⟨e, t⟩ := x
    obtain ⟨-, -, rfl⟩ := testBitOp_ok.1 hread
    cases e with
    | false =>
      refine .inr ⟨_, c :: l, rfl, ⟨.poll (h.congr rfl rfl), rfl, rfl⟩, fun hr => ⟨hr.congr rfl rfl, .inl ?_⟩⟩
      rw [stepsLeft_sbCheck hs]
      exact Nat.lt_succ_of_le (stepsLeft_sbPoll_le rfl)
    | true =>
      refine .inr ⟨_, c :: l, rfl, ⟨.write (h.congr rfl rfl), rfl, rfl⟩, fun hr => ⟨hr.congr rfl rfl, .inl ?_⟩⟩
      rw [stepsLeft_sbCheck hs]
      exact Eq.trans_lt (stepsLeft_sbWrite rfl) (by omega)

theorem sbPollStep_stringStep (hs : s.seq = .sbPoll i c (.next p)) (h : StringAt s p l) :
    StringStep i s (c :: l) (sbPollStep i c (.next p) s) := by
  unfold sbPollStep
  cases hread : testBitOp i .ifg 1 s with
  | error r =>
    refine .inl ⟨_, r, rfl, fun hr => ?_⟩
    obtain ⟨f, hf⟩ := Option.ne_none_iff_exists'.1 hr.txifg
    cases hread.symm.trans (testBitOp_ok.2 ⟨hr.hasInst, hf, rfl⟩)
  | ok x =>
    obtain ⟨f, t⟩ := x
    obtain ⟨-, hf, rfl⟩ := testBitOp_ok.1 hread
    cases f with
    | false =>
      refine .inr ⟨_, c :: l, rfl, ⟨.poll (h.congr rfl rfl), rfl, rfl⟩,
        fun hr => ⟨hr.congr rfl rfl, .inr ⟨⟨⟨c, _, hs⟩, hf⟩, ?_⟩⟩⟩
      rw [stepsLeft, stepsLeft, hs]
      rfl
    | true =>
      refine .inr ⟨_, c :: l, rfl, ⟨.write (h.congr rfl rfl), rfl, rfl⟩, fun hr => ⟨hr.congr rfl rfl, .inl ?_⟩⟩
      rw [stepsLeft_sbPoll hs]
      refine Eq.trans_lt (stepsLeft_sbWrite rfl) ?_
      split <;> omega

theorem sbWriteStep_stringStep (hs : s.seq = .sbWrite i c (.next p)) (h : StringAt s p l) :
    StringStep i s (c :: l) (sbWriteStep i c (.next p) s) := by
  by_cases hi : s.hasInst i = true
  · have hu : ({ s.afterTxWrite i c with seq := .ssFetch i p } : State).u i = (s.u i).transmit c :=
      UartBank.get_put_same _ _ _
    obtain ⟨htxifg, -, htxie, -⟩ := (s.u i).transmit_spec c
    refine .inr ⟨_, l, sbWriteStep_next hi, ⟨.fetch (h.congr rfl rfl), ?_, rfl⟩, fun hr => ⟨⟨hi, ?_, ?_⟩, .inl ?_⟩⟩
    · simp [sent, State.afterTxWrite]
    · rw [hu, htxie]
      exact hr.txie
    · simp [hu, htxifg]
    · simp [stepsLeft, hs]
  · refine .inl ⟨.sbWrite, ⟨.badInstance, .inst i⟩, ?_, fun hr => hi hr.hasInst⟩
    simp [sbWriteStep, txWriteOp, instGuard, hi]

end

/-- The block's step of a string in progress, in each of its states. -/
theorem ToSend.blockStep {s : State} {i : Inst} {l : List Byte} (h : ToSend s i s.seq l) (hs : s.seq ≠ .idle) :
    StringStep i s l (blockStep s) := by
  generalize hq : s.seq = q at h
  cases h <;> rw [Machine.blockStep, hq]
  case idle => exact absurd hq hs
  case fetch h => exact ssFetchStep_stringStep hq h
  case check h => exact sbCheckStep_stringStep hq h
  case poll h => exact sbPollStep_stringStep hq h
  case write h => exact sbWriteStep_stringStep hq h

/-- The steps a string still takes at most: those of the schedule, and those the characters take after it. -/
def budget (s : State) (i : Inst) (l : List Byte) : Nat := s.env.length + stepsLeft s i l

theorem budget_lt_of_step {s t : State} {i : Inst} {l l' : List Byte} (h : step s = .next t)
    (hle : stepsLeft t i l' ≤ stepsLeft s i l) (hlt : s.env = [] → stepsLeft t i l' < stepsLeft s i l) :
    budget t i l' < budget s i l := by
  rw [budget, budget, step_env h]
  cases he : s.env with
  | nil => simpa using hlt he
  | cons m es =>
    simp only [List.tail_cons, List.length_cons]
    omega

/-- The fair TxReady of a poll of a clear TXIFG brings the write one step nearer (R225). -/
theorem stepsLeft_txReady {s : State} {i : Inst} {l : List Byte} (h : PollsClear s i) :
    stepsLeft (txReady i s) i l < stepsLeft s i l := by
  obtain ⟨⟨b, k, hs⟩, htxifg⟩ := h
  have hset : ((txReady i s).u i).txifg = some true := by rw [(flags_txReady s i i).2, if_pos rfl]
  rw [stepsLeft_sbPoll hs, stepsLeft_sbPoll (s := txReady i s) hs, hset, htxifg]
  simp

theorem ToSend.polls {s : State} {i j : Inst} {l : List Byte} (h : ToSend s i s.seq l) (hpoll : PollsClear s j) : j = i := by
  obtain ⟨⟨b, k, hs⟩, -⟩ := hpoll
  rw [hs] at h
  cases h
  rfl

/-- A step of a string in progress under any schedule without block reset: a guard of the flags faults, or the string is carried
on; and under fairness, with both flags readable, the budget falls. -/
theorem ToSend.step {s : State} {i : Inst} {l : List Byte} (h : ToSend s i s.seq l) (hs : s.seq ≠ .idle)
    (hreset : EnvMove.blockReset ∉ s.env) :
    (∃ t, step s = .next t ∧ t.seq = .faulted ∧ ¬ FlagsReadable s i) ∨
      ∃ t l', step s = .next t ∧ Carries i s l t l' ∧
        (s.params.txifgFair = true → FlagsReadable s i → FlagsReadable t i ∧ budget t i l' < budget s i l) := by
  have hadv : ToSend { s with env := s.env.tail } i s.seq l := h.congr rfl rfl
  obtain ⟨hstep, hclear⟩ | ⟨t, hevent, hstep, hready⟩ := step_block_or_event hreset
  · obtain ⟨p, r, hraise, hguard⟩ | ⟨t, l', hnext, hcarry, hprogress⟩ :=
      ToSend.blockStep (s := { s with env := s.env.tail }) hadv hs
    · exact .inl ⟨_, hstep.trans hraise, rfl, fun hr => hguard (hr.congr rfl rfl)⟩
    · refine .inr ⟨t, l', hstep.trans hnext, ⟨hcarry.toSend, hcarry.sent, hcarry.frame⟩, fun hfair hr => ?_⟩
      obtain ⟨hr', hless⟩ := hprogress (hr.congr rfl rfl)
      refine ⟨hr', budget_lt_of_step (hstep.trans hnext) ?_ fun he => ?_⟩
      · exact hless.elim Nat.le_of_lt fun hpoll => Nat.le_of_eq hpoll.2
      · exact hless.resolve_right fun hpoll => hclear he hfair i hr.hasInst hpoll.1
  · have hcarry := hevent.carries hadv
    refine .inr ⟨t, l, hstep, ⟨hcarry.toSend, hcarry.sent, hcarry.frame⟩, fun _ hr => ?_⟩
    refine ⟨hevent.flagsReadable (hr.congr rfl rfl), budget_lt_of_step hstep (hevent.stepsLeft_le l) fun he => ?_⟩
    obtain ⟨j, hpoll, rfl⟩ := hready he
    obtain rfl := h.polls hpoll
    exact stepsLeft_txReady (s := { s with env := s.env.tail }) hpoll

/-- In IDLE nothing is left to send. -/
theorem ToSend.eq_nil {s : State} {i : Inst} {l : List Byte} (h : ToSend s i s.seq l) (hs : s.seq = .idle) : l = [] := by
  rw [hs] at h
  cases h
  rfl

theorem Carries.refl {i : Inst} {s : State} {l : List Byte} (h : ToSend s i s.seq l) : Carries i s l s l := ⟨h, rfl, rfl⟩

/-! ### What a string sends -/

/-- A run that first reaches IDLE has carried the whole string (R186): it has not faulted, for FAULTED is not left. -/
theorem ToSend.run {i : Inst} {n : Nat} : ∀ {s u : State} {l : List Byte}, ToSend s i s.seq l →
    EnvMove.blockReset ∉ s.env → Sys2Proof.core.run n s = .next u → u.seq = .idle →
    (∀ m (v : State), m < n → Sys2Proof.core.run m s = .next v → v.seq ≠ .idle) → Carries i s l u [] := by
  induction n with
  | zero =>
    intro s u l h _ hrun hidle _
    obtain rfl := Host.Outcome.next.inj hrun
    obtain rfl := h.eq_nil hidle
    exact .refl h
  | succ n ih =>
    intro s u l h hreset hrun hidle hfirst
    obtain ⟨t, hstep, hrest⟩ := run_succ_inv hrun
    have hreset' := step_keeps_noReset hstep hreset
    obtain ⟨t', hnext, hfault, -⟩ | ⟨t', l', hnext, hcarry, -⟩ := h.step (hfirst 0 s (Nat.succ_pos n) rfl) hreset
    · obtain rfl := Host.Outcome.next.inj (hstep.symm.trans hnext)
      cases hidle.symm.trans (run_faulted hfault hreset' hrest)
    · obtain rfl := Host.Outcome.next.inj (hstep.symm.trans hnext)
      exact hcarry.trans (ih hcarry.toSend hreset' hrest hidle fun m v hm hv =>
        hfirst (m + 1) v (Nat.succ_lt_succ hm) (run_of_step hstep hv))

/-- Settles O35: such a run carries the string to its end, where nothing is left to send. -/
theorem sendStringTransmitsInOrder : Obligations.SendStringTransmitsInOrder := by
  intro s u i p bytes n hs hholds hnonzero hreset hrun hidle hfirst
  have hsend : ToSend s i s.seq bytes := hs ▸ .fetch ⟨hholds, hnonzero⟩
  have hcarry := hsend.run hreset hrun hidle hfirst
  simpa using hcarry.sent

/-- Under fairness a string in progress comes to IDLE within its budget (R185, R225). -/
theorem ToSend.completes {i : Inst} {s : State} {l : List Byte} (h : ToSend s i s.seq l)
    (hfair : s.params.txifgFair = true) (hr : FlagsReadable s i) (hreset : EnvMove.blockReset ∉ s.env) :
    ∃ n u, n ≤ budget s i l ∧ Sys2Proof.core.run n s = .next u ∧ u.seq = .idle ∧ Carries i s l u [] := by
  induction hb : budget s i l using Nat.strong_induction_on generalizing s l with
  | h b ih =>
    by_cases hs : s.seq = .idle
    · obtain rfl := h.eq_nil hs
      exact ⟨0, s, Nat.zero_le _, rfl, hs, .refl h⟩
    · obtain ⟨t, -, -, hguard⟩ | ⟨t, l', hstep, hcarry, hprogress⟩ := h.step hs hreset
      · exact absurd hr hguard
      · obtain ⟨hr', hless⟩ := hprogress hfair hr
        have hfair' : t.params.txifgFair = true := step_params_eq hstep ▸ hfair
        obtain ⟨n, u, hn, hrun, hidle, hrest⟩ :=
          ih _ (hb ▸ hless) hcarry.toSend hfair' hr' (step_keeps_noReset hstep hreset) rfl
        exact ⟨n + 1, u, by omega, run_of_step hstep hrun, hidle, hcarry.trans hrest⟩

/-- Settles O53: accepted, the string is in progress with its whole length to send, and completes within its budget. -/
theorem fairSendStringCompletes : Obligations.FairSendStringCompletes := by
  intro s i p bytes hs hfair hi htxie htxifg hholds hnonzero hreset
  have hstring : StringAt s p bytes := ⟨hholds, hnonzero⟩
  obtain ⟨n, u, hn, hrun, hidle, hcarry⟩ := ToSend.completes
    (s := { s with seq := .ssFetch i p, cmd := encode (.sendString i p) }) (.fetch (hstring.congr rfl rfl)) hfair
    ⟨hi, htxie, htxifg⟩ hreset
  have hsent := hcarry.sent
  have hframe := hcarry.frame
  refine ⟨_, n, u, State.accept_idle _ _ hs, ?_, hrun, hidle, ?_, ?_⟩
  · simpa [budget, stepsLeft, Nat.add_assoc] using hn
  · exact (List.append_nil _).symm.trans hsent
  · rw [hframe]
    exact ⟨rfl, rfl, rfl, rfl, rfl⟩

end Sys2Proof.Machine

/-! `60_exceptions.md`, faults and guards (R211 to R219): what acceptance raises, what each guard leaves, what FAULTED keeps, and
the stuck states. -/

namespace Sys2Proof.Machine

open Sys2Proof.Safety

/-! ### Faults at acceptance -/

/-- Of a whole command the decoder never answers that it is none (R90). -/
theorem decode_ne_notOneCommand {m : SetterMode} {ws : List Word} (hone : isOneCommand ws = true) :
    decode m ws ≠ .error .notOneCommand := by
  cases ws with
  | nil => cases hone
  | cons w0 ext =>
    rw [decode, if_pos hone]
    repeat' split
    all_goals nofun

/-- A whole command that is illegal by its fields is rejected (R213). -/
theorem present_illegal {s : State} {w0 : Word} {ext : List Word} (hone : isOneCommand (w0 :: ext) = true)
    (hillegal : ¬ legalByFields s.params.setterMode w0 (ext.getD 1 0)) :
    present (w0 :: ext) s = .next (s.rejectCommand (w0 :: ext) .illegalCmd) := by
  unfold present
  split
  · rename_i i hd
    exact absurd (decode_cons_eq_ok_iff.1 hd).2.1 hillegal
  · rename_i hd
    exact absurd hd (decode_ne_notOneCommand hone)
  all_goals rfl

/-- In IDLE with an empty schedule the block presents the program's next command (R91). -/
theorem step_command {s : State} {ws : List Word} {rest : List Line} (he : s.env = []) (hs : s.seq = .idle)
    (hp : s.program = .command ws :: rest) : step s = present ws { s with program := rest } := by
  rw [step_idle he hs, idleStep, hp]
  exact if_pos rfl

/-- Settles O8: the decoder rejects the words, and the presentation of rejected words raises ILLEGAL_CMD. -/
theorem illegalCommandFaultsAtAcceptance : Obligations.IllegalCommandFaultsAtAcceptance := by
  intro s w0 ext rest hs he hp hone hillegal
  exact (step_command he hs hp).trans (present_illegal (s := { s with program := rest }) hone hillegal)

/-- Settles O25: with no descriptor INITIALIZE has no entry state. -/
theorem initializeWithoutDescriptorFaults : Obligations.InitializeWithoutDescriptorFaults := by
  intro s hs hd
  have hentry : entryOf s .initializeCmd = none := by rw [entryOf, hd, Option.map_none]
  rw [exec_idle _ s hs, hentry]
  rfl

/-! ### The order of the guards -/

/-- The state a fault leaves is the state after raising it (R211). -/
theorem raise_eq_faultedState (s : State) (p : FaultPoint) (r : Raised) :
    s.raise p r = faultedState s p r.code r.subject := rfl

/-- The guards of a UART write as one chain, in the order of R218. -/
theorem writeGuard_eq (s : State) (i : Inst) (op : MicroOp) :
    writeGuard s i op =
      if s.hasInst i = false then some ⟨.badInstance, .inst i⟩
      else if op.isSetterWrite = true ∧ (s.u i).busy = true then some ⟨.setterDuringTx, .inst i⟩
      else if op.isConfigWrite = true ∧ s.params.activePolicy = .fault ∧ (s.u i).swrst = none then
        some ⟨.unwrittenRead, .bit i .ctlw0 0⟩
      else if op.isConfigWrite = true ∧ s.params.activePolicy = .fault ∧ (s.u i).swrst = some false then
        some ⟨.configWhileActive, .inst i⟩
      else none := by
  unfold writeGuard instGuard activeGuard
  cases s.hasInst i with
  | false => rfl
  | true =>
    simp only [if_true, Bool.and_eq_true, Bool.true_eq_false, if_false]
    split
    · rfl
    · cases op.isConfigWrite with
      | false => simp
      | true => cases s.params.activePolicy <;> rcases (s.u i).swrst with _ | _ | _ <;> simp

/-- A UART write whose guards fire writes nothing (R215 to R217). -/
theorem perform_raised {s : State} {op : MicroOp} {i : Inst} {r : Raised} (ho : uartTarget op = some i)
    (hg : writeGuard s i op = some r) : perform op s = .raised r := by
  have hguarded : ∀ act, guarded s i op act = .raised r := fun act => by rw [guarded, hg]
  cases op with
  | latchDesc d => cases ho
  | gpioClr a q m => cases ho
  | gpioSet a q m => cases ho
  | bitWrite j q b v => obtain rfl := Option.some.inj ho; exact hguarded _
  | fieldWrite j q m v => obtain rfl := Option.some.inj ho; exact hguarded _
  | regWrite j q v => obtain rfl := Option.some.inj ho; exact hguarded _

section
variable {s : State} {i : Inst}

theorem step_write_raised {ops : List MicroOp} {j : Nat} {op : MicroOp} {r : Raised} (he : s.env = [])
    (hs : s.seq = .exec ops j) (hop : ops[j]? = some op) (ho : uartTarget op = some i)
    (hg : writeGuard s i op = some r) : step s = .next (faultedState s (.microOp j) r.code r.subject) := by
  rw [step_exec he hs, execStep, hop]
  simp only [perform_raised ho hg, raise_eq_faultedState]

theorem step_write_performed {ops : List MicroOp} {j : Nat} {op : MicroOp} (he : s.env = [])
    (hs : s.seq = .exec ops j) (hop : ops[j]? = some op) (ho : uartTarget op = some i)
    (hg : writeGuard s i op = none) : ∃ t, step s = .next t ∧ t.seq = .exec ops (j + 1) ∧ t.flt = s.flt := by
  obtain ⟨t, hw⟩ := wrote_of_guard ho hg
  obtain ⟨-, -, -, hflt, -⟩ := hw.frame
  exact ⟨_, step_performed he hs hop hw, rfl, hflt⟩

/-- The guard of a UART that does not exist (R215). -/
theorem instGuard_of_absent (hi : s.hasInst i = false) : instGuard s i = some ⟨.badInstance, .inst i⟩ := by
  simp [instGuard, hi]

theorem testBitOp_of_absent (hi : s.hasInst i = false) (r : UReg) (b : Fin 16) :
    testBitOp i r b s = .error ⟨.badInstance, .inst i⟩ := by
  rw [testBitOp, instGuard_of_absent hi]

theorem testBitOp_of_unwritten {r : UReg} {b : Fin 16} (hi : s.hasInst i = true)
    (hb : ((s.u i).get r).bit? b.val = none) : testBitOp i r b s = .error ⟨.unwrittenRead, .bit i r b⟩ := by
  simp [testBitOp, instGuard, hi, hb]

theorem blockStep_sbPoll {b : Byte} {k : Cont} (hs : s.seq = .sbPoll i b k) : blockStep s = sbPollStep i b k s := by
  rw [blockStep, hs]

theorem blockStep_sbWrite {b : Byte} {k : Cont} (hs : s.seq = .sbWrite i b k) : blockStep s = sbWriteStep i b k s := by
  rw [blockStep, hs]

theorem sbCheckStep_of_absent {b : Byte} {k : Cont} (hi : s.hasInst i = false) :
    sbCheckStep i b k s = .next (faultedState s .sbCheck .badInstance (.inst i)) := by
  rw [sbCheckStep, testBitOp_of_absent hi]
  rfl

theorem sbCheckStep_of_unwritten {b : Byte} {k : Cont} (hi : s.hasInst i = true) (htxie : (s.u i).txie = none) :
    sbCheckStep i b k s = .next (faultedState s .sbCheck .unwrittenRead (.bit i .ie 1)) := by
  rw [sbCheckStep, testBitOp_of_unwritten (r := .ie) (b := 1) hi htxie]
  rfl

theorem sbPollStep_of_absent {b : Byte} {k : Cont} (hi : s.hasInst i = false) :
    sbPollStep i b k s = .next (faultedState s .sbPoll .badInstance (.inst i)) := by
  rw [sbPollStep, testBitOp_of_absent hi]
  rfl

theorem sbPollStep_of_unwritten {b : Byte} {k : Cont} (hi : s.hasInst i = true) (htxifg : (s.u i).txifg = none) :
    sbPollStep i b k s = .next (faultedState s .sbPoll .unwrittenRead (.bit i .ifg 1)) := by
  rw [sbPollStep, testBitOp_of_unwritten (r := .ifg) (b := 1) hi htxifg]
  rfl

theorem sbWriteStep_of_absent {b : Byte} {k : Cont} (hi : s.hasInst i = false) :
    sbWriteStep i b k s = .next (faultedState s .sbWrite .badInstance (.inst i)) := by
  rw [sbWriteStep, txWriteOp, instGuard_of_absent hi]
  rfl

/-- The transmit-buffer write of a UART that exists raises no fault (R215, R218). -/
theorem sbWriteStep_next_flt {b : Byte} {k : Cont} (hi : s.hasInst i = true) :
    ∃ t, sbWriteStep i b k s = .next t ∧ t.flt = s.flt := by
  cases k with
  | done => exact ⟨_, sbWriteStep_done hi, rfl⟩
  | next p => exact ⟨_, sbWriteStep_next hi, rfl⟩

end

/-- Settles O37: at acceptance the decoder comes before the command, and each micro-operation's guards are one chain. -/
theorem guardsApplyInOrder : Obligations.GuardsApplyInOrder := by
  refine ⟨fun s w0 ext rest hs he hp _ hone hillegal => ?_, fun s ops j op i hs he hop ho => ?_, fun s i b k hs he => ?_,
    fun s i b k hs he => ?_, fun s i b k hs he => ?_⟩
  · exact ⟨_, illegalCommandFaultsAtAcceptance s w0 ext rest hs he hp hone hillegal, rfl, rfl, rfl⟩
  · have hraised := fun r => step_write_raised (r := r) he hs hop ho
    have hchain := writeGuard_eq s i op
    split_ifs at hchain ⊢
    · exact hraised _ hchain
    · exact hraised _ hchain
    · exact hraised _ hchain
    · exact hraised _ hchain
    · exact step_write_performed he hs hop ho hchain
  · rw [step_sbCheck he hs]
    split
    next habsent => exact sbCheckStep_of_absent habsent
    next hpresent =>
      have hi := Bool.eq_true_of_not_eq_false hpresent
      split
      next htxie => exact sbCheckStep_of_unwritten hi htxie
      next htxie => exact sbCheckStep_of_txie hi htxie
      next htxie => exact sbCheckStep_of_txie hi htxie
  · rw [(step_run he).trans (blockStep_sbPoll hs)]
    split
    next habsent => exact sbPollStep_of_absent (s := { s with env := [] }) habsent
    next hpresent =>
      have hi := Bool.eq_true_of_not_eq_false hpresent
      split
      next htxifg => exact sbPollStep_of_unwritten (s := { s with env := [] }) hi htxifg
      next htxifg => exact sbPollStep_of_txifg (s := { s with env := [] }) hi htxifg
      next htxifg => exact sbPollStep_of_txifg (s := { s with env := [] }) hi htxifg
  · rw [step_sbWrite he hs]
    split
    next habsent => exact sbWriteStep_of_absent habsent
    next hpresent => exact sbWriteStep_next_flt (Bool.eq_true_of_not_eq_false hpresent)

/-! ### Entering FAULTED -/

/-- A move enters FAULTED only by raising a fault, after taking the program's next line if it is a rejected command (R211). -/
theorem Move.enters_faulted {s t : State} (h : Move s t) (hs : s.seq ≠ .faulted) (ht : t.seq = .faulted) :
    ∃ rest c p r, t = ({ s with program := rest, cmd := c } : State).raise p r := by
  cases h with
  | rejected ws rest c code _ _ => exact ⟨rest, c, .acceptance, ⟨code, .none⟩, rfl⟩
  | raised p r _ _ => exact ⟨s.program, s.cmd, p, r, rfl⟩
  | ready i rest _ _ => exact absurd ht hs
  | done i rest _ _ => exact absurd ht hs
  | wait => exact absurd ht hs
  | entered i ws rest q _ _ _ hq => exact absurd ht (entryOf_seq hq).1
  | hostUart i r mask v rest _ _ => exact absurd ht hs
  | hostGpio a r mask v rest _ _ => exact absurd ((State.putPort_seq _ _ _).symm.trans ht) hs
  | hostMem a b rest _ _ => exact absurd ht hs
  | checked i b k e _ _ _ => cases e <;> cases ht
  | polled i b k f _ _ _ => cases f <;> cases ht
  | wrote i b k _ _ q c hq => obtain ⟨-, rfl, -⟩ | ⟨p, -, rfl, -⟩ := hq <;> cases ht
  | _ => cases ht

/-- Settles O39: the one way into FAULTED is a fault raised, and raising writes the record and the sequencer only. -/
theorem faultsArePrecise : Obligations.FaultsArePrecise := by
  intro s t h hs ht
  obtain ⟨rest, c, p, r, rfl⟩ := (step_move h).enters_faulted hs ht
  exact ⟨rfl, ⟨c, p, r.code, r.subject⟩, rfl, by simp [FaultRecord.bit_record], FaultRecord.info_record _ _⟩

/-! ### Stuck states -/

/-- A GPIO access where no port exists is stuck (R68, R219). -/
theorem perform_gpio_stuck {s : State} {op : MicroOp} {a : Addr} {r : GReg} {m : Byte}
    (ho : op = .gpioClr a r m ∨ op = .gpioSet a r m) (hv : validPort s.params a = false) :
    perform op s = .stuck .stuckPort := by
  obtain rfl | rfl := ho
  · simp [perform, gpioClrOp, gpioRmw, hv]
  · simp [perform, gpioSetOp, gpioRmw, hv]

theorem execStep_gpio_stuck {s : State} {ops : List MicroOp} {j : Nat} {a : Addr} {r : GReg} {m : Byte}
    (hop : ops[j]? = some (.gpioClr a r m) ∨ ops[j]? = some (.gpioSet a r m)) (hv : validPort s.params a = false) :
    execStep ops j s = .fault .stuckPort := by
  obtain ⟨op, hop, ho⟩ : ∃ op, ops[j]? = some op ∧ (op = .gpioClr a r m ∨ op = .gpioSet a r m) := by
    obtain hop | hop := hop
    · exact ⟨_, hop, .inl rfl⟩
    · exact ⟨_, hop, .inr rfl⟩
  rw [execStep, hop]
  simp only [perform_gpio_stuck ho hv]

/-- A stuck state is neither in IDLE nor in FAULTED, so it is no end of a run (R219, R254). -/
theorem not_ended_of_stuck {s : State} : Stuck s → ¬ Ended s := fun ⟨hidle, _⟩ ⟨_, hs, _⟩ => hidle hs

/-- Settles O41: neither access has a step, and neither is made in IDLE or FAULTED. -/
theorem stuckStatesHaveNoStep : Obligations.StuckStatesHaveNoStep := by
  refine ⟨fun s ops j a r m hs he hv hop => ?_, fun s i p hs he ha => ?_⟩
  · have hblock : blockStep s = .fault .stuckPort := by rw [blockStep, hs]; exact execStep_gpio_stuck hop hv
    have hstuck : Stuck s := ⟨by simp [hs], by simp [hs], _, hblock⟩
    exact ⟨(step_undisturbed he (by simp [hs])).trans hblock, hstuck, not_ended_of_stuck hstuck⟩
  · have hblock : blockStep s = .fault .stuckMemory := by simp [blockStep, hs, ssFetchStep, ha]
    have hstuck : Stuck s := ⟨by simp [hs], by simp [hs], _, hblock⟩
    exact ⟨(step_undisturbed he (by simp [hs])).trans hblock, hstuck, not_ended_of_stuck hstuck⟩

end Sys2Proof.Machine

/-! `60_exceptions.md`, the other agents (R224, R226, R229): the environment's events of the schedule, FAULTED under them, the
host's writes between commands, and which register file a step touches. -/

namespace Sys2Proof.Machine

open Sys2Proof.Safety

/-! ### The environment's events -/

section
variable {s : State} {i : Inst} {es : List EnvMove}

theorem txDoneEnabled_iff : txDoneEnabled s i = true ↔
    s.hasInst i = true ∧ (s.u i).busy = true ∧ (s.u i).txifg = some true := by
  simp [txDoneEnabled, and_assoc]

theorem step_txReady (he : s.env = .txReady i :: es) (hi : s.hasInst i = true) :
    step s = .next (txReady i { s with env := es }) := by
  rw [step, turn, he]
  exact congrArg Host.Outcome.next (if_pos hi)

theorem step_txDone (he : s.env = .txDone i :: es)
    (h : s.hasInst i = true ∧ (s.u i).busy = true ∧ (s.u i).txifg = some true) :
    step s = .next (txDone i { s with env := es }) := by
  rw [step, turn, he]
  exact congrArg Host.Outcome.next (if_pos (txDoneEnabled_iff.2 h))

/-- A scheduled TxDone that is not enabled does not occur. -/
theorem step_txDone_not_enabled (he : s.env = .txDone i :: es)
    (h : ¬ (s.hasInst i = true ∧ (s.u i).busy = true ∧ (s.u i).txifg = some true)) :
    step s = .next { s with env := es } := by
  rw [step, turn, he]
  exact congrArg Host.Outcome.next (if_neg fun hd => h (txDoneEnabled_iff.1 hd))

theorem uartBit_txReady (s : State) (i j : Inst) (r : UReg) (b : Nat) :
    uartBit (txReady i s) j r b = if j = i ∧ r = .ifg ∧ b = 1 then some true else uartBit s j r b := by
  have hmask : ((0x0002 : Half) &&& UReg.ifg.modelled).getLsbD b = decide (b = 1) := bitMask_getLsbD 1 b
  simp only [txReady, uartBit_writeU, hmask, decide_eq_true_eq]
  split
  · rename_i h
    rw [h.2.2]
    rfl
  · rfl

theorem txifg_txReady (s : State) (i : Inst) : ((txReady i s).u i).txifg = some true :=
  (flags_txReady s i i).2.trans (if_pos rfl)

theorem busy_txDone (s : State) (i j : Inst) : ((txDone i s).u j).busy = if j = i then false else (s.u j).busy := by
  rw [txDone]
  split
  · rename_i hj
    rw [hj, State.u_putU_same]
  · rename_i hj
    rw [State.u_putU_ne _ _ hj]

end

/-- Settles O42: an event that is enabled is its one write, in whatever state the block is. -/
theorem environmentEvents : Obligations.EnvironmentEvents := by
  refine ⟨fun s i es he hi => ?_, fun s i es he hi hbusy htxifg => ?_, fun s i es he h => step_txDone_not_enabled he h⟩
  · exact ⟨_, step_txReady he hi, rfl, fun j r b => uartBit_txReady { s with env := es } i j r b,
      fun j => busy_writeU { s with env := es } i j _ _ _⟩
  · exact ⟨_, step_txDone he ⟨hi, hbusy, htxifg⟩, rfl, fun j r b => uartBit_txDone { s with env := es } i j r b,
      fun j => busy_txDone { s with env := es } i j⟩

/-! ### FAULTED -/

section
variable {s : State}

theorem blockStep_faulted (hs : s.seq = .faulted) : blockStep s = .fault .halted := by
  rw [blockStep, hs]

/-- An event writes UART registers only. -/
theorem Event.frame {t : State} (h : Event s t) : t = { s with uart := t.uart } := by cases h <;> rfl

/-- A step from FAULTED that is not block reset is an event (R211, R224). -/
theorem step_faulted_event {t : State} (h : step s = .next t) (hs : s.seq = .faulted)
    (hm : s.env.head? ≠ some .blockReset) : Event { s with env := s.env.tail } t := by
  have hblock : ∀ es, blockStep { s with env := es } ≠ .next t := fun es hb => by
    cases (blockStep_faulted (s := { s with env := es }) hs).symm.trans hb
  cases he : s.env with
  | nil =>
    have hturn : step s = blockStep s := step_undisturbed he (by simp [hs])
    exact absurd (hturn.symm.trans h) (hblock s.env)
  | cons m es =>
    cases m with
    | run => exact absurd ((step_run he).symm.trans h) (hblock es)
    | blockReset => simp [he] at hm
    | txReady i =>
      rw [step, turn, he] at h
      obtain rfl := Host.Outcome.next.inj h
      split
      · exact .ready i
      · exact .dropped
    | txDone i =>
      rw [step, turn, he] at h
      obtain rfl := Host.Outcome.next.inj h
      split
      · exact .done i
      · exact .dropped

end

/-- Settles O40: the block's turn in FAULTED halts, and an event writes UART registers only. -/
theorem faultedHasNoStepOfTheBlock : Obligations.FaultedHasNoStepOfTheBlock := by
  refine ⟨fun s hs he => ?_, fun s es hs he => ?_, fun s i es hs he hi => ?_, fun s t h hs hm => ?_⟩
  · rw [step_undisturbed he (by simp [hs])]
    exact blockStep_faulted hs
  · rw [step_run he]
    exact blockStep_faulted hs
  · exact ⟨_, step_txReady he hi, hs, txifg_txReady { s with env := es } i⟩
  · have hframe := (step_faulted_event h hs hm).frame
    rw [hframe]
    exact ⟨hs, rfl, rfl⟩

/-! ### The host's writes -/

section
variable {s : State} {rest : List Line}

theorem step_hostUart {i : Inst} {r : HostReg} {mask v : Half} (he : s.env = []) (hs : s.seq = .idle)
    (hp : s.program = .hostUart i r mask v :: rest) (hi : s.hasInst i = true) :
    step s = .next (hostUart i r mask v { s with program := rest }) := by
  rw [step_idle he hs, idleStep, hp]
  exact if_pos hi

theorem step_hostGpio {a : Addr} {r : GReg} {mask v : Byte} (he : s.env = []) (hs : s.seq = .idle)
    (hp : s.program = .hostGpio a r mask v :: rest) (hv : validPort s.params a = true) :
    step s = .next (hostGpio a r mask v { s with program := rest }) := by
  rw [step_idle he hs, idleStep, hp]
  exact if_pos hv

theorem step_hostMem {a : Addr} {b : Byte} (he : s.env = []) (hs : s.seq = .idle)
    (hp : s.program = .hostMem a b :: rest) : step s = .next (({ s with program := rest } : State).writeByte a b) := by
  rw [step_idle he hs, idleStep, hp]
  exact if_pos rfl

end

/-- A host write cannot name IFG (R226), so it leaves every bit of it. -/
theorem uartBit_hostUart_ifg (s : State) (i j : Inst) (r : HostReg) (mask v : Half) (b : Nat) :
    uartBit (hostUart i r mask v s) j .ifg b = uartBit s j .ifg b := by
  have hne : UReg.ifg ≠ r.toUReg := by cases r <;> nofun
  rw [hostUart, uartBit_writeU, if_neg fun h => hne h.2.1]

theorem State.putPort_frame (s : State) (a : Addr) (g : GpioPort) :
    s.putPort a g = { s with gpio := (s.putPort a g).gpio } := by
  unfold State.putPort
  split <;> rfl

theorem State.readByte_writeByte (s : State) (a b : Addr) (x : Byte) :
    (s.writeByte a x).readByte b = if b = a then x else s.readByte b := by
  split
  · rename_i hb
    rw [hb, State.readByte_writeByte_same]
  · rename_i hb
    exact State.readByte_writeByte_ne s x hb

/-- Settles O43: a host line is one masked register write or one byte of memory, and none of them names IFG or BUSY. -/
theorem hostWritesBetweenCommands : Obligations.HostWritesBetweenCommands := by
  refine ⟨fun s i r mask v rest hs he hp hi => ?_, fun s a r mask v rest hs he hp hv => ?_,
    fun s a x rest hs he hp => ?_⟩
  · exact ⟨_, step_hostUart he hs hp hi, rfl, fun j q b => uartBit_writeU { s with program := rest } i j _ q _ _ b,
      fun j => ⟨busy_writeU { s with program := rest } i j _ _ _,
        uartBit_hostUart_ifg { s with program := rest } i j r _ _ 1⟩⟩
  · exact ⟨_, step_hostGpio he hs hp hv, State.putPort_frame { s with program := rest } a _,
      fun b q k => gpioBit_putPort { s with program := rest } a b r q mask v k⟩
  · exact ⟨_, step_hostMem he hs hp, rfl, fun b => State.readByte_writeByte { s with program := rest } a b x⟩

/-! ### Which register file a step touches -/

/-- Replacing the register file of a UART changes no other's. -/
theorem eq_of_u_putU_ne {s : State} {i j : Inst} {x : UartRegs} (h : (s.putU j x).u i ≠ s.u i) : i = j := by
  by_contra hij
  exact h (State.u_putU_ne s x hij)

/-- A micro-operation touches the register file of the UART it addresses only (R63 to R65). -/
theorem Wrote.target_of_u_ne {s t : State} {op : MicroOp} {i : Inst} (h : Wrote s op t) (hne : t.u i ≠ s.u i) :
    uartTarget op = some i := by
  cases h with
  | latchDesc d => exact absurd rfl hne
  | gpioClr a r m _ => exact absurd (State.u_putPort s a _ i) hne
  | gpioSet a r m _ => exact absurd (State.u_putPort s a _ i) hne
  | bitWrite j r b v _ => exact congrArg some (eq_of_u_putU_ne hne).symm
  | fieldWrite j r m v _ => exact congrArg some (eq_of_u_putU_ne hne).symm
  | regWrite j r v _ => exact congrArg some (eq_of_u_putU_ne hne).symm

/-- Settles O46: the one agent of the step that touches data replaces the register file of the UART it addresses. -/
theorem otherInstancesAreUntouched : Obligations.OtherInstancesAreUntouched := by
  intro s t i h hne
  obtain ⟨u, hu, hsame⟩ := step_leavesData h
  rw [hsame.u] at hne
  cases hu with
  | none => exact absurd rfl hne
  | ready j hj =>
    obtain rfl := eq_of_u_putU_ne (s := { s with env := s.env.tail }) hne
    obtain hm | ⟨hs, hp⟩ | ⟨b, k, hs, hm, hfair⟩ := hj
    · exact .inl hm
    · exact .inr (.inr (.inl ⟨hs, .inl hp⟩))
    · exact .inr (.inr (.inr (.inr (.inl ⟨b, k, hs, List.head?_eq_none_iff.1 hm, hfair⟩))))
  | done j _ hj =>
    obtain rfl := eq_of_u_putU_ne (s := { s with env := s.env.tail }) hne
    obtain hm | ⟨hs, hp⟩ := hj
    · exact .inr (.inl hm)
    · exact .inr (.inr (.inl ⟨hs, .inr (.inl hp)⟩))
  | reset _ => exact absurd rfl hne
  | hostUart j r mask v hs hp =>
    obtain rfl := eq_of_u_putU_ne (s := { s with env := s.env.tail }) hne
    exact .inr (.inr (.inl ⟨hs, .inr (.inr ⟨r, mask, v, hp⟩)⟩))
  | hostGpio a r mask v _ _ => exact absurd (State.u_putPort { s with env := s.env.tail } a _ i) hne
  | hostMem a b _ _ => exact absurd rfl hne
  | performed ops j op u hs hop hw =>
    exact .inr (.inr (.inr (.inl ⟨ops, j, op, hs, hop, hw.target_of_u_ne hne⟩)))
  | sampled e => exact absurd rfl hne
  | transmitted j b k hs =>
    obtain rfl := eq_of_u_putU_ne (s := { s with env := s.env.tail }) hne
    exact .inr (.inr (.inr (.inr (.inr ⟨b, k, hs⟩))))

end Sys2Proof.Machine

/-! `60_exceptions.md` R225, fair polling: of a SEND_BYTE that polls, the schedule and the steps the byte takes after it fall with
every step. -/

namespace Sys2Proof.Machine

open Sys2Proof.Safety

/-- SEND_BYTE of `b` polls on UART `i` or is about to write: with an empty schedule it takes the given number of steps, which
with TXIFG clear are TxReady, a poll and the write (R182, R225). -/
inductive ByteLeft (s : State) (i : Inst) (b : Byte) : Nat → Prop where
  | clear (hs : s.seq = .sbPoll i b .done) (hf : (s.u i).txifg = some false) : ByteLeft s i b 3
  | set (hs : s.seq = .sbPoll i b .done) (hf : (s.u i).txifg = some true) : ByteLeft s i b 2
  | write (hs : s.seq = .sbWrite i b .done) : ByteLeft s i b 1

section
variable {s t : State} {i : Inst} {b : Byte} {n : Nat}

theorem ByteLeft.congr (h : ByteLeft s i b n) (hs : t.seq = s.seq) (hu : t.uart = s.uart) : ByteLeft t i b n := by
  have hflag : (t.u i).txifg = (s.u i).txifg := by rw [State.u, hu, State.u]
  cases h with
  | clear hq hf => exact .clear (hs.trans hq) (hflag.trans hf)
  | set hq hf => exact .set (hs.trans hq) (hflag.trans hf)
  | write hq => exact .write (hs.trans hq)

/-- Only a byte that polls a clear TXIFG of its own UART can get the fair TxReady (R225). -/
theorem ByteLeft.polls {j : Inst} (h : ByteLeft s i b n) (hpoll : PollsClear s j) : j = i ∧ n = 3 := by
  obtain ⟨⟨c, k, hs⟩, hf⟩ := hpoll
  cases h with
  | clear hq _ =>
    obtain ⟨rfl, -⟩ : i = j ∧ _ := by simpa [hq] using hs
    exact ⟨rfl, rfl⟩
  | set hq hset =>
    obtain ⟨rfl, -⟩ : i = j ∧ _ := by simpa [hq] using hs
    cases hset.symm.trans hf
  | write hq => cases hq.symm.trans hs

/-- No event takes the byte back (R224). -/
theorem ByteLeft.event (h : ByteLeft s i b n) (hevent : Event s t) : ∃ n', ByteLeft t i b n' ∧ n' ≤ n := by
  obtain ⟨-, hflag⟩ := hevent.flags i
  cases h with
  | clear hq hf =>
    obtain hkept | hset := hflag
    · exact ⟨3, .clear (hevent.seq.trans hq) (hkept.trans hf), Nat.le_refl _⟩
    · exact ⟨2, .set (hevent.seq.trans hq) hset, by decide⟩
  | set hq hf => exact ⟨2, .set (hevent.seq.trans hq) (hflag.elim (·.trans hf) id), Nat.le_refl _⟩
  | write hq => exact ⟨1, .write (hevent.seq.trans hq), Nat.le_refl _⟩

/-- The block's step: the byte is written, or a poll brings the write nearer unless it reads a clear TXIFG (R182, R183). -/
theorem ByteLeft.blockStep (h : ByteLeft s i b n) (hi : s.hasInst i = true) :
    ∃ t, blockStep s = .next t ∧ ((t.seq = .idle ∧ sent t = sent s ++ [(i, b)]) ∨
      ∃ n', ByteLeft t i b n' ∧ sent t = sent s ∧ (n' < n ∨ PollsClear s i ∧ n' = n)) := by
  cases h with
  | clear hq hf =>
    exact ⟨_, (blockStep_sbPoll hq).trans (sbPollStep_of_txifg hi hf),
      .inr ⟨3, .clear rfl hf, rfl, .inr ⟨⟨⟨b, .done, hq⟩, hf⟩, rfl⟩⟩⟩
  | set hq hf =>
    exact ⟨_, (blockStep_sbPoll hq).trans (sbPollStep_of_txifg hi hf), .inr ⟨1, .write rfl, rfl, .inl (by decide)⟩⟩
  | write hq =>
    refine ⟨_, (blockStep_sbWrite hq).trans (sbWriteStep_done hi), .inl ⟨rfl, ?_⟩⟩
    simp [sent, State.afterTxWrite]

theorem ByteLeft.budget_pos (h : ByteLeft s i b n) : 0 < s.env.length + n := by
  cases h <;> omega

theorem ByteLeft.lt_of_txifg (h : ByteLeft s i b n) (hf : (s.u i).txifg = some true) : n < 3 := by
  cases h with
  | clear _ hclear => cases hclear.symm.trans hf
  | set _ _ => decide
  | write _ => decide

theorem Event.sent (h : Event s t) : sent t = sent s := by
  cases h <;> rfl

/-- A step under any schedule without block reset, under fairness: the byte is written, or fewer steps are left, of the schedule
or after it (R225). -/
theorem ByteLeft.step (h : ByteLeft s i b n) (hfair : s.params.txifgFair = true) (hi : s.hasInst i = true)
    (hreset : EnvMove.blockReset ∉ s.env) :
    ∃ t, step s = .next t ∧ ((t.seq = .idle ∧ sent t = sent s ++ [(i, b)]) ∨
      ∃ n', ByteLeft t i b n' ∧ sent t = sent s ∧ t.env.length + n' < s.env.length + n) := by
  have hadv : ByteLeft { s with env := s.env.tail } i b n := h.congr rfl rfl
  have hless : ∀ {n' : Nat}, n' ≤ n → (s.env = [] → n' < n) → s.env.tail.length + n' < s.env.length + n := by
    intro n' hle hlt
    cases he : s.env with
    | nil => simpa using hlt he
    | cons m es => simp only [List.tail_cons, List.length_cons]; omega
  obtain ⟨hstep, hclear⟩ | ⟨t, hevent, hstep, hready⟩ := step_block_or_event hreset
  · obtain ⟨t, hnext, hwritten | ⟨n', hleft, hsent, hnear⟩⟩ := hadv.blockStep hi
    · exact ⟨t, hstep.trans hnext, .inl hwritten⟩
    · refine ⟨t, hstep.trans hnext, .inr ⟨n', hleft, hsent, ?_⟩⟩
      rw [step_env (hstep.trans hnext)]
      refine hless (hnear.elim Nat.le_of_lt fun hpoll => Nat.le_of_eq hpoll.2) fun he => ?_
      exact hnear.resolve_right fun hpoll => hclear he hfair i hi hpoll.1
  · obtain ⟨n', hleft, hle⟩ := hadv.event hevent
    refine ⟨t, hstep, .inr ⟨n', hleft, hevent.sent, ?_⟩⟩
    rw [step_env hstep]
    refine hless hle fun he => ?_
    obtain ⟨j, hpoll, rfl⟩ := hready he
    obtain ⟨rfl, rfl⟩ := hadv.polls hpoll
    exact hleft.lt_of_txifg (txifg_txReady _ _)

/-- Under fairness the byte is written within the schedule's length and the steps it takes after it (R225). -/
theorem ByteLeft.completes (h : ByteLeft s i b n) (hfair : s.params.txifgFair = true) (hi : s.hasInst i = true)
    (hreset : EnvMove.blockReset ∉ s.env) :
    ∃ m u, m ≤ s.env.length + n ∧ Sys2Proof.core.run m s = .next u ∧ u.seq = .idle ∧ sent u = sent s ++ [(i, b)] := by
  induction hb : s.env.length + n using Nat.strong_induction_on generalizing s n with
  | h budget ih =>
    obtain ⟨t, hstep, ⟨hidle, hsent⟩ | ⟨n', hleft, hsent, hless⟩⟩ := h.step hfair hi hreset
    · exact ⟨1, t, hb ▸ h.budget_pos, run_of_step hstep (run_zero t), hidle, hsent⟩
    · have hparams := step_params_eq hstep
      obtain ⟨m, u, hm, hrun, hidle, hrest⟩ := ih _ (hb ▸ hless) hleft (by rwa [hparams])
        (by rwa [State.hasInst, hparams]) (step_keeps_noReset hstep hreset) rfl
      exact ⟨m + 1, u, by omega, run_of_step hstep hrun, hidle, by rw [hrest, hsent]⟩

end

/-- Settles O33: a poll of a defined flag has at most three steps left after the schedule. -/
theorem fairPollingCompletes : Obligations.FairPollingCompletes := by
  intro s i b hs hfair hi htxifg hreset
  obtain ⟨n, hleft, hn⟩ : ∃ n, ByteLeft s i b n ∧ n ≤ 3 := by
    obtain ⟨f, hf⟩ := Option.ne_none_iff_exists'.1 htxifg
    cases f with
    | false => exact ⟨3, .clear hs hf, Nat.le_refl _⟩
    | true => exact ⟨2, .set hs hf, by decide⟩
  obtain ⟨m, u, hm, hrun, hidle, hsent⟩ := hleft.completes hfair hi hreset
  exact ⟨m, u, by omega, hrun, hidle, hsent⟩

end Sys2Proof.Machine

/-! `70_reset_and_hazards.md`, reset and launch (R240, R241): what block reset leaves, and what holds at both launches. -/

namespace Sys2Proof.Machine

open Sys2Proof.Safety

/-! ### Block reset -/

theorem step_blockReset {s : State} {rest : List EnvMove} (he : s.env = .blockReset :: rest) :
    step s = .next (blockReset { s with env := rest }) := by
  rw [step, turn, he]

theorem FaultRecord.bit_clear (c : FaultCode) : FaultRecord.clear.bit c = false := by
  cases c <;> rfl

/-- Settles O3: the step of block reset is its one update, and every other step from FAULTED is an event, which leaves `seq`. -/
theorem blockResetResetsOnlyTheBlock : Obligations.BlockResetResetsOnlyTheBlock := by
  refine ⟨fun s rest he => ?_, fun s t h hs ht => ?_, fun p k g m => ⟨rfl, rfl, rfl⟩⟩
  · exact ⟨_, step_blockReset he, rfl, rfl, FaultRecord.bit_clear, rfl, rfl, rfl, rfl, rfl, rfl, rfl⟩
  · by_contra hm
    exact ht ((step_faulted_event h hs hm).seq.trans hs)

/-! ### The launch states -/

theorem UartRegs.get_unwritten (r : UReg) : UartRegs.unwritten.get r = .unwritten 16 := by
  cases r <;> rfl

theorem reset_u (i : Inst) : State.reset.u i = .unwritten := UartBank.get_all _ i

theorem reset_port (a : Addr) : State.reset.port a = .unwritten := rfl

/-- Settles O1: each UART holds the unwritten register file, and neither a port nor a byte is listed. -/
theorem resetLeavesTheLaunchState : Obligations.ResetLeavesTheLaunchState := by
  refine ⟨rfl, rfl, FaultRecord.bit_clear, rfl, rfl, rfl, fun i r b => ?_, fun i => ?_, fun a r b => ?_, fun a => rfl⟩
  · rw [uartBit, reset_u, UartRegs.get_unwritten, Reg.bit?_unwritten]
  · rw [reset_u]
    rfl
  · rw [gpioBit, reset_port, GpioPort.get_unwritten, Reg.bit?_unwritten]

/-- A launch from canonical contents is in IDLE with a clear fault record and no command (R241). -/
theorem machineInv_launch {p : Params} {k : UartBank} {g : List (Nat × GpioPort)} {m : List Host.Cell}
    (hk : k.wf = true) (hg : Gpio.wf g = true) (hm : Memory.wf m = true) : MachineInv (State.launch p k g m) :=
  ⟨⟨hk, hg, hm⟩, faultRecordOk_running nofun rfl, rfl⟩

/-- In IDLE nothing is pending, so the invariants of the block's progress hold (R123, R153, R183). -/
theorem progress_invariants_of_idle {s : State} (hs : s.seq = .idle) :
    PollOk s ∧ NoOddParityPending s ∧ InitHoldsReset s :=
  ⟨pollOk_of_not_write (by simp [hs]), noOddParityPending_of_not_exec (by simp [hs]),
    initHoldsReset_of_not_exec (by simp [hs])⟩

/-- Settles O51: both presets are canonical, and a launch is in IDLE. -/
theorem launchMeetsTheInvariants : Obligations.LaunchMeetsTheInvariants :=
  ⟨⟨machineInv_launch (by decide) rfl rfl, progress_invariants_of_idle rfl⟩,
    ⟨machineInv_launch (by decide) rfl rfl, progress_invariants_of_idle rfl⟩⟩

end Sys2Proof.Machine

/-! `70_reset_and_hazards.md`, hazards (R249, R252): who changes a port, and INITIALIZE of one UART while the setter target is
another that is enabled. -/

namespace Sys2Proof.Machine

open Sys2Proof.Safety

/-! ### Pin routing persists -/

theorem SameData.port {u t : State} (h : SameData u t) (a : Addr) : t.port a = u.port a := by
  rw [State.port, h.gpio, State.port]

/-- Replacing a port block changes no other. -/
theorem eq_of_port_putPort_ne {s : State} {a b : Addr} {g : GpioPort} (h : (s.putPort b g).port a ≠ s.port a) : a = b := by
  by_contra hab
  exact h (State.port_putPort_ne s g hab)

/-- Of the micro-operations only the two GPIO writes touch a port, the one they name (R68). -/
theorem Wrote.gpioWrite_of_port_ne {s t : State} {op : MicroOp} {a : Addr} (h : Wrote s op t) (hne : t.port a ≠ s.port a) :
    ∃ r m, op = .gpioClr a r m ∨ op = .gpioSet a r m := by
  cases h with
  | gpioClr b r m _ =>
    obtain rfl := eq_of_port_putPort_ne hne
    exact ⟨r, m, .inl rfl⟩
  | gpioSet b r m _ =>
    obtain rfl := eq_of_port_putPort_ne hne
    exact ⟨r, m, .inr rfl⟩
  | _ => exact absurd rfl hne

/-- Settles O47: of the agents only the host in IDLE and a micro-operation on the port touch it. -/
theorem pinRoutingPersists : Obligations.PinRoutingPersists := by
  intro s t a h hne
  obtain ⟨u, hu, hsame⟩ := step_leavesData h
  rw [hsame.port] at hne
  cases hu with
  | hostGpio b r mask v hs hp =>
    obtain rfl := eq_of_port_putPort_ne hne
    exact .inl ⟨hs, r, mask, v, hp⟩
  | performed ops j op u hs hop hw =>
    obtain ⟨r, m, rfl | rfl⟩ := hw.gpioWrite_of_port_ne hne
    · exact .inr ⟨ops, j, r, m, hs, .inl hop⟩
    · exact .inr ⟨ops, j, r, m, hs, .inr hop⟩
  | _ => exact absurd rfl hne

/-! ### INITIALIZE on an enabled primary -/

/-- A UART write of the spec's lists is a configuration write unless it writes a reset bit (R70). -/
theorem MicroOp.isConfigWrite_of_listOp {op : MicroOp} {i : Inst} (hlist : listOp op = true) (ho : uartTarget op = some i)
    (hreset : op.isSwrstWrite = false) : op.isConfigWrite = true := by
  cases op with
  | latchDesc d => cases ho
  | gpioClr a r m => cases ho
  | gpioSet a r m => cases ho
  | bitWrite j r b v =>
    refine MicroOp.isConfigWrite_bitWrite_iff.2 ⟨hlist, fun hb => ?_⟩
    cases hreset.symm.trans (MicroOp.isSwrstWrite_bitWrite_iff.2 hb)
  | fieldWrite j r m v => exact hlist
  | regWrite j r v => exact hlist

/-- Steps 1 and 2 of INITIALIZE (R121): the reset bit of the descriptor's UART is set and the pins are routed. -/
def initHead (d : Descriptor) : List MicroOp := .bitWrite d.inst .ctlw0 0 true :: pinOps d.portAddress d.pinMask

/-- After steps 1 and 2 comes a configuration write of the setter target, whichever it is: step 3, or step 4 for a clock code
that writes nothing (R121, R150). -/
theorem initOps_head (p : Params) (d : Descriptor) : ∃ op rest, initOps p d = initHead d ++ op :: rest ∧
    uartTarget op = some (setterTarget p d.inst) ∧ op.isConfigWrite = true := by
  obtain ⟨op, rest, hsetters⟩ : ∃ op rest, initSetterOps (setterTarget p d.inst) d = op :: rest := by
    refine List.exists_cons_of_ne_nil fun hnil => ?_
    simp [initSetterOps, bitOrderOps] at hnil
  have hmem : op ∈ initSetterOps (setterTarget p d.inst) d := by simp [hsetters]
  have htarget := initSetterOps_target _ d op hmem
  obtain ⟨hreset, -⟩ := initSetterOps_leavesReset _ d op hmem
  have hwhole : initOps p d = initHead d ++ op :: (rest ++ [.bitWrite d.inst .ctlw0 0 false]) := by
    rw [initOps_eq, initBody, hsetters]
    simp [initHead]
  refine ⟨op, _, hwhole, htarget, MicroOp.isConfigWrite_of_listOp (initOps_bus p d op ?_).1 htarget hreset⟩
  simp [hwhole]

/-- Steps 1 and 2 of INITIALIZE are performed where the port exists and the descriptor's UART is not transmitting (R218). -/
theorem exists_wroteAll_initHead {s : State} {d : Descriptor} (hport : validPort s.params d.portAddress = true)
    (hinst : SetterOk s d.inst) : ∃ t, WroteAll s (initHead d) t := by
  obtain ⟨s₁, hset⟩ := wrote_of_guard rfl (writeGuard_of_setterOk hinst true)
  obtain ⟨hparams, -⟩ := hset.frame
  obtain ⟨s₂, hpins⟩ := exists_wroteAll_pins (s := s₁) d.portAddress d.pinMask (by rw [hparams]; exact hport)
  exact ⟨s₂, .cons hset hpins⟩

theorem initHead_uartEffect (d : Descriptor) (j : Inst) (r : UReg) (b : Nat) (x : Option Bool) :
    (initHead d).foldl (fun x op => uartEffect op j r b x) x =
      if j = d.inst ∧ r = .ctlw0 ∧ b = 0 then some true else x :=
  uartEffect_bitWrite d.inst .ctlw0 0 true rfl j r b x

theorem initHead_gpioEffect (d : Descriptor) (a : Addr) (r : GReg) (k : Nat) (x : Option Bool) :
    (initHead d).foldl (fun x op => gpioEffect op a r k x) x =
      if a = d.portAddress ∧ d.pinMask.getLsbD k = true then some (decide (r = .sel0)) else x :=
  pinOps_gpioEffect d.portAddress d.pinMask a r k x

/-- A configuration write to a UART that is enabled and not transmitting raises CONFIG_WHILE_ACTIVE under policy FAULT (R216). -/
theorem writeGuard_configWhileActive {s : State} {i : Inst} {op : MicroOp} (hi : SetterOk s i)
    (hpolicy : s.params.activePolicy = .fault) (hswrst : (s.u i).swrst = some false) (hop : op.isConfigWrite = true) :
    writeGuard s i op = some ⟨.configWhileActive, .inst i⟩ := by
  obtain ⟨hexists, hbusy⟩ := hi
  simp [writeGuard_eq, hexists, hbusy, hop, hpolicy, hswrst]

/-- A command whose list is performed up to index `part.length`, where the guards of a UART write raise a fault (R211). -/
theorem command_faults {s t : State} {i : Instr} {part rest : List MicroOp} {op : MicroOp} {j : Inst} {r : Raised}
    (hs : s.seq = .idle) (he : s.env = []) (hq : entryOf s i = some (.exec (part ++ op :: rest) 0))
    (h : WroteAll s part t) (ho : uartTarget op = some j) (hg : writeGuard t j op = some r) :
    ∃ u, exec i s = .next u ∧ Sys2Proof.core.run (part.length + 1) u =
      .next (faultedState { t with cmd := encode i } (.microOp part.length) r.code r.subject) := by
  refine ⟨_, by rw [exec_idle i s hs, hq], ?_⟩
  have hw := (h.withCmd (encode i)).withSeq (.exec (part ++ op :: rest) 0)
  rw [run_add _ 1 (run_part (rest := op :: rest) part hw he rfl rfl), Nat.zero_add]
  obtain ⟨-, -, -, -, -, -, -, henv⟩ := h.frame
  refine run_of_step (step_write_raised (op := op) (i := j) (r := r) (henv.trans he) rfl ?_ ho hg) (run_zero _)
  simp

/-- Settles O29: steps 1 and 2 do not concern the primary, and the configuration write that follows finds it enabled. -/
theorem initializeOnAnEnabledPrimaryFaults : Obligations.InitializeOnAnEnabledPrimaryFaults := by
  intro s d hs he hd hport hmode hne hinst hprimary hpolicy hswrst
  obtain ⟨op, rest, hlist, htarget, hconfig⟩ := initOps_head s.params d
  rw [setterTarget_fixedPrimary hmode] at htarget
  obtain ⟨t, hall⟩ := exists_wroteAll_initHead hport hinst
  obtain ⟨hparams, -, -, hflt, -⟩ := hall.frame
  have hbit : ∀ j r b, uartBit t j r b = if j = d.inst ∧ r = .ctlw0 ∧ b = 0 then some true else uartBit s j r b :=
    fun j r b => by rw [hall.uartBit, initHead_uartEffect]
  have hgpio : ∀ a r k, gpioBit t a r k =
      if a = d.portAddress ∧ d.pinMask.getLsbD k = true then some (decide (r = .sel0)) else gpioBit s a r k :=
    fun a r k => by rw [hall.gpioBit, initHead_gpioEffect]
  have henabled : (t.u 0).swrst = some false := by
    rw [swrst_eq_uartBit, hbit, if_neg fun h => hne h.1.symm, ← swrst_eq_uartBit, hswrst]
  have hguard := writeGuard_configWhileActive (hall.setterOk hprimary) (hparams ▸ hpolicy) henabled hconfig
  obtain ⟨u, haccept, hrun⟩ := command_faults (i := .initializeCmd) hs he (by rw [entryOf, hd, ← hlist]; rfl) hall
    htarget hguard
  obtain ⟨hframe, htrace⟩ := hall.registersOnly fun o ho =>
    (initOps_bus s.params d o (by rw [hlist]; exact List.mem_append_left _ ho)).2
  refine ⟨u, _, haccept, hrun, rfl, ?_, ?_, htrace, hbit, hall.busy, fun a => hgpio a .dir, fun a => hgpio a .sel1,
    fun a => hgpio a .sel0⟩
  · rw [← hflt]
    rfl
  · rw [hframe]
    rfl

end Sys2Proof.Machine

/-! `70_reset_and_hazards.md`, the end of a run (R254): it is the first state that meets the four conditions, and runs in FAULTED,
stuck runs and endless polls have none (R211, R219, R220). -/

namespace Sys2Proof.Safety

open Sys2Proof.Machine

/-- The first of two ends is the only one. -/
theorem EndsAt.not_lt {s t u : State} {n m : Nat} (h : EndsAt s n t) (h' : EndsAt s m u) : ¬ n < m := by
  obtain ⟨hrun, hended, -⟩ := h
  obtain ⟨-, -, hfirst⟩ := h'
  exact fun hlt => hfirst n t hlt hrun hended

theorem EndsAt.unique {s t u : State} {n m : Nat} (h : EndsAt s n t) (h' : EndsAt s m u) : n = m ∧ t = u := by
  obtain rfl : n = m := Nat.le_antisymm (Nat.not_lt.1 (h'.not_lt h)) (Nat.not_lt.1 (h.not_lt h'))
  obtain ⟨hrun, -⟩ := h
  obtain ⟨hrun', -⟩ := h'
  exact ⟨rfl, Host.Outcome.next.inj (hrun.symm.trans hrun')⟩

/-- A run that reaches a state with the four conditions ends there or before. -/
theorem exists_endsAt {s t : State} {n : Nat} (h : Sys2Proof.core.run n s = .next t) (ht : Ended t) :
    ∃ m u, m ≤ n ∧ EndsAt s m u := by
  classical
  have hsome : ∃ m, ∃ u, Sys2Proof.core.run m s = .next u ∧ Ended u := ⟨n, t, h, ht⟩
  obtain ⟨u, hrun, hended⟩ := Nat.find_spec hsome
  exact ⟨Nat.find hsome, u, Nat.find_min' hsome ⟨t, h, ht⟩, hrun, hended, fun m v hm hv hv' =>
    Nat.find_min hsome hm ⟨v, hv, hv'⟩⟩

end Sys2Proof.Safety

namespace Sys2Proof.Machine

open Sys2Proof.Safety

theorem FaultRecord.none?_iff {f : FaultRecord} : f.none? = true ↔ ∀ c, f.bit c = false := by
  simp only [FaultRecord.none?, Bool.and_eq_true, Bool.not_eq_true', and_assoc]
  constructor
  · rintro ⟨hillegal, hdescriptor, hinstance, hactive, htx, hread⟩ c
    cases c <;> assumption
  · exact fun h =>
      ⟨h .illegalCmd, h .noDescriptor, h .badInstance, h .configWhileActive, h .setterDuringTx, h .unwrittenRead⟩

/-! ### Stuck runs -/

/-- What a state is stuck at (R219): a GPIO access where no port exists, or a read of memory that is not admitted. -/
inductive StuckAt (p : Params) : Seq → Prop where
  | port {ops : List MicroOp} {j : Nat} {a : Addr} {r : GReg} {m : Byte}
      (hop : ops[j]? = some (.gpioClr a r m) ∨ ops[j]? = some (.gpioSet a r m)) (hv : validPort p a = false) :
      StuckAt p (.exec ops j)
  | memory {i : Inst} {a : Addr} (ha : memAdmit p a = false) : StuckAt p (.ssFetch i a)

/-- The guards of a UART write raise a fault or let it be performed; neither is stuck. -/
theorem guarded_ne_stuck {s act : State} {i : Inst} {op : MicroOp} {f : Fault} : guarded s i op act ≠ .stuck f := by
  unfold guarded
  split <;> nofun

theorem gpioRmw_eq_stuck {s : State} {a : Addr} {r : GReg} {m v : Byte} {entry : Reg 8 → TraceEntry} {f : Fault}
    (h : gpioRmw a r m v entry s = .stuck f) : validPort s.params a = false := by
  unfold gpioRmw at h
  split at h
  · cases h
  · rename_i hv
    exact Bool.eq_false_iff.2 hv

theorem execStep_eq_fault {s : State} {ops : List MicroOp} {j : Nat} {f : Fault} (h : execStep ops j s = .fault f) :
    StuckAt s.params (.exec ops j) := by
  unfold execStep at h
  split at h
  · cases h
  · rename_i op hop
    split at h
    · cases h
    · cases h
    · rename_i f' hstuck
      cases op with
      | gpioClr a r m => exact .port (.inl hop) (gpioRmw_eq_stuck hstuck)
      | gpioSet a r m => exact .port (.inr hop) (gpioRmw_eq_stuck hstuck)
      | latchDesc d => cases hstuck
      | bitWrite i r b v => exact absurd hstuck guarded_ne_stuck
      | fieldWrite i r m v => exact absurd hstuck guarded_ne_stuck
      | regWrite i r v => exact absurd hstuck guarded_ne_stuck

theorem ssFetchStep_eq_fault {s : State} {i : Inst} {p : Addr} {f : Fault} (h : ssFetchStep i p s = .fault f) :
    StuckAt s.params (.ssFetch i p) := by
  unfold ssFetchStep at h
  split at h
  · simp only at h
    split at h <;> cases h
  · rename_i ha
    exact .memory (Bool.eq_false_iff.2 ha)

section
variable {s : State} {i : Inst} {b : Byte} {k : Cont} {f : Fault}

theorem sbCheckStep_ne_fault : sbCheckStep i b k s ≠ .fault f := by
  unfold sbCheckStep
  split <;> nofun

theorem sbPollStep_ne_fault : sbPollStep i b k s ≠ .fault f := by
  unfold sbPollStep
  split <;> nofun

theorem sbWriteStep_ne_fault : sbWriteStep i b k s ≠ .fault f := by
  unfold sbWriteStep
  split
  · nofun
  · cases k <;> nofun

end

/-- A state is stuck at one of the two accesses, which the parameters and `seq` alone decide (R219). -/
theorem stuck_iff {s : State} : Stuck s ↔ StuckAt s.params s.seq := by
  constructor
  · rintro ⟨hidle, hfaulted, f, hblock⟩
    unfold blockStep at hblock
    split at hblock
    next hs => exact absurd hs hidle
    next hs => rw [hs]; exact execStep_eq_fault hblock
    next => exact absurd hblock sbCheckStep_ne_fault
    next => exact absurd hblock sbPollStep_ne_fault
    next => exact absurd hblock sbWriteStep_ne_fault
    next hs => rw [hs]; exact ssFetchStep_eq_fault hblock
    next hs => exact absurd hs hfaulted
  · intro h
    generalize hs : s.seq = q at h
    cases h with
    | port hop hv => exact ⟨by simp [hs], by simp [hs], _, by rw [blockStep, hs]; exact execStep_gpio_stuck hop hv⟩
    | memory ha => exact ⟨by simp [hs], by simp [hs], .stuckMemory, by simp [blockStep, hs, ssFetchStep, ha]⟩

theorem stuck_congr {s t : State} (h : Stuck s) (hp : t.params = s.params) (hq : t.seq = s.seq) : Stuck t := by
  rw [stuck_iff, hp, hq]
  exact stuck_iff.1 h

/-- Without block reset a stuck state has no step but events, which leave it stuck (R219, R224). -/
theorem step_keeps_stuck {s t : State} (h : step s = .next t) (hs : Stuck s) (hreset : EnvMove.blockReset ∉ s.env) :
    Stuck t := by
  have hadv : Stuck { s with env := s.env.tail } := stuck_congr hs rfl rfl
  obtain ⟨hblock, -⟩ | ⟨t', hevent, hnext, -⟩ := step_block_or_event hreset
  · obtain ⟨-, -, f, hf⟩ := hadv
    cases (hblock.symm.trans h).symm.trans hf
  · obtain rfl := Host.Outcome.next.inj (h.symm.trans hnext)
    exact stuck_congr hadv hevent.params hevent.seq

theorem run_stuck {s u : State} {n : Nat} (hs : Stuck s) (hreset : EnvMove.blockReset ∉ s.env)
    (h : Sys2Proof.core.run n s = .next u) : Stuck u :=
  (run_keeps (P := fun s => Stuck s ∧ EnvMove.blockReset ∉ s.env)
    (fun _ _ hP hstep => ⟨step_keeps_stuck hstep hP.1 hP.2, step_keeps_noReset hstep hP.2⟩) ⟨hs, hreset⟩ h).1

/-- A run that is in IDLE at no step does not end (R254). -/
theorem not_ends_of_never_idle {s : State} (h : ∀ n t, Sys2Proof.core.run n s = .next t → t.seq ≠ .idle) : ¬ Ends s := by
  rintro ⟨n, t, hrun, ⟨-, hidle, -⟩, -⟩
  exact h n t hrun hidle

/-- Settles O54: the end is the least number of steps that meets the conditions, and the runs that never end never are in
IDLE. -/
theorem runsEndAtTheFirstEndState : Obligations.RunsEndAtTheFirstEndState := by
  refine ⟨fun s n m t u => EndsAt.unique, fun s n t => exists_endsAt, fun s n t h => ?_, fun s hreset h => ?_,
    fun s i b k hs he hi htxifg hfair => ?_⟩
  · obtain ⟨-, hended, -⟩ := h
    have ⟨hprogram, hidle, hflt⟩ := hended
    exact ⟨hprogram, hidle, FaultRecord.none?_iff.1 hflt, fun hstuck => not_ended_of_stuck hstuck hended⟩
  · refine not_ends_of_never_idle fun n t hrun => ?_
    obtain hfaulted | hstuck := h
    · simp [run_faulted hfaulted hreset hrun]
    · exact (run_stuck hstuck hreset hrun).1
  · refine not_ends_of_never_idle fun n t hrun => ?_
    obtain rfl := Host.Outcome.next.inj ((pollingAClearFlagHangs s i b k n hs he hi htxifg hfair).symm.trans hrun)
    simp [hs]

end Sys2Proof.Machine
